-- ==== Sys2Proof/Word.lean ====
section
/-! DEFINITION. The words at the block's ports (00_scope.md R9, 30_encoding.md R90, R92, R95). -/

namespace Sys2Proof

/-- One byte, 0..255 (00_scope.md R9). -/
abbrev Byte := BitVec 8

/-- One command word of the port `cmd` (30_encoding.md R90, R103). -/
abbrev CmdWord := BitVec 64

/-- One response word of the port `rsp` (30_encoding.md R90, R95). -/
abbrev RspWord := BitVec 32

/-- The three operand fields of the one command format `CMD` (30_encoding.md R92). Every legal command
carries all three: the ones its operation does not use are ignored but latched (R99, R91). -/
structure Operands where
  /-- bits 15:8, the byte to send, used by `WRITE` -/
  data : Byte
  /-- bits 31:16, `frameConfig`, opaque, used by `BEGIN` -/
  frame : BitVec 16
  /-- bits 63:32, `baudRate`, unsigned, used by `BEGIN` -/
  baud : BitVec 32
deriving DecidableEq, Repr, Inhabited

end Sys2Proof
end

