-- ==== Sys2Proof/Config.lean ====
section
/-! DEFINITION. The parameters of an instance (00_scope.md R7), the labels of the steps the four parties take
(00_scope.md R6, R11), and the free values: what the spec leaves to a draw (93_implementation_defined.md U1, U10,
U11, U14, U15). -/

namespace Sys2Proof

/-- The parameters of one instance, with the constraints of 00_scope.md R7. Parameters outside them are no legal
instance and cannot be written (93_implementation_defined.md U17). -/
structure Params where
  /-- slots of the receive ring buffer -/
  nRx : Nat
  /-- slots of the transmit ring buffer -/
  nTx : Nat
  /-- `clockFrequency` of the baud formula, in hertz -/
  clkHz : Nat
  /-- `errorCorrection` of the baud formula, signed -/
  baudCorr : Int
  /-- the hardware execution width; informative, no rule reads it (20_memory.md R68) -/
  atomicW : Nat
  nRx_lo : 2 ≤ nRx
  nRx_hi : nRx ≤ 65536
  nTx_lo : 2 ≤ nTx
  nTx_hi : nTx ≤ 65536
  clkHz_pos : 0 < clkHz
  atomicW_pos : 1 ≤ atomicW
deriving DecidableEq, Repr

/-- The check of 00_scope.md R7: parameters as an instance, or none where a constraint fails (U17: `refuse`). -/
def Params.check (nRx nTx clkHz : Nat) (baudCorr : Int) (atomicW : Nat) : Option Params :=
  if h : 2 ≤ nRx ∧ nRx ≤ 65536 ∧ 2 ≤ nTx ∧ nTx ≤ 65536 ∧ 0 < clkHz ∧ 1 ≤ atomicW then
    some ⟨nRx, nTx, clkHz, baudCorr, atomicW, h.1, h.2.1, h.2.2.1, h.2.2.2.1, h.2.2.2.2.1, h.2.2.2.2.2⟩
  else none

/-- `ceil(log2 n)`, at least 1, for `n ≥ 2`: the cursor width `IW` of 00_scope.md R7. -/
def indexWidth (n : Nat) : Nat := Nat.log2 (n - 1) + 1

/-- One step label with its inputs (00_scope.md R11). The foreground's step is named by the phase alone
(10_state.md R32), so one label stands for all `FG.*` steps. -/
inductive Event where
  /-- `HOST.ISSUE(c)` (30_encoding.md R91) -/
  | issue (c : CmdWord)
  /-- `HOST.SET_GIE(v)` (60_exceptions.md R276) -/
  | setGie (v : Bool)
  /-- the `FG.*` step that `fg_pc` names (10_state.md R32) -/
  | fg
  /-- `INT.RX` (60_exceptions.md R274) -/
  | intRx
  /-- `INT.TX` (60_exceptions.md R275) -/
  | intTx
  /-- `ENV.TX_LOAD` (45_hardware_interface.md R250) -/
  | txLoad
  /-- `ENV.TX_DONE` (45_hardware_interface.md R251) -/
  | txDone
  /-- `ENV.RX_ARRIVE(b, e)` (45_hardware_interface.md R252) -/
  | rxArrive (b : Byte) (e : Nat)
  /-- `ENV.RX_FLUSH` (45_hardware_interface.md R253) -/
  | rxFlush
deriving DecidableEq, Repr, Inhabited

/-- The values of a reset that the spec leaves unspecified (10_state.md R51; 93 U1, U10, U11). -/
structure ResetDraw where
  hwTxc : Bool
  gie : Bool
  fgData : Byte
  fgBaud : BitVec 32
  fgFrame : BitVec 16
  hwBaud : Int
  hwFrame : BitVec 16
  hwRxdata : Byte
  hwRxerr : Nat
  hwTxdata : Byte
  hwShift : Byte
deriving DecidableEq, Repr

/-- FREE VALUE: `hw_txc` at reset, "a free boolean at reset (a draw), not 0 and not 1" (10_state.md R41; U1). -/
opaque Config.resetTxc : Bool

/-- FREE VALUE: `gie` at reset, "unspecified, a free boolean" (10_state.md R49; U11). -/
opaque Config.resetGie : Bool

/-- FREE VALUE: the label and inputs of the `n`-th step that no schedule fixes (00_scope.md R6: "Any enabled step
of any agent may be the next step"; U14, U15, U16; notes/assumptions/2.md). -/
opaque Config.freeEvent : Nat → Event

/-- The draws of `State.reset`: the two booleans the spec wants free are; the rest is 0
(DESIGN CHOICE, notes/assumptions/7.md). -/
def Config.resetDraw : ResetDraw where
  hwTxc := Config.resetTxc
  gie := Config.resetGie
  fgData := 0
  fgBaud := 0
  fgFrame := 0
  hwBaud := 0
  hwFrame := 0
  hwRxdata := 0
  hwRxerr := 0
  hwTxdata := 0
  hwShift := 0

/-- The parameters of `State.reset`, those of the programs of 95_test_vectors.md
(DESIGN CHOICE, notes/assumptions/5.md). -/
def Config.params : Params where
  nRx := 4
  nTx := 4
  clkHz := 20000000
  baudCorr := 0
  atomicW := 8
  nRx_lo := by decide
  nRx_hi := by decide
  nTx_lo := by decide
  nTx_hi := by decide
  clkHz_pos := by decide
  atomicW_pos := by decide

end Sys2Proof
end

