-- ==== Sys2Proof/Machine/State.lean ====
section
/-! DEFINITION. The state (10_state.md), the model-level faults of the spec (60_exceptions.md R285), the reasons a
step of this model stops, and the state after reset (10_state.md R51). -/

namespace Sys2Proof.Machine

open Sys2Proof

/-- Which ring buffer (10_state.md R20). -/
inductive Buf where
  | rx
  | tx
deriving DecidableEq, Repr

/-- The slots of one buffer that hold a value, as (slot index, byte) pairs with strictly rising indexes
(20_memory.md R60). A slot that is not listed holds no value (notes/assumptions/8.md). -/
abbrev Memory := List Host.Cell

/-- One ring buffer: storage, next slot to write, next slot to read (10_state.md R20). -/
structure Ring where
  mem : Memory
  head : Nat
  tail : Nat
deriving DecidableEq, Repr

/-- The phases of the foreground sequencer (10_state.md R32). -/
inductive Phase where
  | idle
  | wrTry
  | wrPoll
  | wrRoom
  | flGate
  | flTest
  | flPoll
  | endOff
  | bgGate
  | bgCfg
deriving DecidableEq, Repr

/-- The 4-bit code of a phase (10_state.md R32); observable on no port. -/
def Phase.code : Phase → BitVec 4
  | .idle => 0
  | .wrTry => 1
  | .wrPoll => 2
  | .wrRoom => 3
  | .flGate => 4
  | .flTest => 5
  | .flPoll => 6
  | .endOff => 7
  | .bgGate => 8
  | .bgCfg => 9

/-- The codes of `raise Fault(code)` (60_exceptions.md R285): a mark in the state, not a stop of this model. -/
inductive FaultCode where
  /-- code 1, raised by `FG.BG_CFG` when `fg_baud == 0` -/
  | baudZero
  /-- code 2, raised by `TxDrainOne` on an empty transmit buffer -/
  | txUnderflow
deriving DecidableEq, Repr

/-- The number of a fault code (60_exceptions.md R285). -/
def FaultCode.number : FaultCode → Nat
  | .baudZero => 1
  | .txUnderflow => 2

/-- The state of one instance, its peripheral, its line and its host. -/
structure State where
  /-- the parameters, fixed for the life of the instance (00_scope.md R7; notes/assumptions/5.md) -/
  cfg : Params
  /-- `rx_buf`, `rx_head`, `rx_tail` (10_state.md R21, R23) -/
  rx : Ring
  /-- `tx_buf`, `tx_head`, `tx_tail` (10_state.md R22, R23) -/
  tx : Ring
  /-- `everWritten` (10_state.md R26) -/
  everWritten : Bool
  /-- `configured` (10_state.md R27) -/
  configured : Bool
  /-- `fg_pc` (10_state.md R32) -/
  fgPc : Phase
  /-- `fg_op` (10_state.md R33) -/
  fgOp : BitVec 4
  /-- `fg_data` (10_state.md R33) -/
  fgData : Byte
  /-- `fg_baud` (10_state.md R33) -/
  fgBaud : BitVec 32
  /-- `fg_frame` (10_state.md R33) -/
  fgFrame : BitVec 16
  /-- `rsp_log`, oldest first (10_state.md R34) -/
  rspLog : List RspWord
  /-- `rxen` (10_state.md R36) -/
  rxen : Bool
  /-- `txen` (10_state.md R36) -/
  txen : Bool
  /-- `rxc_ie` (10_state.md R36) -/
  rxcIe : Bool
  /-- `txe_ie` (10_state.md R36) -/
  txeIe : Bool
  /-- `hw_baud` (10_state.md R37) -/
  hwBaud : Int
  /-- `hw_frame` (10_state.md R37) -/
  hwFrame : BitVec 16
  /-- `pin_cfg` (10_state.md R37) -/
  pinCfg : Bool
  /-- `hw_dre` (10_state.md R41) -/
  hwDre : Bool
  /-- `hw_txc` (10_state.md R41) -/
  hwTxc : Bool
  /-- `hw_rxc` (10_state.md R41) -/
  hwRxc : Bool
  /-- `hw_rxdata` (10_state.md R42) -/
  hwRxdata : Byte
  /-- `hw_rxerr`, an opaque value (10_state.md R42; notes/assumptions/9.md) -/
  hwRxerr : Nat
  /-- `hw_txdata` (10_state.md R46) -/
  hwTxdata : Byte
  /-- `hw_shift_busy` (10_state.md R46) -/
  hwShiftBusy : Bool
  /-- `hw_shift` (10_state.md R46) -/
  hwShift : Byte
  /-- `tx_line`, oldest first (10_state.md R47) -/
  txLine : List Byte
  /-- `gie` (10_state.md R49) -/
  gie : Bool
  /-- `faulted` (10_state.md R50) -/
  faulted : Option FaultCode
  /-- the MODEL's own: the steps drawn next, in order (00_scope.md R6, 10_state.md R52; notes/assumptions/1.md) -/
  schedule : List Event
  /-- the MODEL's own: the number of the next free draw (notes/assumptions/2.md) -/
  draws : Nat
deriving DecidableEq, Repr

/-- Why a step of this MODEL stops. All are the model's own, safe, and reached from no reset
(70_reset_and_hazards.md R330, R333; notes/assumptions/8.md, 16.md). -/
inductive Fault where
  /-- a ring pop or peek reads a slot that nothing has written, whose reset value the spec leaves unspecified
  (10_state.md R21, R22); safe -/
  | unwrittenSlot (slot : Nat)
  /-- a ring operation uses a slot index not below the buffer's capacity, an address that does not exist
  (20_memory.md R60, R64); safe -/
  | noSuchSlot (slot : Nat)
  /-- `FlushReturn` with an `fg_op` other than BEGIN, END and FLUSH, for which the rule gives no case
  (42_write_flush_poll.md R173); safe -/
  | noFlushReturn (op : BitVec 4)
deriving DecidableEq, Repr

/-- No meaning is left out, so nothing raises it: the form the host reads for an instruction rejected by name;
safe. -/
inductive Refusal where
  | notModelled (mnemonic : String)
deriving DecidableEq, Repr

/-- What a step of this model answers. -/
abbrev Result := Host.Outcome State Fault Refusal

/-- The effect of one atomic step before it is committed: the state it leaves, or `raise Fault(code)`
(00_scope.md R10), or a stop of this model. -/
inductive Effect where
  | done (s : State)
  | raise (c : FaultCode)
  | stop (f : Fault)
deriving DecidableEq, Repr

/-- The state after reset for given parameters, draws of the unspecified values, and schedule
(10_state.md R51, 70_reset_and_hazards.md R310). -/
def State.resetWith (p : Params) (d : ResetDraw) (schedule : List Event) : State where
  cfg := p
  rx := ⟨[], 0, 0⟩
  tx := ⟨[], 0, 0⟩
  everWritten := false
  configured := false
  fgPc := .idle
  fgOp := 0
  fgData := d.fgData
  fgBaud := d.fgBaud
  fgFrame := d.fgFrame
  rspLog := []
  rxen := false
  txen := false
  rxcIe := false
  txeIe := false
  hwBaud := d.hwBaud
  hwFrame := d.hwFrame
  pinCfg := false
  hwDre := true
  hwTxc := d.hwTxc
  hwRxc := false
  hwRxdata := d.hwRxdata
  hwRxerr := d.hwRxerr
  hwTxdata := d.hwTxdata
  hwShiftBusy := false
  hwShift := d.hwShift
  txLine := []
  gie := d.gie
  faulted := none
  schedule := schedule
  draws := 0

/-- The machine right after reset, with nothing placed in its schedule. -/
def State.reset : State := State.resetWith Config.params Config.resetDraw []

end Sys2Proof.Machine
end

