-- ==== Sys2Proof/Machine/Flags.lean ====
section
/-! DEFINITION. The conditions the rules test (10_state.md R25, R28): of a ring buffer, the two interrupt requests
(60_exceptions.md R272, R273), and the enabling condition of every step (00_scope.md R11). There are no arithmetic
flags. -/

namespace Sys2Proof.Machine

open Sys2Proof

/-- `Empty(B)` (10_state.md R25). -/
def Ring.isEmpty (r : Ring) : Bool := r.head == r.tail

/-- `Full(B)` for a capacity `n` (10_state.md R25). -/
def Ring.isFull (n : Nat) (r : Ring) : Bool := (r.head + 1) % n == r.tail

/-- `RingOccupied` (40_ring_buffer.md R124; `Occupied(B)` of 10_state.md R25). -/
def ringOccupied (n : Nat) (r : Ring) : Nat := (n + r.head - r.tail) % n

/-- `RingFree` (40_ring_buffer.md R125; `Free(B)` of 10_state.md R25). -/
def ringFree (n : Nat) (r : Ring) : Nat := n - 1 - ringOccupied n r

/-- The receive-complete request `RxReq` (60_exceptions.md R272); a level, not stored (R282). -/
def State.rxReq (s : State) : Bool := s.rxcIe && s.hwRxc

/-- The transmit-empty request `TxReq`, "interrupt armed AND hardware ready" (60_exceptions.md R273). -/
def State.txReq (s : State) : Bool := s.txeIe && s.hwDre

/-- `HOST.ISSUE` is enabled (30_encoding.md R91). -/
def State.canIssue (s : State) : Bool := s.fgPc == .idle && s.faulted == none

/-- A step of the foreground is enabled: a command is in progress and nothing has faulted
(10_state.md R32, 60_exceptions.md R285). -/
def State.fgEnabled (s : State) : Bool := !(s.fgPc == .idle) && s.faulted == none

/-- `INT.RX` is enabled (60_exceptions.md R274). -/
def State.rxTakeable (s : State) : Bool := s.gie && s.rxReq && s.faulted == none

/-- `INT.TX` is enabled (60_exceptions.md R275). -/
def State.txTakeable (s : State) : Bool := s.gie && s.txReq && s.faulted == none

/-- The enabling condition of a step (00_scope.md R11). Setting `gie` asks for an idle foreground only
(60_exceptions.md R276), and the peripheral's steps ask nothing of the block's fault mark (45 R250 to R253;
notes/assumptions/15.md). -/
def enabled (e : Event) (s : State) : Bool :=
  match e with
  | .issue _ => s.canIssue
  | .setGie _ => s.fgPc == .idle
  | .fg => s.fgEnabled
  | .intRx => s.rxTakeable
  | .intTx => s.txTakeable
  | .txLoad => s.txen && !s.hwDre && !s.hwShiftBusy
  | .txDone => s.txen && s.hwShiftBusy
  | .rxArrive _ _ => s.rxen && !s.hwRxc
  | .rxFlush => !s.rxen && s.hwRxc

end Sys2Proof.Machine
end

