-- ==== Sys2Proof/Syntax.lean ====
section
/-! DEFINITION. The instructions: the nine commands and the two handlers of spec/opcode_table.json
(30_encoding.md R93, R102). -/

namespace Sys2Proof

/-- One constructor per row of the opcode table. A command carries the operand fields of its word (R92). -/
inductive Instr where
  /-- `BEGIN baud, frame` (43_begin_end_baud.md R190) -/
  | beginCmd (o : Operands)
  /-- `END` (43_begin_end_baud.md R194) -/
  | endCmd (o : Operands)
  /-- `WRITE data` (42_write_flush_poll.md R160) -/
  | write (o : Operands)
  /-- `AVAILABLE_FOR_WRITE` (41_foreground_queries.md R142) -/
  | availableForWrite (o : Operands)
  /-- `FLUSH` (42_write_flush_poll.md R169) -/
  | flush (o : Operands)
  /-- `AVAILABLE` (41_foreground_queries.md R141) -/
  | available (o : Operands)
  /-- `PEEK` (41_foreground_queries.md R143) -/
  | peek (o : Operands)
  /-- `READ` (41_foreground_queries.md R144) -/
  | read (o : Operands)
  /-- `POLL` (42_write_flush_poll.md R168) -/
  | poll (o : Operands)
  /-- the receive-complete handler, vector 0 (44_interrupt_handlers.md R221) -/
  | rxHandler
  /-- the transmit-empty handler, vector 1 (44_interrupt_handlers.md R225) -/
  | txHandler
deriving DecidableEq, Repr

end Sys2Proof
end

