-- ==== Sys2Proof/WellFormed.lean ====
section
/-! DEFINITION. What a host is told to send: legal command words (30_encoding.md R98) and instructions whose unused
operand fields are 0 (R99, the form the call syntax of R100 writes). The widths of the fields are in their types, so
nothing else can be ill-formed. The decoder accepts every legal word and the meanings run every instruction; no
meaning asks for these checks. -/

namespace Sys2Proof

/-- A command word is legal when `op` is 1..9 and `rsv` is 0 (30_encoding.md R98), said by arithmetic on the word's
number and apart from the decoder's fields. -/
def CmdWord.legal (w : CmdWord) : Bool :=
  decide (1 ≤ w.toNat % 16) && decide (w.toNat % 16 ≤ 9) && decide (w.toNat / 16 % 16 = 0)

/-- No operand field is used: all are 0 (30_encoding.md R99). -/
def Operands.noneUsed (o : Operands) : Bool := o.data == 0 && o.frame == 0 && o.baud == 0

/-- Fields an operation does not use are 0: "A host should write them as 0" (30_encoding.md R99; the column
"used by" of R92 and "operands used" of R93). -/
def Instr.wellFormed : Instr → Bool
  | .beginCmd o => o.data == 0
  | .endCmd o => o.noneUsed
  | .write o => o.frame == 0 && o.baud == 0
  | .availableForWrite o => o.noneUsed
  | .flush o => o.noneUsed
  | .available o => o.noneUsed
  | .peek o => o.noneUsed
  | .read o => o.noneUsed
  | .poll o => o.noneUsed
  | .rxHandler => true
  | .txHandler => true

end Sys2Proof
end

