-- ==== Sys2Proof/Decode.lean ====
section
/-! DEFINITION. Decoding and encoding (30_encoding.md R91 to R94, R98, R99, R102), the opcode map as rows of mask and
match (R93, R102), and the numbering of words that spec/opcode_table.json uses. -/

namespace Sys2Proof

/-- Why a command word is refused (30_encoding.md R98). -/
inductive DecodeError where
  /-- `rsv`, bits 7:4, is not 0 -/
  | reservedBits (rsv : BitVec 4)
  /-- `op`, bits 3:0, is 0 or 10..15 -/
  | illegalOp (op : BitVec 4)
deriving DecidableEq, Repr

/-- What selects an instruction: a word on the command port (R92) or the vector number of the interrupt request
that is taken (R102). -/
inductive Code where
  | cmd (w : CmdWord)
  | irq (v : BitVec 1)
deriving DecidableEq, Repr

/-- `op`, bits 3:0 (30_encoding.md R92). -/
def fieldOp (w : CmdWord) : BitVec 4 := w.extractLsb' 0 4
/-- `rsv`, bits 7:4 (30_encoding.md R92). -/
def fieldRsv (w : CmdWord) : BitVec 4 := w.extractLsb' 4 4
/-- `data`, bits 15:8 (30_encoding.md R92). -/
def fieldData (w : CmdWord) : Byte := w.extractLsb' 8 8
/-- `frame`, bits 31:16 (30_encoding.md R92). -/
def fieldFrame (w : CmdWord) : BitVec 16 := w.extractLsb' 16 16
/-- `baud`, bits 63:32 (30_encoding.md R92). -/
def fieldBaud (w : CmdWord) : BitVec 32 := w.extractLsb' 32 32

/-- Operand assembly: each field as it stands (30_encoding.md R94). -/
def fieldOperands (w : CmdWord) : Operands := ⟨fieldData w, fieldFrame w, fieldBaud w⟩

/-- The operation that an operation number names, by the opcode map (30_encoding.md R93). -/
def commandOf (op : BitVec 4) (o : Operands) : Option Instr :=
  match op with
  | 1#4 => some (.beginCmd o)
  | 2#4 => some (.endCmd o)
  | 3#4 => some (.write o)
  | 4#4 => some (.availableForWrite o)
  | 5#4 => some (.flush o)
  | 6#4 => some (.available o)
  | 7#4 => some (.peek o)
  | 8#4 => some (.read o)
  | 9#4 => some (.poll o)
  | _ => none

/-- Decodes a command word; an illegal one is refused by name (30_encoding.md R91, R93, R98). -/
def decodeCmd (w : CmdWord) : Except DecodeError Instr :=
  if fieldRsv w ≠ 0 then .error (.reservedBits (fieldRsv w))
  else match commandOf (fieldOp w) (fieldOperands w) with
    | some i => .ok i
    | none => .error (.illegalOp (fieldOp w))

/-- The handler that a vector number selects (30_encoding.md R102). -/
def decodeIrq (v : BitVec 1) : Instr := if v = 0 then .rxHandler else .txHandler

/-- The decoder, total on every command word and every vector number. -/
def decode : Code → Except DecodeError Instr
  | .cmd w => decodeCmd w
  | .irq v => .ok (decodeIrq v)

/-- A command word from its fields, `rsv` being 0 (30_encoding.md R92, R100). -/
def cmdWord (op : BitVec 4) (o : Operands) : CmdWord := o.baud ++ o.frame ++ o.data ++ (0#4) ++ op

/-- The encoder, from the opcode map (30_encoding.md R93, R100, R102). -/
def encode : Instr → Code
  | .beginCmd o => .cmd (cmdWord 1 o)
  | .endCmd o => .cmd (cmdWord 2 o)
  | .write o => .cmd (cmdWord 3 o)
  | .availableForWrite o => .cmd (cmdWord 4 o)
  | .flush o => .cmd (cmdWord 5 o)
  | .available o => .cmd (cmdWord 6 o)
  | .peek o => .cmd (cmdWord 7 o)
  | .read o => .cmd (cmdWord 8 o)
  | .poll o => .cmd (cmdWord 9 o)
  | .rxHandler => .irq 0
  | .txHandler => .irq 1

/-- The command rows of the opcode map, each its mnemonic and its `match` under the mask 0xFF (30_encoding.md R93). -/
def commandRows : List (String × CmdWord) :=
  [("BEGIN", 0x01), ("END", 0x02), ("WRITE", 0x03), ("AVAILABLE_FOR_WRITE", 0x04), ("FLUSH", 0x05),
   ("AVAILABLE", 0x06), ("PEEK", 0x07), ("READ", 0x08), ("POLL", 0x09)]

/-- A word selects a row when `(word and mask) == match` (30_encoding.md R93). -/
def selectsRow (w : CmdWord) (row : String × CmdWord) : Bool := w &&& 0xFF == row.2

/-- The row of the opcode table that an instruction stands for. -/
def mnemonic : Instr → String
  | .beginCmd _ => "BEGIN"
  | .endCmd _ => "END"
  | .write _ => "WRITE"
  | .availableForWrite _ => "AVAILABLE_FOR_WRITE"
  | .flush _ => "FLUSH"
  | .available _ => "AVAILABLE"
  | .peek _ => "PEEK"
  | .read _ => "READ"
  | .poll _ => "POLL"
  | .rxHandler => "RX_HANDLER"
  | .txHandler => "TX_HANDLER"

/-- The code that `nbits` bits of the opcode table's numbering stand for (notes/assumptions/13.md). The table's rows
of format `IRQ` have one bit; a whole byte 0 is no legal command word (op 0, R98) and matches the one row RX_HANDLER.
Everything else is a command word, its bits above `nbits` being 0. -/
def tableCode (nbits w : Nat) : Code :=
  if nbits < 8 then .irq (BitVec.ofNat 1 w)
  else if nbits = 8 ∧ w % 256 = 0 then .irq 0
  else .cmd (BitVec.ofNat 64 (w % 2 ^ nbits))

/-- The instruction the decoder reads from a word of the opcode table's numbering; none where it refuses. -/
def decodeTableWord (nbits w : Nat) : Option Instr :=
  match decode (tableCode nbits w) with
  | .ok i => some i
  | .error _ => none

end Sys2Proof
end

