-- ==== Sys2Proof/Machine/Operands.lean ====
section
/-! DEFINITION. The operand latches of a command and the words a command answers with
(30_encoding.md R91, R95 to R98; 10_state.md R33). -/

namespace Sys2Proof.Machine

open Sys2Proof

/-- The latched operand fields (10_state.md R33). -/
def State.operands (s : State) : Operands := ⟨s.fgData, s.fgFrame, s.fgBaud⟩

/-- The latching of `HOST.ISSUE`: `fg_op`, `fg_data`, `fg_frame`, `fg_baud` (30_encoding.md R91). -/
def State.latch (op : BitVec 4) (o : Operands) (s : State) : State :=
  { s with fgOp := op, fgData := o.data, fgFrame := o.frame, fgBaud := o.baud }

/-- A response word: `value` in bits 15:0, `ill` in bit 16, zeros above (30_encoding.md R95). -/
def rspWord (ill : Bool) (value : BitVec 16) : RspWord := (0#15 ++ BitVec.ofBool ill ++ value : BitVec 32)

/-- `IllegalResponse` (30_encoding.md R98). -/
def illegalResponse : RspWord := rspWord true 0

/-- `respond(v)`: the response, and the foreground is idle again (30_encoding.md R96). -/
def State.respond (value : BitVec 16) (s : State) : State :=
  { s with rspLog := s.rspLog ++ [rspWord false value], fgPc := .idle }

/-- The refusal of an illegal command word: the response alone (30_encoding.md R98). -/
def State.refuseCommand (s : State) : State := { s with rspLog := s.rspLog ++ [illegalResponse] }

/-- A count at the response port: every count fits in `value` (30_encoding.md R97). -/
def countValue (n : Nat) : BitVec 16 := BitVec.ofNat 16 n

/-- An optional byte at the response port; the sentinel is 0xFFFF (30_encoding.md R97). -/
def byteValue : Option Byte → BitVec 16
  | none => 0xFFFF
  | some b => b.setWidth 16

/-- The operation numbers of the multi-step commands (30_encoding.md R93). -/
def isMultiStep (op : BitVec 4) : Bool := op == 1 || op == 2 || op == 3 || op == 5

/-- The command in progress, as the latches hold it (10_state.md R33). -/
def State.inFlight (s : State) : Option Instr :=
  if s.fgPc = .idle then none
  else if isMultiStep s.fgOp then commandOf s.fgOp s.operands
  else none

end Sys2Proof.Machine
end

