-- ==== Sys2Proof/Machine/Ops.lean ====
section
/-! DEFINITION. The named operations: buffer memory (20_memory.md R60 to R62), the ring buffer primitives
(40_ring_buffer.md R121 to R123), the actions on the Hardware Interface (45_hardware_interface.md R242 to R248),
`raise Fault` (60_exceptions.md R285), and taking an interrupt and returning from one (60_exceptions.md R279, R280). -/

namespace Sys2Proof.Machine

open Sys2Proof

/-- The value a slot holds, if something has written it. -/
def memGet : Memory → Nat → Option Byte
  | [], _ => none
  | (a, b) :: m, i => if a = i then some b else memGet m i

/-- The memory with slot `i` holding `b`, slots in rising order. -/
def memSet : Memory → Nat → Byte → Memory
  | [], i, b => [(i, b)]
  | (a, c) :: m, i, b =>
    if i < a then (i, b) :: (a, c) :: m
    else if i = a then (i, b) :: m
    else (a, c) :: memSet m i b

/-- The canonical form of a buffer memory of `n` slots: indexes strictly rising and all below `n`. No entry equals
what an unlisted slot reads as, since an unlisted slot holds no value (notes/assumptions/8.md). -/
def memWf (n : Nat) : Memory → Bool
  | [] => true
  | (a, _) :: m => decide (a < n) && m.all (fun c => decide (a < c.1)) && memWf n m

/-- `MemRead(B, i)` for a buffer of `n` slots (20_memory.md R62). -/
def memRead (n i : Nat) (m : Memory) : Except Fault Byte :=
  if i < n then
    match memGet m i with
    | some b => .ok b
    | none => .error (.unwrittenSlot i)
  else .error (.noSuchSlot i)

/-- `MemWrite(B, i, b)` for a buffer of `n` slots (20_memory.md R62). -/
def memWrite (n i : Nat) (b : Byte) (m : Memory) : Except Fault Memory :=
  if i < n then .ok (memSet m i b) else .error (.noSuchSlot i)

/-- `RingPush(B, b)`: the ring after it and whether the byte was accepted (40_ring_buffer.md R121; the byte is stored
before the cursor moves, 20_memory.md R69). -/
def ringPush (n : Nat) (b : Byte) (r : Ring) : Except Fault (Ring × Bool) :=
  if (r.head + 1) % n = r.tail then .ok (r, false)
  else match memWrite n r.head b r.mem with
    | .ok m => .ok ({ r with mem := m, head := (r.head + 1) % n }, true)
    | .error f => .error f

/-- `RingPop(B)`: the ring after it and the byte, if there was one (40_ring_buffer.md R122). -/
def ringPop (n : Nat) (r : Ring) : Except Fault (Ring × Option Byte) :=
  if r.head = r.tail then .ok (r, none)
  else match memRead n r.tail r.mem with
    | .ok c => .ok ({ r with tail := (r.tail + 1) % n }, some c)
    | .error f => .error f

/-- `RingPeek(B)` (40_ring_buffer.md R123). -/
def ringPeek (n : Nat) (r : Ring) : Except Fault (Option Byte) :=
  if r.head = r.tail then .ok none
  else match memRead n r.tail r.mem with
    | .ok c => .ok (some c)
    | .error f => .error f

/-- The four control bits that `HwSet` writes (45_hardware_interface.md R245). -/
inductive CtrlBit where
  | rxen
  | txen
  | rxcIe
  | txeIe
deriving DecidableEq, Repr

/-- `HwSet(bit, v)` (45_hardware_interface.md R245). -/
def State.hwSet (bit : CtrlBit) (v : Bool) (s : State) : State :=
  match bit with
  | .rxen => { s with rxen := v }
  | .txen => { s with txen := v }
  | .rxcIe => { s with rxcIe := v }
  | .txeIe => { s with txeIe := v }

/-- `HwWriteTx(b)` (45_hardware_interface.md R242). -/
def State.hwWriteTx (b : Byte) (s : State) : State := { s with hwTxdata := b, hwDre := false }

/-- `HwClearTxc()` (45_hardware_interface.md R243). -/
def State.hwClearTxc (s : State) : State := { s with hwTxc := false }

/-- The state after `HwReadRx()`, which returns `hw_rxdata` and `hw_rxerr` (45_hardware_interface.md R244). -/
def State.hwReadRx (s : State) : State := { s with hwRxc := false }

/-- `HwSetBaud(v)` (45_hardware_interface.md R246). -/
def State.hwSetBaud (v : Int) (s : State) : State := { s with hwBaud := v }

/-- `HwSetFrame(v)` (45_hardware_interface.md R247). -/
def State.hwSetFrame (v : BitVec 16) (s : State) : State := { s with hwFrame := v }

/-- `PinSetup()` (45_hardware_interface.md R248). -/
def State.pinSetup (s : State) : State := { s with pinCfg := true }

/-- `fg_pc <- P` (00_scope.md R10). -/
def State.goto (p : Phase) (s : State) : State := { s with fgPc := p }

/-- A write of the receive buffer. -/
def State.setRx (r : Ring) (s : State) : State := { s with rx := r }

/-- A write of the transmit buffer. -/
def State.setTx (r : Ring) (s : State) : State := { s with tx := r }

/-- `everWritten <- v` (10_state.md R26). -/
def State.setEverWritten (v : Bool) (s : State) : State := { s with everWritten := v }

/-- `configured <- v` (10_state.md R27). -/
def State.setConfigured (v : Bool) (s : State) : State := { s with configured := v }

/-- `raise Fault(code)`: "`faulted <- code`, no other state changes in that step" (60_exceptions.md R285). -/
def raiseFault (c : FaultCode) (s : State) : State := { s with faulted := some c }

/-- One atomic step from `s`: what its effect leaves, or the fault mark on `s` itself, so that nothing the step did
before it raised remains (60_exceptions.md R285). -/
def commit (s : State) : Effect → Result
  | .done t => .next t
  | .raise c => .next (raiseFault c s)
  | .stop f => .fault f

/-- A change that follows an effect inside the same step. -/
def Effect.andThen (f : State → State) : Effect → Effect
  | .done s => .done (f s)
  | .raise c => .raise c
  | .stop g => .stop g

/-- Interrupt entry: "Taking it saves nothing and changes nothing of the block's state beyond the handler body"
(60_exceptions.md R279). -/
def interruptEntry (s : State) : State := s

/-- Interrupt return: "Nothing is restored, because nothing was saved" (60_exceptions.md R280). -/
def interruptReturn (s : State) : State := s

/-- Taking an interrupt: entry, the handler body, return, as one atomic step (44_interrupt_handlers.md R220,
60_exceptions.md R279 to R281). -/
def takeInterrupt (body : State → Effect) (s : State) : Result :=
  commit s ((body (interruptEntry s)).andThen interruptReturn)

/-- `HOST.ISSUE` of a legal command: it latches, then does what the operation does in this step (30_encoding.md R91).
Where it is not enabled the command is not accepted and nothing changes (93 U7; notes/assumptions/12.md). -/
def hostIssue (op : BitVec 4) (o : Operands) (body : State → Effect) (s : State) : Result :=
  if s.canIssue then commit s (body (s.latch op o)) else .next s

end Sys2Proof.Machine
end

