-- ==== Sys2Proof/Machine/Lifecycle.lean ====
section
/-! DEFINITION. The phases of BEGIN and END and the baud setting (43_begin_end_baud.md R192, R193, R196, R198). -/

namespace Sys2Proof.Machine

open Sys2Proof

/-- `s0`, the rounded quotient (43_begin_end_baud.md R198, R199). -/
def baudRounded (clkHz rate : Nat) : Nat := (8 * clkHz / rate + 1) / 2

/-- `BaudSetting(rate)`: `s0` and its correction, whose quotient is truncated toward zero; no width is applied
(43_begin_end_baud.md R198, R200). -/
def baudSetting (clkHz : Nat) (baudCorr : Int) (rate : Nat) : Int :=
  baudRounded clkHz rate + ((baudRounded clkHz rate : Int) * baudCorr).tdiv 1024

/-- `FG.BG_GATE` (43_begin_end_baud.md R192). -/
def fgBgGate (s : State) : Effect := .done (if s.configured then s.goto .flGate else s.goto .bgCfg)

/-- `FG.BG_CFG`, the atomic setup (43_begin_end_baud.md R193); a zero rate raises `Fault(BaudZero)` (R201). -/
def fgBgCfg (s : State) : Effect :=
  if s.fgBaud = 0 then .raise .baudZero
  else
    let t := (s.pinSetup.hwSetBaud (baudSetting s.cfg.clkHz s.cfg.baudCorr s.fgBaud.toNat)).hwSetFrame s.fgFrame
    let u := ((t.hwSet .rxen true).hwSet .txen true).hwSet .rxcIe true
    .done ((u.setConfigured true).respond 0)

/-- The writes of `FG.END_OFF` before it responds or goes on (43_begin_end_baud.md R196): everything is disabled and
the receive buffer's tail jumps to its head. -/
def shutDown (s : State) : State :=
  let t := (((s.hwSet .rxen false).hwSet .txen false).hwSet .rxcIe false).hwSet .txeIe false
  ((t.setRx { t.rx with tail := t.rx.head }).setConfigured false).setEverWritten false

/-- `FG.END_OFF` (43_begin_end_baud.md R196). -/
def fgEndOff (s : State) : Effect :=
  .done (if s.fgOp = 2 then (shutDown s).respond 0 else (shutDown s).goto .bgCfg)

end Sys2Proof.Machine
end

