-- ==== Sys2Proof/Machine/Drain.lean ====
section
/-! DEFINITION. The drain logic that the transmit-empty handler and the polling fallback share
(44_interrupt_handlers.md R224, R226; 42_write_flush_poll.md R167). -/

namespace Sys2Proof.Machine

open Sys2Proof

/-- `TxDrainOne` after its pop: the byte goes to the data register, the completion flag is cleared, and the
interrupt is disarmed when the buffer is now empty (44_interrupt_handlers.md R224). -/
def feedHardware (c : Byte) (s : State) : State :=
  let t := (s.hwWriteTx c).hwClearTxc
  if t.tx.isEmpty then t.hwSet .txeIe false else t

/-- `TxDrainOne` (44_interrupt_handlers.md R224); on an empty buffer `Fault(TxUnderflow)` (R226). -/
def txDrainOne (s : State) : Effect :=
  match ringPop s.cfg.nTx s.tx with
  | .ok (_, none) => .raise .txUnderflow
  | .ok (r, some c) => .done (feedHardware c (s.setTx r))
  | .error f => .stop f

/-- `PollOnce`, which does not read `gie` (42_write_flush_poll.md R167). -/
def pollOnce (s : State) : Effect := if s.txReq then txDrainOne s else .done s

end Sys2Proof.Machine
end

