-- ==== Sys2Proof/Machine/Transmit.lean ====
section
/-! DEFINITION. The phases of WRITE and of FLUSH (42_write_flush_poll.md R162 to R165, R170 to R173). -/

namespace Sys2Proof.Machine

open Sys2Proof

/-- `FG.WR_TRY`: fast path, slow path, exhausted path (42_write_flush_poll.md R162, R163). -/
def fgWrTry (s : State) : Effect :=
  if s.txeIe = false ∧ s.hwDre = true then
    .done ((((s.hwWriteTx s.fgData).hwClearTxc).setEverWritten true).respond 1)
  else match ringPush s.cfg.nTx s.fgData s.tx with
    | .ok (r, true) => .done ((((s.setTx r).hwSet .txeIe true).setEverWritten true).respond 1)
    | .ok (_, false) => .done (s.goto .wrPoll)
    | .error f => .stop f

/-- `FG.WR_POLL` (42_write_flush_poll.md R164). -/
def fgWrPoll (s : State) : Effect := (pollOnce s).andThen (State.goto .wrRoom)

/-- `FG.WR_ROOM` (42_write_flush_poll.md R165). -/
def fgWrRoom (s : State) : Effect :=
  .done (if s.tx.isFull s.cfg.nTx then s.goto .wrPoll else s.goto .wrTry)

/-- `FlushReturn()`: `FLUSH` responds, `END` and `BEGIN` go on to `END_OFF` (42_write_flush_poll.md R173). "No other
value of `fg_op` can occur" here: the rule has no case for one, and the model stops (notes/assumptions/16.md). -/
def flushReturn (s : State) : Effect :=
  match s.fgOp with
  | 5#4 => .done (s.respond 0)
  | 2#4 => .done (s.goto .endOff)
  | 1#4 => .done (s.goto .endOff)
  | op => .stop (.noFlushReturn op)

/-- `FG.FL_GATE` (42_write_flush_poll.md R170). -/
def fgFlGate (s : State) : Effect := if s.everWritten then .done (s.goto .flTest) else flushReturn s

/-- `FG.FL_TEST` (42_write_flush_poll.md R171). -/
def fgFlTest (s : State) : Effect := if s.txeIe || !s.hwTxc then .done (s.goto .flPoll) else flushReturn s

/-- `FG.FL_POLL` (42_write_flush_poll.md R172). -/
def fgFlPoll (s : State) : Effect := (pollOnce s).andThen (State.goto .flTest)

end Sys2Proof.Machine
end

