-- ==== Sys2Proof/Machine/Foreground.lean ====
section
/-! DEFINITION. The foreground sequencer (10_state.md R32) and the four multi-step commands
(30_encoding.md R91, R101). -/

namespace Sys2Proof.Machine

open Sys2Proof

/-- The effect of the step that `fg_pc` names (10_state.md R32); `IDLE` names none. -/
def fgPhase (s : State) : Effect :=
  match s.fgPc with
  | .idle => .done s
  | .wrTry => fgWrTry s
  | .wrPoll => fgWrPoll s
  | .wrRoom => fgWrRoom s
  | .flGate => fgFlGate s
  | .flTest => fgFlTest s
  | .flPoll => fgFlPoll s
  | .endOff => fgEndOff s
  | .bgGate => fgBgGate s
  | .bgCfg => fgBgCfg s

/-- One `FG.*` step, where one is enabled (10_state.md R32, 60_exceptions.md R285). -/
def fgStep (s : State) : Result := if s.fgEnabled then commit s (fgPhase s) else .next s

/-- A multi-step command: issued when the foreground is idle (it latches and enters its first phase); while it is the
command in progress, its next phase; while another command is in progress, not accepted, so nothing changes
(30_encoding.md R91, R101; notes/assumptions/12.md). -/
def multiStep (op : BitVec 4) (first : Phase) (o : Operands) (s : State) : Result :=
  if s.fgPc = .idle then hostIssue op o (fun t => .done (t.goto first)) s
  else if s.fgOp = op ∧ s.operands = o then fgStep s
  else .next s

/-- `BEGIN` (43_begin_end_baud.md R190; operation 1, first phase `BG_GATE`). -/
def execBegin (o : Operands) (s : State) : Result := multiStep 1 .bgGate o s

/-- `END` (43_begin_end_baud.md R194; operation 2, first phase `FL_GATE`). -/
def execEnd (o : Operands) (s : State) : Result := multiStep 2 .flGate o s

/-- `WRITE` (42_write_flush_poll.md R160; operation 3, first phase `WR_TRY`). -/
def execWrite (o : Operands) (s : State) : Result := multiStep 3 .wrTry o s

/-- `FLUSH` (42_write_flush_poll.md R169; operation 5, first phase `FL_GATE`). -/
def execFlush (o : Operands) (s : State) : Result := multiStep 5 .flGate o s

end Sys2Proof.Machine
end

