-- ==== Sys2Proof/Machine/Handlers.lean ====
section
/-! DEFINITION. The two interrupt handlers (44_interrupt_handlers.md R221, R225) and their taking
(60_exceptions.md R274, R275). -/

namespace Sys2Proof.Machine

open Sys2Proof

/-- `RxHandler`: the byte is read and pushed; where the buffer is full it is dropped, and the error flags are
discarded in every case (44_interrupt_handlers.md R221 to R223). -/
def rxHandler (s : State) : Effect :=
  match ringPush s.cfg.nRx s.hwRxdata s.rx with
  | .ok (r, _) => .done (s.hwReadRx.setRx r)
  | .error f => .stop f

/-- `TxHandler` (44_interrupt_handlers.md R225). -/
def txHandler (s : State) : Effect := txDrainOne s

/-- `INT.RX`; where it is not enabled it is not taken (60_exceptions.md R274). -/
def execRxHandler (s : State) : Result := if s.rxTakeable then takeInterrupt rxHandler s else .next s

/-- `INT.TX`; where it is not enabled it is not taken (60_exceptions.md R275). -/
def execTxHandler (s : State) : Result := if s.txTakeable then takeInterrupt txHandler s else .next s

end Sys2Proof.Machine
end

