-- ==== Sys2Proof/Machine/Queries.lean ====
section
/-! DEFINITION. The single-step commands: AVAILABLE, AVAILABLE_FOR_WRITE, PEEK, READ (41_foreground_queries.md) and
POLL (42_write_flush_poll.md R168). -/

namespace Sys2Proof.Machine

open Sys2Proof

/-- `AVAILABLE` in its one step (41_foreground_queries.md R141). -/
def availableBody (s : State) : Effect := .done (s.respond (countValue (ringOccupied s.cfg.nRx s.rx)))

/-- `AVAILABLE_FOR_WRITE` in its one step (41_foreground_queries.md R142). -/
def availableForWriteBody (s : State) : Effect := .done (s.respond (countValue (ringFree s.cfg.nTx s.tx)))

/-- `PEEK` in its one step (41_foreground_queries.md R143). -/
def peekBody (s : State) : Effect :=
  match ringPeek s.cfg.nRx s.rx with
  | .ok c => .done (s.respond (byteValue c))
  | .error f => .stop f

/-- `READ` in its one step (41_foreground_queries.md R144). -/
def readBody (s : State) : Effect :=
  match ringPop s.cfg.nRx s.rx with
  | .ok (r, c) => .done ((s.setRx r).respond (byteValue c))
  | .error f => .stop f

/-- `POLL` in its one step (42_write_flush_poll.md R168). -/
def pollBody (s : State) : Effect := (pollOnce s).andThen (State.respond 0)

/-- `AVAILABLE` (41_foreground_queries.md R141; operation 6). -/
def execAvailable (o : Operands) (s : State) : Result := hostIssue 6 o availableBody s

/-- `AVAILABLE_FOR_WRITE` (41_foreground_queries.md R142; operation 4). -/
def execAvailableForWrite (o : Operands) (s : State) : Result := hostIssue 4 o availableForWriteBody s

/-- `PEEK` (41_foreground_queries.md R143; operation 7). -/
def execPeek (o : Operands) (s : State) : Result := hostIssue 7 o peekBody s

/-- `READ` (41_foreground_queries.md R144; operation 8). -/
def execRead (o : Operands) (s : State) : Result := hostIssue 8 o readBody s

/-- `POLL` (42_write_flush_poll.md R168; operation 9). -/
def execPoll (o : Operands) (s : State) : Result := hostIssue 9 o pollBody s

end Sys2Proof.Machine
end

