-- ==== Sys2Proof/Machine/Dispatch.lean ====
section
/-! DEFINITION. One arm per instruction of spec/opcode_table.json. -/

namespace Sys2Proof.Machine

open Sys2Proof

def exec (i : Instr) (s : State) : Host.Outcome State Fault Refusal :=
  match i with
  | .beginCmd o => Sys2Proof.Machine.execBegin o s
  | .endCmd o => Sys2Proof.Machine.execEnd o s
  | .write o => Sys2Proof.Machine.execWrite o s
  | .availableForWrite o => Sys2Proof.Machine.execAvailableForWrite o s
  | .flush o => Sys2Proof.Machine.execFlush o s
  | .available o => Sys2Proof.Machine.execAvailable o s
  | .peek o => Sys2Proof.Machine.execPeek o s
  | .read o => Sys2Proof.Machine.execRead o s
  | .poll o => Sys2Proof.Machine.execPoll o s
  | .rxHandler => Sys2Proof.Machine.execRxHandler s
  | .txHandler => Sys2Proof.Machine.execTxHandler s

end Sys2Proof.Machine
end

