-- ==== Sys2Proof/Machine/Peripheral.lean ====
section
/-! DEFINITION. The steps of the peripheral, the environment behind the Hardware Interface
(45_hardware_interface.md R250 to R253), kept apart so that another peripheral can take their place (R255). -/

namespace Sys2Proof.Machine

open Sys2Proof

/-- The effect of `ENV.TX_LOAD` (45_hardware_interface.md R250). -/
def envTxLoad (s : State) : State := { s with hwShift := s.hwTxdata, hwShiftBusy := true, hwDre := true }

/-- The effect of `ENV.TX_DONE` (45_hardware_interface.md R251). -/
def envTxDone (s : State) : State :=
  { s with txLine := s.txLine ++ [s.hwShift], hwShiftBusy := false, hwTxc := if s.hwDre then true else s.hwTxc }

/-- The effect of `ENV.RX_ARRIVE(b, e)` (45_hardware_interface.md R252). -/
def envRxArrive (b : Byte) (e : Nat) (s : State) : State := { s with hwRxdata := b, hwRxerr := e, hwRxc := true }

/-- The effect of `ENV.RX_FLUSH` (45_hardware_interface.md R253). -/
def envRxFlush (s : State) : State := { s with hwRxc := false }

/-- The effect of `HOST.SET_GIE(v)` (60_exceptions.md R276). -/
def hostSetGie (v : Bool) (s : State) : State := { s with gie := v }

end Sys2Proof.Machine
end

