-- ==== Sys2Proof/Machine/Events.lean ====
section
/-! DEFINITION. The steps of all agents: which one is drawn next, and what it does (00_scope.md R6, R11;
20_memory.md R67). -/

namespace Sys2Proof.Machine

open Sys2Proof

/-- The step drawn next: the first of the schedule, or past its end a free one (notes/assumptions/1.md, 2.md). -/
def nextEvent (s : State) : Event :=
  match s.schedule with
  | [] => Config.freeEvent s.draws
  | e :: _ => e

/-- The state with that draw taken. -/
def takeDraw (s : State) : State :=
  match s.schedule with
  | [] => { s with draws := s.draws + 1 }
  | _ :: rest => { s with schedule := rest }

/-- The effect of an enabled `HOST.ISSUE(c)`: an illegal word is refused by its response (30_encoding.md R98), a
legal one is executed (R91). -/
def issueWord (c : CmdWord) (s : State) : Result :=
  match decodeCmd c with
  | .ok i => exec i s
  | .error _ => .next s.refuseCommand

/-- The effect of an enabled step. -/
def perform (e : Event) (s : State) : Result :=
  match e with
  | .issue c => issueWord c s
  | .setGie v => .next (hostSetGie v s)
  | .fg => fgStep s
  | .intRx => exec .rxHandler s
  | .intTx => exec .txHandler s
  | .txLoad => .next (envTxLoad s)
  | .txDone => .next (envTxDone s)
  | .rxArrive b e => .next (envRxArrive b e s)
  | .rxFlush => .next (envRxFlush s)

/-- "A step whose condition is false cannot be taken" (00_scope.md R11): such a draw changes nothing
(notes/assumptions/3.md). -/
def runEvent (e : Event) (s : State) : Result := if enabled e s then perform e s else .next s

/-- The draw by which a code of the opcode table runs: `HOST.ISSUE` of a command word, or the interrupt a vector
number selects. -/
def eventOfCode : Code → Event
  | .cmd w => .issue w
  | .irq v => if v = 0 then .intRx else .intTx

/-- The state with what a step of `e` needs in order to be enabled, for the instructions of the opcode table: an idle
foreground (30_encoding.md R91), or an enabled and pending request (60_exceptions.md R274, R275). -/
def readyFor (e : Event) (s : State) : State :=
  match e with
  | .issue _ => { s with fgPc := .idle, faulted := none }
  | .intRx => { s with gie := true, rxcIe := true, hwRxc := true, faulted := none }
  | .intTx => { s with gie := true, txeIe := true, hwDre := true, faulted := none }
  | _ => s

end Sys2Proof.Machine
end

