-- ==== Sys2Proof/Machine/Step.lean ====
section
/-! DEFINITION. One step of the machine, and how an instruction is placed where the next step runs it. -/

namespace Sys2Proof.Machine

open Sys2Proof

/-- One atomic step of whichever agent is drawn next (00_scope.md R6). -/
def step (s : State) : Host.Outcome State Fault Refusal := runEvent (nextEvent s) (takeDraw s)

/-- The state whose very next step runs the instruction of a word of the opcode table's numbering: it is drawn first,
and what its enabling condition asks for holds (notes/assumptions/4.md, 13.md). -/
def State.withFetchWord (s : State) (nbits w : Nat) : State :=
  { readyFor (eventOfCode (tableCode nbits w)) s with schedule := eventOfCode (tableCode nbits w) :: s.schedule }

end Sys2Proof.Machine
end

