-- ==== Sys2Proof/Machine/Runs.lean ====
section
/-! DEFINITION. Runs that go on for ever, and the one liveness assumption of the spec: weak fairness of the
peripheral's two transmit steps (00_scope.md R6; 45_hardware_interface.md R257; notes/assumptions/18.md). -/

namespace Sys2Proof.Machine

open Sys2Proof

/-- `ε` and `σ` are a run: the step `ε n` takes the state `σ n` to `σ (n + 1)`. "Any enabled step of any agent may be
the next step" (00_scope.md R6), so nothing restricts `ε`; a step that is not enabled leaves the state as it is
(notes/assumptions/3.md). Here `ε` says which step is drawn, so the model's own fields `schedule` and `draws`, which
say it for `step`, may hold anything. -/
def isRun (ε : Nat → Event) (σ : Nat → State) : Prop :=
  ∀ n, ∃ l d, runEvent (ε n) { σ n with schedule := l, draws := d } = .next (σ (n + 1))

/-- The step `e` is weakly fair in a run: "if one of them stays enabled it is eventually taken"
(45_hardware_interface.md R257). -/
def weaklyFair (e : Event) (ε : Nat → Event) (σ : Nat → State) : Prop :=
  ∀ n, (∀ m, n ≤ m → enabled e (σ m) = true) → ∃ m, n ≤ m ∧ ε m = e

/-- A run the spec admits: `ENV.TX_LOAD` and `ENV.TX_DONE` are weakly fair, and "nothing is assumed of" any other
step (45_hardware_interface.md R257). -/
def fairRun (ε : Nat → Event) (σ : Nat → State) : Prop :=
  isRun ε σ ∧ weaklyFair .txLoad ε σ ∧ weaklyFair .txDone ε σ

end Sys2Proof.Machine
end

