-- ==== Sys2Proof/Safety.lean ====
section
/-! DEFINITION. What counts as a safe run, in the terms claims use: the invariants of every state reachable from
reset (70_reset_and_hazards.md R330 to R333), the transmit and receive pipelines (R334, R336), programs and the end of
a run (R337), what a run shows, and which states no step tells apart (30_encoding.md R99; R333). -/

namespace Sys2Proof.Machine

open Sys2Proof

/-- A ring buffer of capacity `n` in order: canonical memory, cursors in range (R330), and every slot between tail
and head written (R333). -/
abbrev ringWf (n : Nat) (r : Ring) : Prop :=
  memWf n r.mem = true ∧ r.head < n ∧ r.tail < n ∧
    ∀ k, k < ringOccupied n r → (memGet r.mem ((r.tail + k) % n)).isSome = true

/-- The content of a ring buffer, oldest byte first (40_ring_buffer.md R127). -/
def content (n : Nat) (r : Ring) : List Byte :=
  (List.range (ringOccupied n r)).filterMap (fun k => memGet r.mem ((r.tail + k) % n))

/-- Nothing is anywhere in the transmit path and its interrupt is disarmed (70_reset_and_hazards.md R332, R335). -/
abbrev transmitIdle (s : State) : Prop :=
  s.tx.isEmpty = true ∧ s.txeIe = false ∧ s.hwDre = true ∧ s.hwShiftBusy = false

/-- A phase other than `IDLE` belongs to a command that has it (10_state.md R32, column "entered from";
42_write_flush_poll.md R173). -/
def phaseFits (s : State) : Bool :=
  match s.fgPc with
  | .idle => true
  | .wrTry => s.fgOp == 3
  | .wrPoll => s.fgOp == 3
  | .wrRoom => s.fgOp == 3
  | .flGate => s.fgOp == 1 || s.fgOp == 2 || s.fgOp == 5
  | .flTest => s.fgOp == 1 || s.fgOp == 2 || s.fgOp == 5
  | .flPoll => s.fgOp == 1 || s.fgOp == 2 || s.fgOp == 5
  | .endOff => s.fgOp == 1 || s.fgOp == 2
  | .bgGate => s.fgOp == 1
  | .bgCfg => s.fgOp == 1

/-- The invariant of every state reachable from reset. -/
structure Invariant (s : State) : Prop where
  /-- 70_reset_and_hazards.md R330, R333, receive buffer -/
  rxWf : ringWf s.cfg.nRx s.rx
  /-- 70_reset_and_hazards.md R330, R333, transmit buffer -/
  txWf : ringWf s.cfg.nTx s.tx
  /-- 70_reset_and_hazards.md R331 -/
  armed : s.txeIe = !s.tx.isEmpty
  /-- 70_reset_and_hazards.md R332, first sentence -/
  unwritten : s.everWritten = false → transmitIdle s
  /-- 70_reset_and_hazards.md R332, second sentence -/
  complete : s.everWritten = true → s.hwTxc = true → s.hwDre = true ∧ s.hwShiftBusy = false
  /-- its converse: once every byte given has left, completion is reported, because `ENV.TX_DONE` of the last one
  reports it (45_hardware_interface.md R251, R255 c; 70_reset_and_hazards.md R324) -/
  reported : s.everWritten = true → s.hwDre = true → s.hwShiftBusy = false → s.hwTxc = true
  /-- 42_write_flush_poll.md R173 and the phase table of 10_state.md R32 -/
  phase : phaseFits s = true
  /-- `hw_txc` is read only where `everWritten == 1` (70_reset_and_hazards.md R333) -/
  flushing : s.fgPc = .flTest ∨ s.fgPc = .flPoll → s.everWritten = true
  /-- 43_begin_end_baud.md R196: "At this step the transmit buffer is empty and the transmit pipeline is idle" -/
  closing : s.fgPc = .endOff → transmitIdle s
  /-- `BG_CFG` is entered unconfigured (43_begin_end_baud.md R192, R196) -/
  setup : s.fgPc = .bgCfg → s.configured = false
  /-- `BG_CFG` and `END_OFF` write these together (43_begin_end_baud.md R193, R196) -/
  enables : s.rxen = s.configured ∧ s.txen = s.configured ∧ s.rxcIe = s.configured
  /-- `TxUnderflow` is not reachable from reset (60_exceptions.md R285) -/
  noUnderflow : s.faulted ≠ some .txUnderflow

/-- The byte in the shift register, if one is being shifted out (70_reset_and_hazards.md R334). -/
def shifting (s : State) : List Byte := if s.hwShiftBusy then [s.hwShift] else []

/-- The byte in the data register, if it holds one (70_reset_and_hazards.md R334). -/
def waiting (s : State) : List Byte := if s.hwDre then [] else [s.hwTxdata]

/-- The line and everything on its way to it, in order: the right side of the equation of
70_reset_and_hazards.md R334. -/
def transmitStream (s : State) : List Byte := s.txLine ++ shifting s ++ waiting s ++ content s.cfg.nTx s.tx

/-- The received bytes that a `READ` may still return, in order: the buffer's content, then the byte the hardware
holds (70_reset_and_hazards.md R336). -/
def receiveStream (s : State) : List Byte :=
  content s.cfg.nRx s.rx ++ (if s.hwRxc then [s.hwRxdata] else [])

/-- The byte of the `WRITE` that responds in the step from `s` to `t` (70_reset_and_hazards.md R334: `W`). -/
def written (s t : State) : List Byte := if s.fgPc = .wrTry ∧ t.rspLog ≠ s.rspLog then [s.fgData] else []

/-- The byte that the `READ` accepted in the step from `s` to `t` returns, if it returns one
(70_reset_and_hazards.md R336). -/
def returned (s t : State) : List Byte :=
  match nextEvent s with
  | .issue w =>
    if s.canIssue = true ∧ CmdWord.legal w = true ∧ fieldOp w = 8 then
      match t.rspLog.getLast? with
      | some r => if r = 0xFFFF then [] else [r.setWidth 8]
      | none => []
    else []
  | _ => []

/-- The byte of the `ENV.RX_ARRIVE` taken in the step from `s` (70_reset_and_hazards.md R336: `A`). -/
def arrived (s : State) (_ : State) : List Byte :=
  match nextEvent s with
  | .rxArrive b _ => if s.rxen && !s.hwRxc then [b] else []
  | _ => []

/-- What `k` steps from `s` show, gathered step by step with `f`; it ends where the machine stops. -/
def gather {α : Type} (f : State → State → List α) : Nat → State → List α
  | 0, _ => []
  | k + 1, s =>
    match step s with
    | .next t => f s t ++ gather f k t
    | .fault _ => []
    | .refused _ => []

/-- A *program*: "a finite list of command words issued in order through `HOST.ISSUE`" (70_reset_and_hazards.md
R337). -/
abbrev Program := List CmdWord

/-- The command word that is accepted in the step from `s`. A `HOST.ISSUE` drawn while it is not enabled is not taken,
so it issues nothing (30_encoding.md R91; notes/assumptions/3.md, 19.md). -/
def issued (s : State) (_ : State) : List CmdWord :=
  match nextEvent s with
  | .issue w => if s.canIssue then [w] else []
  | _ => []

/-- How many commands have been accepted and have not responded (30_encoding.md R91, R96). -/
def outstanding (s : State) : Nat := if s.fgPc = .idle then 0 else 1

/-- The byte of the `WRITE` in progress, if there is one (42_write_flush_poll.md R160). -/
def writing (s : State) : List Byte :=
  if s.fgPc = .wrTry ∨ s.fgPc = .wrPoll ∨ s.fgPc = .wrRoom then [s.fgData] else []

/-- The bytes that the `WRITE` commands of a program carry, in order (30_encoding.md R92, R93). -/
def bytesToWrite (c : Program) : List Byte :=
  (c.filter fun w => CmdWord.legal w && fieldOp w == 3).map fieldData

/-- `k` steps from `s` are steps of a run of the program `c`: the words accepted so far are the first words of `c`, in
order. That each is accepted "after the previous one has responded" is the enabling condition of `HOST.ISSUE`; the
`HOST.SET_GIE` steps and the arrivals may stand anywhere (70_reset_and_hazards.md R337; notes/assumptions/19.md). -/
def runsProgram (c : Program) (k : Nat) (s : State) : Prop := gather issued k s <+: c

/-- A run of the program `c` is over: every command has responded (the foreground is idle and `rsp_log` has one entry
per command), nothing has faulted, and no interrupt and no transmit step is enabled (70_reset_and_hazards.md R337). -/
abbrev runOver (c : Program) (s : State) : Prop :=
  (s.fgPc = .idle ∧ s.rspLog.length = c.length) ∧ s.faulted = none ∧
    enabled .intRx s = false ∧ enabled .intTx s = false ∧ enabled .txLoad s = false ∧ enabled .txDone s = false

/-- The effect of `TxDrainOne` that sends the byte `c`, written as one record (44_interrupt_handlers.md R224). -/
def drained (c : Byte) (s : State) : State :=
  { s with
    tx := { s.tx with tail := (s.tx.tail + 1) % s.cfg.nTx }
    hwTxdata := c
    hwDre := false
    hwTxc := false
    txeIe := if s.tx.head = (s.tx.tail + 1) % s.cfg.nTx then false else s.txeIe }

/-- The oldest byte of a ring buffer is `c` (40_ring_buffer.md R122, R123). -/
abbrev oldest (n : Nat) (r : Ring) (c : Byte) : Prop :=
  r.head ≠ r.tail ∧ r.tail < n ∧ memGet r.mem r.tail = some c

/-- Two states that agree but for the operand latches that no later rule observes (30_encoding.md R99): `fg_data`
matters to `WRITE`, `fg_baud` and `fg_frame` to `BEGIN`. -/
def sameButUnused (s t : State) : Prop :=
  { s with fgData := t.fgData, fgBaud := t.fgBaud, fgFrame := t.fgFrame } = t ∧
    (s.fgOp = 3 → s.fgData = t.fgData) ∧
    (s.fgOp = 1 → s.fgBaud = t.fgBaud ∧ s.fgFrame = t.fgFrame)

/-- Two command words with the same `op` and `rsv` and the same fields where their operation uses them
(30_encoding.md R92, R99). -/
def sameUsedFields (v w : CmdWord) : Prop :=
  fieldOp v = fieldOp w ∧ fieldRsv v = fieldRsv w ∧
    (fieldOp v = 3 → fieldData v = fieldData w) ∧
    (fieldOp v = 1 → fieldBaud v = fieldBaud w ∧ fieldFrame v = fieldFrame w)

/-- Two states that agree but for registers whose value no rule reads before something writes it
(70_reset_and_hazards.md R333): `hw_txc` before a byte is written, the received data with `hw_rxc == 0`, the data
register with `hw_dre == 1`, the shift register with `hw_shift_busy == 0`, the latches but where the command in
progress reads them, `hw_baud` and `hw_frame`. -/
def sameButUnread (s t : State) : Prop :=
  { s with
    hwTxc := t.hwTxc, hwRxdata := t.hwRxdata, hwRxerr := t.hwRxerr, hwTxdata := t.hwTxdata, hwShift := t.hwShift
    fgData := t.fgData, fgBaud := t.fgBaud, fgFrame := t.fgFrame, hwBaud := t.hwBaud, hwFrame := t.hwFrame } = t ∧
    (s.everWritten = true → s.hwTxc = t.hwTxc) ∧
    (s.hwRxc = true → s.hwRxdata = t.hwRxdata ∧ s.hwRxerr = t.hwRxerr) ∧
    (s.hwDre = false → s.hwTxdata = t.hwTxdata) ∧
    (s.hwShiftBusy = true → s.hwShift = t.hwShift) ∧
    (s.fgPc ≠ .idle → s.fgOp = 3 → s.fgData = t.fgData) ∧
    (s.fgPc ≠ .idle → s.fgOp = 1 → s.fgBaud = t.fgBaud ∧ s.fgFrame = t.fgFrame)

/-- Two answers of the same kind whose next states are related by `r`. -/
def answersAgree (r : State → State → Prop) : Result → Result → Prop
  | .next s, .next t => r s t
  | .fault f, .fault g => f = g
  | .refused f, .refused g => f = g
  | _, _ => False

end Sys2Proof.Machine
end

