-- ==== Sys2Proof/Certificates/Slice0/Obligations.lean ====
section
/-! DEFINITION. The statements for the provers. -/

open Sys2Proof Sys2Proof.Machine

/-! ### Encoding -/

/-- Decoding the code of an instruction gives it back, every operand at every value (30_encoding.md R92, R93, R102). -/
def Obligations.DecodeOfEncodeIsIdentity : Prop := ∀ i : Instr, decode (encode i) = .ok i

/-- A code that decodes is the code of its instruction: no bit of a legal word is dropped (R92, R93, R102). -/
def Obligations.EncodeOfDecodeIsIdentity : Prop := ∀ (c : Code) (i : Instr), decode c = .ok i → encode i = c

/-- 30_encoding.md R98: a word is refused exactly when `op` is 0 or 10..15 or `rsv` is not 0; the refusal appends
`0x00010000` to `rsp_log`, changes nothing else, and the next command is accepted. That the word offered next is the
first of `schedule`, which the step uses up, is the model's own (notes/assumptions/1.md). -/
def Obligations.IllegalCommandIsRefusedByAResponse : Prop :=
  (∀ w : CmdWord, (∃ x, decodeCmd w = .error x) ↔
    (w.toNat % 16 = 0 ∨ 10 ≤ w.toNat % 16 ∨ w.toNat / 16 % 16 ≠ 0)) ∧
  ∀ (s : State) (w : CmdWord) (rest : List Event), s.schedule = .issue w :: rest → s.fgPc = .idle →
    s.faulted = none → CmdWord.legal w = false →
    step s = .next { s with schedule := rest, rspLog := s.rspLog ++ [0x00010000#32] } ∧
      State.canIssue { s with schedule := rest, rspLog := s.rspLog ++ [0x00010000#32] } = true

/-- Words written out from the encoding (30_encoding.md R92, R93, R102; 95_test_vectors.md V90 to V97). -/
def Obligations.WordsOfTheManualDecode : Prop :=
  decodeCmd 0x0000258000030001 = .ok (.beginCmd ⟨0, 0x0003, 9600⟩) ∧
  decodeCmd 0x2 = .ok (.endCmd ⟨0, 0, 0⟩) ∧
  decodeCmd 0x4103 = .ok (.write ⟨0x41, 0, 0⟩) ∧
  decodeCmd 0xFFFFFFFFFFFFFF03 = .ok (.write ⟨0xFF, 0xFFFF, 0xFFFFFFFF⟩) ∧
  decodeCmd 0x123456789ABCDE08 = .ok (.read ⟨0xDE, 0x9ABC, 0x12345678⟩) ∧
  decodeCmd 0x9 = .ok (.poll ⟨0, 0, 0⟩) ∧
  decodeCmd 0x13 = .error (.reservedBits 1) ∧
  decodeCmd 0xA = .error (.illegalOp 10) ∧
  decode (.irq 0) = .ok .rxHandler ∧ decode (.irq 1) = .ok .txHandler

/-- 30_encoding.md R99: the fields an operation does not use are ignored. States that differ only in latches no later
rule observes, and words that differ only in fields their operation does not use, are told apart by no step. The
premise `phaseFits` is the clause `phase` of the invariant. -/
def Obligations.UnusedFieldsAreIgnored : Prop :=
  (∀ (s t : State) (e : Event), sameButUnused s t → phaseFits s = true →
    answersAgree sameButUnused (runEvent e s) (runEvent e t)) ∧
  ∀ (s t : State) (v w : CmdWord), sameButUnused s t → phaseFits s = true → sameUsedFields v w →
    answersAgree sameButUnused (runEvent (.issue v) s) (runEvent (.issue w) t)

/-! ### The step -/

/-- The step that is drawn runs the meaning of its instruction, with the draw taken: `HOST.ISSUE` the decoded command
(30_encoding.md R91), a foreground step the command in progress (10_state.md R32, R33), an interrupt its handler
(60_exceptions.md R274, R275). -/
def Obligations.StepRunsTheDrawnInstruction : Prop :=
  (∀ (s : State) (w : CmdWord) (i : Instr) (rest : List Event), s.schedule = .issue w :: rest →
    s.canIssue = true → decodeCmd w = .ok i → step s = exec i { s with schedule := rest }) ∧
  (∀ (s : State) (i : Instr) (rest : List Event), s.schedule = .fg :: rest → s.faulted = none →
    s.inFlight = some i → step s = exec i { s with schedule := rest }) ∧
  (∀ (s : State) (rest : List Event), s.schedule = .intRx :: rest →
    step s = exec .rxHandler { s with schedule := rest }) ∧
  (∀ (s : State) (rest : List Event), s.schedule = .intTx :: rest →
    step s = exec .txHandler { s with schedule := rest })

/-- What `withFetchWord` places is what the next step runs (the model's own, notes/assumptions/4.md and 13.md). -/
def Obligations.PlacedWordRunsNext : Prop :=
  ∀ (s : State) (nbits w : Nat) (i : Instr), decodeTableWord nbits w = some i →
    step (s.withFetchWord nbits w) = exec i (readyFor (eventOfCode (tableCode nbits w)) s) ∧
    enabled (eventOfCode (tableCode nbits w)) (readyFor (eventOfCode (tableCode nbits w)) s) = true

/-- 00_scope.md R11: "A step whose condition is false cannot be taken". So an interrupt that is masked, not requested
or behind a fault is not taken (60_exceptions.md R274, R275, R276), and a command offered while another is in
progress, or after a fault, is not accepted (30_encoding.md R91, 93_implementation_defined.md U7). That a draw of such
a step is used up and nothing else happens, and that `exec` then answers the same state, is the model's own
(notes/assumptions/3.md, 12.md). -/
def Obligations.NotEnabledInstructionsChangeNothing : Prop :=
  (∀ (s : State) (e : Event) (rest : List Event), s.schedule = e :: rest → enabled e s = false →
    step s = .next { s with schedule := rest }) ∧
  ∀ (s : State) (o : Operands),
    (¬(s.gie = true ∧ s.rxcIe = true ∧ s.hwRxc = true ∧ s.faulted = none) → exec .rxHandler s = .next s) ∧
    (¬(s.gie = true ∧ s.txeIe = true ∧ s.hwDre = true ∧ s.faulted = none) → exec .txHandler s = .next s) ∧
    (¬(s.fgPc = .idle ∧ s.faulted = none) →
      exec (.available o) s = .next s ∧ exec (.availableForWrite o) s = .next s ∧ exec (.peek o) s = .next s ∧
      exec (.read o) s = .next s ∧ exec (.poll o) s = .next s) ∧
    (s.faulted ≠ none →
      exec (.beginCmd o) s = .next s ∧ exec (.endCmd o) s = .next s ∧ exec (.write o) s = .next s ∧
      exec (.flush o) s = .next s) ∧
    (s.fgPc ≠ .idle →
      (s.fgOp ≠ 1 → exec (.beginCmd o) s = .next s) ∧ (s.fgOp ≠ 2 → exec (.endCmd o) s = .next s) ∧
      (s.fgOp ≠ 3 → exec (.write o) s = .next s) ∧ (s.fgOp ≠ 5 → exec (.flush o) s = .next s))

/-! ### The ring buffer -/

/-- 40_ring_buffer.md R121, R122, R123; that a slot nothing has written stops the pop and the peek is the model's own
(notes/assumptions/8.md). -/
def Obligations.RingPrimitivesDoTheirEffect : Prop :=
  (∀ (n : Nat) (b : Byte) (r : Ring), r.head < n →
    ((r.head + 1) % n = r.tail → ringPush n b r = .ok (r, false)) ∧
    ((r.head + 1) % n ≠ r.tail →
      ∃ q, ringPush n b r = .ok (q, true) ∧ q.head = (r.head + 1) % n ∧ q.tail = r.tail ∧
        memGet q.mem r.head = some b ∧ ∀ j, j ≠ r.head → memGet q.mem j = memGet r.mem j)) ∧
  ∀ (n : Nat) (r : Ring),
    (r.head = r.tail → ringPop n r = .ok (r, none) ∧ ringPeek n r = .ok none) ∧
    (∀ c, oldest n r c →
      ringPop n r = .ok ({ r with tail := (r.tail + 1) % n }, some c) ∧ ringPeek n r = .ok (some c)) ∧
    (r.head ≠ r.tail → r.tail < n → memGet r.mem r.tail = none →
      ringPop n r = .error (.unwrittenSlot r.tail) ∧ ringPeek n r = .error (.unwrittenSlot r.tail))

/-- 40_ring_buffer.md R124, R125, R126. -/
def Obligations.RingCountsAgree : Prop :=
  ∀ (n : Nat) (r : Ring), 2 ≤ n → r.head < n → r.tail < n →
    ringOccupied n r = (n + r.head - r.tail) % n ∧ ringFree n r = n - 1 - ringOccupied n r ∧
    ringOccupied n r + ringFree n r = n - 1 ∧
    (r.head = r.tail ↔ ringOccupied n r = 0) ∧
    ((r.head + 1) % n = r.tail ↔ ringFree n r = 0) ∧
    (∀ b q, ringPush n b r = .ok (q, true) → ringOccupied n q = ringOccupied n r + 1) ∧
    (∀ q c, ringPop n r = .ok (q, some c) → ringOccupied n q + 1 = ringOccupied n r)

/-- 40_ring_buffer.md R127, the first-in first-out law. -/
def Obligations.RingIsFirstInFirstOut : Prop :=
  ∀ (n : Nat) (r : Ring), 2 ≤ n → ringWf n r →
    (content n r).length = ringOccupied n r ∧ ringOccupied n r + ringFree n r = n - 1 ∧
    (∀ b q, ringPush n b r = .ok (q, true) → ringWf n q ∧ content n q = content n r ++ [b]) ∧
    (∀ b q, ringPush n b r = .ok (q, false) → content n q = content n r) ∧
    (∀ q c, ringPop n r = .ok (q, some c) → ringWf n q ∧ content n r = c :: content n q) ∧
    (∀ q, ringPop n r = .ok (q, none) → content n q = content n r) ∧
    (∀ c, ringPeek n r = .ok c → (content n r).head? = c)

/-- Buffer memories in canonical form that read alike are the same data (the model's form, notes/assumptions/8.md). -/
def Obligations.EqualMemoriesAreEqualData : Prop :=
  ∀ (n : Nat) (m k : Memory), memWf n m = true → memWf n k = true → (∀ i, memGet m i = memGet k i) → m = k

/-! ### The single-step commands -/

/-- 41_foreground_queries.md R141; the whole effect, so everything else is unchanged. -/
def Obligations.AvailableAnswersOccupied : Prop :=
  ∀ (s : State) (o : Operands), s.fgPc = .idle → s.faulted = none →
    exec (.available o) s = .next { s with
      fgOp := 6, fgData := o.data, fgBaud := o.baud, fgFrame := o.frame
      rspLog := s.rspLog ++ [BitVec.ofNat 32 ((s.cfg.nRx + s.rx.head - s.rx.tail) % s.cfg.nRx)] }

/-- 41_foreground_queries.md R142; the whole effect. -/
def Obligations.AvailableForWriteAnswersFree : Prop :=
  ∀ (s : State) (o : Operands), s.fgPc = .idle → s.faulted = none →
    exec (.availableForWrite o) s = .next { s with
      fgOp := 4, fgData := o.data, fgBaud := o.baud, fgFrame := o.frame
      rspLog := s.rspLog ++
        [BitVec.ofNat 32 (s.cfg.nTx - 1 - (s.cfg.nTx + s.tx.head - s.tx.tail) % s.cfg.nTx)] }

/-- 41_foreground_queries.md R143; the whole effect. -/
def Obligations.PeekAnswersTheOldestByte : Prop :=
  ∀ (s : State) (o : Operands), s.fgPc = .idle → s.faulted = none →
    (s.rx.head = s.rx.tail → exec (.peek o) s = .next { s with
      fgOp := 7, fgData := o.data, fgBaud := o.baud, fgFrame := o.frame
      rspLog := s.rspLog ++ [0x0000FFFF#32] }) ∧
    (∀ c, oldest s.cfg.nRx s.rx c → exec (.peek o) s = .next { s with
      fgOp := 7, fgData := o.data, fgBaud := o.baud, fgFrame := o.frame
      rspLog := s.rspLog ++ [c.setWidth 32] })

/-- 41_foreground_queries.md R144; the whole effect. -/
def Obligations.ReadTakesTheOldestByte : Prop :=
  ∀ (s : State) (o : Operands), s.fgPc = .idle → s.faulted = none →
    (s.rx.head = s.rx.tail → exec (.read o) s = .next { s with
      fgOp := 8, fgData := o.data, fgBaud := o.baud, fgFrame := o.frame
      rspLog := s.rspLog ++ [0x0000FFFF#32] }) ∧
    (∀ c, oldest s.cfg.nRx s.rx c → exec (.read o) s = .next { s with
      fgOp := 8, fgData := o.data, fgBaud := o.baud, fgFrame := o.frame
      rx := { s.rx with tail := (s.rx.tail + 1) % s.cfg.nRx }
      rspLog := s.rspLog ++ [c.setWidth 32] })

/-- 42_write_flush_poll.md R167, R168; `drained` is the effect of `TxDrainOne` (44_interrupt_handlers.md R224). That a
`POLL` which raises `TxUnderflow` leaves the latches unwritten, although R91 latches in the same step, is the model's
reading of "no other state changes in that step" (60_exceptions.md R285; notes/assumptions/10.md). -/
def Obligations.PollDrainsAtMostOneByte : Prop :=
  ∀ (s : State) (o : Operands), s.fgPc = .idle → s.faulted = none →
    (¬(s.txeIe = true ∧ s.hwDre = true) → exec (.poll o) s = .next { s with
      fgOp := 9, fgData := o.data, fgBaud := o.baud, fgFrame := o.frame
      rspLog := s.rspLog ++ [0#32] }) ∧
    (∀ c, s.txeIe = true → s.hwDre = true → oldest s.cfg.nTx s.tx c →
      exec (.poll o) s = .next { drained c s with
        fgOp := 9, fgData := o.data, fgBaud := o.baud, fgFrame := o.frame
        rspLog := s.rspLog ++ [0#32] }) ∧
    (s.txeIe = true → s.hwDre = true → s.tx.head = s.tx.tail →
      exec (.poll o) s = .next { s with faulted := some .txUnderflow })

/-! ### The multi-step commands -/

/-- 30_encoding.md R91: the four multi-step commands latch their fields and enter their first phase. -/
def Obligations.MultiStepCommandsAreAccepted : Prop :=
  ∀ (s : State) (o : Operands), s.fgPc = .idle → s.faulted = none →
    exec (.beginCmd o) s = .next { s with
      fgOp := 1, fgData := o.data, fgBaud := o.baud, fgFrame := o.frame, fgPc := .bgGate } ∧
    exec (.endCmd o) s = .next { s with
      fgOp := 2, fgData := o.data, fgBaud := o.baud, fgFrame := o.frame, fgPc := .flGate } ∧
    exec (.write o) s = .next { s with
      fgOp := 3, fgData := o.data, fgBaud := o.baud, fgFrame := o.frame, fgPc := .wrTry } ∧
    exec (.flush o) s = .next { s with
      fgOp := 5, fgData := o.data, fgBaud := o.baud, fgFrame := o.frame, fgPc := .flGate }

/-- 42_write_flush_poll.md R162: fast path, slow path, exhausted path, each the whole effect. The premise on the head
is the cursor range (70_reset_and_hazards.md R330). -/
def Obligations.WriteAttemptTakesItsPath : Prop :=
  ∀ s : State, s.fgPc = .wrTry → s.fgOp = 3 → s.faulted = none →
    (s.txeIe = false → s.hwDre = true → exec (.write s.operands) s = .next { s with
      hwTxdata := s.fgData, hwDre := false, hwTxc := false, everWritten := true
      rspLog := s.rspLog ++ [1#32], fgPc := .idle }) ∧
    (¬(s.txeIe = false ∧ s.hwDre = true) → (s.tx.head + 1) % s.cfg.nTx ≠ s.tx.tail → s.tx.head < s.cfg.nTx →
      exec (.write s.operands) s = .next { s with
        tx := { s.tx with mem := memSet s.tx.mem s.tx.head s.fgData, head := (s.tx.head + 1) % s.cfg.nTx }
        txeIe := true, everWritten := true, rspLog := s.rspLog ++ [1#32], fgPc := .idle }) ∧
    (¬(s.txeIe = false ∧ s.hwDre = true) → (s.tx.head + 1) % s.cfg.nTx = s.tx.tail →
      exec (.write s.operands) s = .next { s with fgPc := .wrPoll })

/-- 42_write_flush_poll.md R164, R165, R167: the exhausted path polls, then tests for room. That a poll which raises
`TxUnderflow` (44_interrupt_handlers.md R226) leaves `fg_pc` at `WR_POLL` is the model's reading of "no other state
changes in that step" (60_exceptions.md R285; notes/assumptions/10.md). -/
def Obligations.WritePollsThenTestsForRoom : Prop :=
  ∀ s : State, s.fgOp = 3 → s.faulted = none →
    (s.fgPc = .wrPoll → ¬(s.txeIe = true ∧ s.hwDre = true) →
      exec (.write s.operands) s = .next { s with fgPc := .wrRoom }) ∧
    (∀ c, s.fgPc = .wrPoll → s.txeIe = true → s.hwDre = true → oldest s.cfg.nTx s.tx c →
      exec (.write s.operands) s = .next { drained c s with fgPc := .wrRoom }) ∧
    (s.fgPc = .wrPoll → s.txeIe = true → s.hwDre = true → s.tx.head = s.tx.tail →
      exec (.write s.operands) s = .next { s with faulted := some .txUnderflow }) ∧
    (s.fgPc = .wrRoom → exec (.write s.operands) s = .next { s with
      fgPc := if (s.tx.head + 1) % s.cfg.nTx = s.tx.tail then .wrPoll else .wrTry })

/-- 42_write_flush_poll.md R170, R173: the gate of `FLUSH`, of `END` and of the implicit `END` of `BEGIN`. -/
def Obligations.FlushGateTestsEverWritten : Prop :=
  ∀ s : State, s.fgPc = .flGate → s.faulted = none →
    (s.fgOp = 5 → s.everWritten = false → exec (.flush s.operands) s = .next { s with
      rspLog := s.rspLog ++ [0#32], fgPc := .idle }) ∧
    (s.fgOp = 5 → s.everWritten = true → exec (.flush s.operands) s = .next { s with fgPc := .flTest }) ∧
    (s.fgOp = 2 → exec (.endCmd s.operands) s = .next { s with
      fgPc := if s.everWritten then .flTest else .endOff }) ∧
    (s.fgOp = 1 → exec (.beginCmd s.operands) s = .next { s with
      fgPc := if s.everWritten then .flTest else .endOff })

/-- 42_write_flush_poll.md R171, R173: the flush steps end when the interrupt is disarmed and completion is
reported. -/
def Obligations.FlushTestWaitsForCompletion : Prop :=
  ∀ s : State, s.fgPc = .flTest → s.faulted = none →
    (s.fgOp = 5 → s.txeIe = false → s.hwTxc = true → exec (.flush s.operands) s = .next { s with
      rspLog := s.rspLog ++ [0#32], fgPc := .idle }) ∧
    (s.fgOp = 5 → s.txeIe = true ∨ s.hwTxc = false →
      exec (.flush s.operands) s = .next { s with fgPc := .flPoll }) ∧
    (s.fgOp = 2 → exec (.endCmd s.operands) s = .next { s with
      fgPc := if s.txeIe = true ∨ s.hwTxc = false then .flPoll else .endOff }) ∧
    (s.fgOp = 1 → exec (.beginCmd s.operands) s = .next { s with
      fgPc := if s.txeIe = true ∨ s.hwTxc = false then .flPoll else .endOff })

/-- 42_write_flush_poll.md R172, R167: one poll per spin iteration, whoever runs the flush steps. That a poll which
raises `TxUnderflow` (44_interrupt_handlers.md R226) leaves `fg_pc` at `FL_POLL` is the model's reading of "no other
state changes in that step" (60_exceptions.md R285; notes/assumptions/10.md). -/
def Obligations.FlushPollsOncePerIteration : Prop :=
  ∀ (s : State) (i : Instr), s.fgPc = .flPoll → s.faulted = none → s.inFlight = some i →
    (¬(s.txeIe = true ∧ s.hwDre = true) → exec i s = .next { s with fgPc := .flTest }) ∧
    (∀ c, s.txeIe = true → s.hwDre = true → oldest s.cfg.nTx s.tx c →
      exec i s = .next { drained c s with fgPc := .flTest }) ∧
    (s.txeIe = true → s.hwDre = true → s.tx.head = s.tx.tail →
      exec i s = .next { s with faulted := some .txUnderflow })

/-- 43_begin_end_baud.md R196: everything is disabled, unread receive data is discarded; `END` responds, `BEGIN` goes
on. -/
def Obligations.EndDisablesAndDiscards : Prop :=
  ∀ s : State, s.fgPc = .endOff → s.faulted = none →
    (s.fgOp = 2 → exec (.endCmd s.operands) s = .next { s with
      rxen := false, txen := false, rxcIe := false, txeIe := false
      rx := { s.rx with tail := s.rx.head }, configured := false, everWritten := false
      rspLog := s.rspLog ++ [0#32], fgPc := .idle }) ∧
    (s.fgOp = 1 → exec (.beginCmd s.operands) s = .next { s with
      rxen := false, txen := false, rxcIe := false, txeIe := false
      rx := { s.rx with tail := s.rx.head }, configured := false, everWritten := false, fgPc := .bgCfg })

/-- 43_begin_end_baud.md R192. -/
def Obligations.BeginEndsFirstWhenConfigured : Prop :=
  ∀ s : State, s.fgPc = .bgGate → s.fgOp = 1 → s.faulted = none →
    exec (.beginCmd s.operands) s = .next { s with fgPc := if s.configured then .flGate else .bgCfg }

/-- 43_begin_end_baud.md R193, R198, R201, 60_exceptions.md R285: the atomic setup, each case the whole effect. -/
def Obligations.BeginConfiguresOrFaults : Prop :=
  ∀ s : State, s.fgPc = .bgCfg → s.fgOp = 1 → s.faulted = none →
    (s.fgBaud ≠ 0 → exec (.beginCmd s.operands) s = .next { s with
      pinCfg := true
      hwBaud := (((8 * s.cfg.clkHz / s.fgBaud.toNat + 1) / 2 : Nat) : Int) +
        ((((8 * s.cfg.clkHz / s.fgBaud.toNat + 1) / 2 : Nat) : Int) * s.cfg.baudCorr).tdiv 1024
      hwFrame := s.fgFrame, rxen := true, txen := true, rxcIe := true, configured := true
      rspLog := s.rspLog ++ [0#32], fgPc := .idle }) ∧
    (s.fgBaud = 0 → exec (.beginCmd s.operands) s = .next { s with faulted := some .baudZero })

/-! ### The baud setting -/

/-- 43_begin_end_baud.md R199: the all-integer form is `round half up` of `4 * CLK_HZ / rate`. -/
def Obligations.BaudRoundsHalfUp : Prop :=
  ∀ clk rate : Nat, 0 < rate → (baudRounded clk rate : Int) = ⌊(4 * clk : ℚ) / rate + 1 / 2⌋

/-- 43_begin_end_baud.md R200: the correction is the quotient truncated toward zero. -/
def Obligations.BaudCorrectionTruncatesTowardZero : Prop :=
  ∀ (clk rate : Nat) (corr : Int), 0 < rate →
    ∃ q : Int, baudSetting clk corr rate = baudRounded clk rate + q ∧
      q.natAbs * 1024 ≤ (baudRounded clk rate * corr).natAbs ∧
      (baudRounded clk rate * corr).natAbs < (q.natAbs + 1) * 1024 ∧
      0 ≤ q * (baudRounded clk rate * corr)

/-! ### The handlers -/

/-- 44_interrupt_handlers.md R221, R222: the byte is stored, or dropped when the buffer is full; each the whole
effect, so the error flags change nothing (R223). The premise on the head is the cursor range (R330). -/
def Obligations.ReceiveHandlerStoresOrDrops : Prop :=
  ∀ s : State, s.gie = true → s.rxcIe = true → s.hwRxc = true → s.faulted = none →
    ((s.rx.head + 1) % s.cfg.nRx ≠ s.rx.tail → s.rx.head < s.cfg.nRx →
      exec .rxHandler s = .next { s with
        hwRxc := false
        rx := { s.rx with mem := memSet s.rx.mem s.rx.head s.hwRxdata, head := (s.rx.head + 1) % s.cfg.nRx } }) ∧
    ((s.rx.head + 1) % s.cfg.nRx = s.rx.tail → exec .rxHandler s = .next { s with hwRxc := false })

/-- 44_interrupt_handlers.md R224, R225, R226: the whole effect. -/
def Obligations.TransmitHandlerDrainsOneByte : Prop :=
  ∀ s : State, s.gie = true → s.txeIe = true → s.hwDre = true → s.faulted = none →
    (∀ c, oldest s.cfg.nTx s.tx c → exec .txHandler s = .next { s with
      tx := { s.tx with tail := (s.tx.tail + 1) % s.cfg.nTx }
      hwTxdata := c, hwDre := false, hwTxc := false
      txeIe := !(s.tx.head == (s.tx.tail + 1) % s.cfg.nTx) }) ∧
    (s.tx.head = s.tx.tail → exec .txHandler s = .next { s with faulted := some .txUnderflow })

/-- 60_exceptions.md R278: with both requests pending, both orders lead to the same state. -/
def Obligations.HandlersCommute : Prop :=
  ∀ s : State, Invariant s → s.rxTakeable = true → s.txTakeable = true →
    ∃ a b c, exec .rxHandler s = .next a ∧ exec .txHandler a = .next b ∧
      exec .txHandler s = .next c ∧ exec .rxHandler c = .next b

/-- 60_exceptions.md R279, R280, 44_interrupt_handlers.md R220: an interrupt leaves the foreground as it found it. -/
def Obligations.InterruptLeavesTheForeground : Prop :=
  ∀ s t : State, step s = .next t → nextEvent s = .intRx ∨ nextEvent s = .intTx →
    t.fgPc = s.fgPc ∧ t.fgOp = s.fgOp ∧ t.fgData = s.fgData ∧ t.fgBaud = s.fgBaud ∧ t.fgFrame = s.fgFrame ∧
      t.everWritten = s.everWritten ∧ t.configured = s.configured ∧ t.gie = s.gie ∧ t.rspLog = s.rspLog

/-! ### The peripheral -/

/-- 45_hardware_interface.md R250 to R253: enabling condition and whole effect of each step. -/
def Obligations.PeripheralStepsDoTheirEffect : Prop :=
  ∀ s : State,
    (runEvent .txLoad s = .next (if s.txen = true ∧ s.hwDre = false ∧ s.hwShiftBusy = false then
      { s with hwShift := s.hwTxdata, hwShiftBusy := true, hwDre := true } else s)) ∧
    (runEvent .txDone s = .next (if s.txen = true ∧ s.hwShiftBusy = true then
      { s with txLine := s.txLine ++ [s.hwShift], hwShiftBusy := false, hwTxc := s.hwDre || s.hwTxc } else s)) ∧
    (∀ b e, runEvent (.rxArrive b e) s = .next (if s.rxen = true ∧ s.hwRxc = false then
      { s with hwRxdata := b, hwRxerr := e, hwRxc := true } else s)) ∧
    (runEvent .rxFlush s = .next (if s.rxen = false ∧ s.hwRxc = true then { s with hwRxc := false } else s))

/-- 45_hardware_interface.md R254: with `txen == 0` nothing leaves and no status bit of the transmit side rises; with
`rxen == 0` no byte arrives. -/
def Obligations.DisabledDirectionDoesNothing : Prop :=
  ∀ s t : State, step s = .next t →
    (s.txen = false → t.txLine = s.txLine ∧ t.hwShift = s.hwShift ∧ t.hwShiftBusy = s.hwShiftBusy ∧
      (t.hwDre = true → s.hwDre = true) ∧ (t.hwTxc = true → s.hwTxc = true)) ∧
    (s.rxen = false → t.hwRxdata = s.hwRxdata ∧ t.hwRxerr = s.hwRxerr ∧ (t.hwRxc = true → s.hwRxc = true))

/-- 45_hardware_interface.md R255, the parts about one step, and 70_reset_and_hazards.md R324: what raises and what
lowers each status bit, that completion is cleared exactly with a byte handed to the hardware, that received data comes
from an arrival and is stable while it is pending, and that the peripheral writes none of the block's own state. The
two parts that say "eventually" are `FairTransmitterSendsAndReports`. -/
def Obligations.PeripheralKeepsItsContract : Prop :=
  ∀ s t : State, step s = .next t →
    (s.hwDre = false → t.hwDre = true → nextEvent s = .txLoad ∧ s.txen = true) ∧
    (s.hwTxc = false → t.hwTxc = true → nextEvent s = .txDone ∧ s.hwDre = true ∧ t.hwShiftBusy = false) ∧
    (s.hwDre = true → t.hwDre = false → t.hwTxc = false ∧
      (nextEvent s = .intTx ∨ nextEvent s = .fg ∨ ∃ w, nextEvent s = .issue w)) ∧
    (s.hwTxc = true → t.hwTxc = false → t.hwDre = false ∧
      (nextEvent s = .intTx ∨ nextEvent s = .fg ∨ ∃ w, nextEvent s = .issue w)) ∧
    (s.hwRxc = false → t.hwRxc = true →
      s.rxen = true ∧ ∃ b e, nextEvent s = .rxArrive b e ∧ t.hwRxdata = b ∧ t.hwRxerr = e) ∧
    (s.hwRxc = true → t.hwRxc = false → nextEvent s = .intRx ∨ (nextEvent s = .rxFlush ∧ s.rxen = false)) ∧
    (s.hwRxc = true → t.hwRxdata = s.hwRxdata ∧ t.hwRxerr = s.hwRxerr) ∧
    (nextEvent s = .txLoad ∨ nextEvent s = .txDone ∨ nextEvent s = .rxFlush ∨
        (∃ b e, nextEvent s = .rxArrive b e) →
      t = { takeDraw s with
        hwDre := t.hwDre, hwTxc := t.hwTxc, hwRxc := t.hwRxc, hwRxdata := t.hwRxdata, hwRxerr := t.hwRxerr
        hwShiftBusy := t.hwShiftBusy, hwShift := t.hwShift, txLine := t.txLine })

/-- 45_hardware_interface.md R257 with R255: in a run in which `ENV.TX_LOAD` and `ENV.TX_DONE` are weakly fair, a
transmitter that stays enabled (a) becomes ready again, (b) puts what it holds on the line, in order and with nothing
between, and (c) reports completion once no further byte is handed over. -/
def Obligations.FairTransmitterSendsAndReports : Prop :=
  ∀ (ε : Nat → Event) (σ : Nat → State) (n : Nat), fairRun ε σ → (∀ m, n ≤ m → (σ m).txen = true) →
    (∃ m, n ≤ m ∧ (σ m).hwDre = true) ∧
    (∃ m, n ≤ m ∧ (σ m).txLine = (σ n).txLine ++ shifting (σ n) ++ waiting (σ n)) ∧
    ((σ n).hwDre = false ∨ (σ n).hwShiftBusy = true →
      (∀ m, n ≤ m → (σ m).hwDre = true → (σ (m + 1)).hwDre = true) →
      ∃ m, n ≤ m ∧ (σ m).hwTxc = true ∧ (σ m).hwDre = true ∧ (σ m).hwShiftBusy = false)

/-- 70_reset_and_hazards.md R322, 45_hardware_interface.md R257: the loops of the blocking commands end if the
peripheral keeps taking bytes. With the transmitter enabled, in a run in which its two steps are weakly fair and the
foreground is not left waiting for ever, the flush steps of `FLUSH`, `END` and `BEGIN` end, and so does a `WRITE` that
waits for room; whether interrupts run does not matter. That the foreground's step is weakly fair is a premise of this
statement, not an assumption of the spec. -/
def Obligations.FairRunEndsBlockingCommands : Prop :=
  ∀ (ε : Nat → Event) (σ : Nat → State) (n : Nat), fairRun ε σ → weaklyFair .fg ε σ → Invariant (σ n) →
    (σ n).txen = true → (σ n).faulted = none →
    ((σ n).fgPc = .flGate ∨ (σ n).fgPc = .flTest ∨ (σ n).fgPc = .flPoll →
      ∃ m, n ≤ m ∧ ((σ m).fgPc = .idle ∨ (σ m).fgPc = .endOff)) ∧
    ((σ n).fgPc = .wrTry ∨ (σ n).fgPc = .wrPoll ∨ (σ n).fgPc = .wrRoom → ∃ m, n ≤ m ∧ (σ m).fgPc = .idle)

/-! ### Rules of the whole machine -/

/-- 10_state.md R24: each cursor is written by the steps of its owner alone. -/
def Obligations.EachCursorHasOneWriter : Prop :=
  ∀ s t : State, step s = .next t →
    (t.rx.head ≠ s.rx.head → nextEvent s = .intRx) ∧
    (t.rx.tail ≠ s.rx.tail → (nextEvent s = .fg ∧ s.fgPc = .endOff) ∨
      ∃ w o, nextEvent s = .issue w ∧ decodeCmd w = .ok (.read o)) ∧
    (t.tx.head ≠ s.tx.head → nextEvent s = .fg ∧ s.fgPc = .wrTry) ∧
    (t.tx.tail ≠ s.tx.tail → nextEvent s = .intTx ∨
      (nextEvent s = .fg ∧ (s.fgPc = .wrPoll ∨ s.fgPc = .flPoll)) ∨
      ∃ w o, nextEvent s = .issue w ∧ decodeCmd w = .ok (.poll o))

/-- 10_state.md R21, R22: a slot changes only where its producer's head stood, by the receive handler and by the slow
path of `WRITE`. Every other byte of both memories reads as before. -/
def Obligations.OnlyTheHeadSlotIsStored : Prop :=
  ∀ s t : State, step s = .next t → ∀ a : Nat,
    (memGet t.rx.mem a ≠ memGet s.rx.mem a → nextEvent s = .intRx ∧ a = s.rx.head) ∧
    (memGet t.tx.mem a ≠ memGet s.tx.mem a → nextEvent s = .fg ∧ s.fgPc = .wrTry ∧ a = s.tx.head)

/-- 10_state.md R36: who sets and who clears each control bit. -/
def Obligations.ControlBitsHaveTheirWriters : Prop :=
  ∀ s t : State, step s = .next t →
    ((s.rxen = false ∧ t.rxen = true) ∨ (s.txen = false ∧ t.txen = true) ∨ (s.rxcIe = false ∧ t.rxcIe = true) →
      nextEvent s = .fg ∧ s.fgPc = .bgCfg) ∧
    ((s.rxen = true ∧ t.rxen = false) ∨ (s.txen = true ∧ t.txen = false) ∨ (s.rxcIe = true ∧ t.rxcIe = false) →
      nextEvent s = .fg ∧ s.fgPc = .endOff) ∧
    (s.txeIe = false → t.txeIe = true → nextEvent s = .fg ∧ s.fgPc = .wrTry) ∧
    (s.txeIe = true → t.txeIe = false → (nextEvent s = .fg ∧ s.fgPc = .endOff) ∨
      (t.tx.head = t.tx.tail ∧ t.tx.tail = (s.tx.tail + 1) % s.cfg.nTx))

/-- 60_exceptions.md R276, 10_state.md R49, R52: `HOST.SET_GIE(v)` sets `gie` while the foreground is idle and changes
nothing else, and no other step changes `gie`; no step changes a parameter. That `HOST.SET_GIE` drawn while the
foreground is busy changes nothing is the model's own (notes/assumptions/3.md). -/
def Obligations.SetGieSetsGieAndNothingElseDoes : Prop :=
  (∀ (s : State) (v : Bool),
    runEvent (.setGie v) s = .next (if s.fgPc = .idle then { s with gie := v } else s)) ∧
  ∀ s t : State, step s = .next t →
    t.cfg = s.cfg ∧ (t.gie ≠ s.gie → s.fgPc = .idle ∧ nextEvent s = .setGie t.gie)

/-- 10_state.md R50, 60_exceptions.md R285: the fault mark is never cleared, and after it no step of any agent changes a
buffer, a phase, a latch, a response, a flag, a control bit, a configuration value or the data register. (What the
host and the peripheral may still change, `gie`, the shift register, the line, the status bits and the received data,
is not in the list: notes/assumptions/15.md.) -/
def Obligations.FaultMarkIsForever : Prop :=
  ∀ s t : State, step s = .next t → s.faulted ≠ none →
    t.faulted = s.faulted ∧ t.rx = s.rx ∧ t.tx = s.tx ∧ t.fgPc = s.fgPc ∧ t.fgOp = s.fgOp ∧
      t.fgData = s.fgData ∧ t.fgBaud = s.fgBaud ∧ t.fgFrame = s.fgFrame ∧
      t.rspLog = s.rspLog ∧ t.everWritten = s.everWritten ∧ t.configured = s.configured ∧
      t.rxen = s.rxen ∧ t.txen = s.txen ∧ t.rxcIe = s.rxcIe ∧ t.txeIe = s.txeIe ∧ t.hwTxdata = s.hwTxdata ∧
      t.hwBaud = s.hwBaud ∧ t.hwFrame = s.hwFrame ∧ t.pinCfg = s.pinCfg

/-- 10_state.md R34, R47, 30_encoding.md R95, R96, R98: the two logs only grow, one entry a step; a response is a 16-bit
value with `ill = 0` or `IllegalResponse`, and leaves the foreground idle; a byte joins the line only when it leaves the
shift register. -/
def Obligations.LogsOnlyGrow : Prop :=
  ∀ s t : State, step s = .next t →
    (t.rspLog = s.rspLog ∨ ∃ r, t.rspLog = s.rspLog ++ [r] ∧ t.fgPc = .idle ∧
      (r.toNat < 65536 ∨ r = 0x00010000#32) ∧
      (nextEvent s = .fg ∨ ∃ w, nextEvent s = .issue w)) ∧
    (t.txLine = s.txLine ∨ (t.txLine = s.txLine ++ [s.hwShift] ∧ nextEvent s = .txDone ∧ s.hwShiftBusy = true))

/-- 30_encoding.md R96, 10_state.md R34, 70_reset_and_hazards.md R337: each command that is accepted responds once. Over
every step from a state of the invariant, the responses and the command in progress together grow by the word that is
accepted; and the byte of a `WRITE` that responds, or is in progress, is the byte of the word that was accepted. -/
def Obligations.EachCommandRespondsOnce : Prop :=
  ∀ s t : State, Invariant s → step s = .next t →
    t.rspLog.length + outstanding t = s.rspLog.length + outstanding s + (issued s t).length ∧
    written s t ++ writing t = writing s ++ bytesToWrite (issued s t)

/-- 20_memory.md R72: a producer that sees room keeps it, and a consumer that sees a byte keeps it, whatever the other
context does. The premise is the cursor range and content of the invariant. -/
def Obligations.LockFreeLaw : Prop :=
  ∀ s t : State, Invariant s → step s = .next t →
    (s.tx.isFull s.cfg.nTx = false → t.tx.isFull t.cfg.nTx = true → nextEvent s = .fg ∧ s.fgPc = .wrTry) ∧
    (s.rx.isFull s.cfg.nRx = false → t.rx.isFull t.cfg.nRx = true → nextEvent s = .intRx) ∧
    (s.rx.isEmpty = false → t.rx.isEmpty = true → (nextEvent s = .fg ∧ s.fgPc = .endOff) ∨
      ∃ w o, nextEvent s = .issue w ∧ decodeCmd w = .ok (.read o)) ∧
    (s.tx.isEmpty = false → t.tx.isEmpty = true → nextEvent s = .intTx ∨
      (nextEvent s = .fg ∧ (s.fgPc = .wrPoll ∨ s.fgPc = .flPoll)) ∨
      ∃ w o, nextEvent s = .issue w ∧ decodeCmd w = .ok (.poll o))

/-- 60_exceptions.md R276, 70_reset_and_hazards.md R321: no step of the foreground and no command reads `gie`, so every
operation works with interrupts off as with interrupts on. -/
def Obligations.ForegroundIgnoresGie : Prop :=
  ∀ (s : State) (v : Bool) (e : Event), e = .fg ∨ (∃ w, e = .issue w) →
    answersAgree (fun t u => u = { t with gie := v }) (runEvent e s) (runEvent e { s with gie := v })

/-- 70_reset_and_hazards.md R322, 93_implementation_defined.md U2: with the transmitter disabled, a flush that waits
for completion and a write that waits for room stay where they are; no step ever responds. -/
def Obligations.BlockedCommandsNeverEscape : Prop :=
  ∀ s t : State, step s = .next t → s.txen = false →
    (s.fgPc = .flTest ∨ s.fgPc = .flPoll → s.hwTxc = false →
      (t.fgPc = .flTest ∨ t.fgPc = .flPoll) ∧ t.hwTxc = false ∧ t.txen = false ∧ t.rspLog = s.rspLog) ∧
    (s.fgPc = .wrTry ∨ s.fgPc = .wrPoll ∨ s.fgPc = .wrRoom → s.hwDre = false → s.tx.isFull s.cfg.nTx = true →
      (t.fgPc = .wrTry ∨ t.fgPc = .wrPoll ∨ t.fgPc = .wrRoom) ∧ t.hwDre = false ∧
        t.tx.isFull t.cfg.nTx = true ∧ t.txen = false ∧ t.rspLog = s.rspLog)

/-! ### Frames -/

/-- What the single-step commands and the handlers leave unchanged: a next state differs from the old one at most in
the fields named (41_foreground_queries.md R141 to R144, 42 R168, 44 R221, R225). -/
def Obligations.FrameOfSingleStepInstructions : Prop :=
  ∀ (s t : State) (o : Operands),
    (exec (.available o) s = .next t ∨ exec (.availableForWrite o) s = .next t ∨ exec (.peek o) s = .next t →
      t = { s with fgOp := t.fgOp, fgData := t.fgData, fgBaud := t.fgBaud, fgFrame := t.fgFrame, rspLog := t.rspLog }) ∧
    (exec (.read o) s = .next t →
      t = { s with
        fgOp := t.fgOp, fgData := t.fgData, fgBaud := t.fgBaud, fgFrame := t.fgFrame, rspLog := t.rspLog
        rx := { s.rx with tail := t.rx.tail } }) ∧
    (exec (.poll o) s = .next t →
      t = { s with
        fgOp := t.fgOp, fgData := t.fgData, fgBaud := t.fgBaud, fgFrame := t.fgFrame, rspLog := t.rspLog
        tx := { s.tx with tail := t.tx.tail }, hwTxdata := t.hwTxdata, hwDre := t.hwDre, hwTxc := t.hwTxc
        txeIe := t.txeIe, faulted := t.faulted }) ∧
    (exec .rxHandler s = .next t →
      t = { s with rx := { s.rx with mem := t.rx.mem, head := t.rx.head }, hwRxc := t.hwRxc } ∧
        ∀ a, a ≠ s.rx.head → memGet t.rx.mem a = memGet s.rx.mem a) ∧
    (exec .txHandler s = .next t →
      t = { s with
        tx := { s.tx with tail := t.tx.tail }, hwTxdata := t.hwTxdata, hwDre := t.hwDre, hwTxc := t.hwTxc
        txeIe := t.txeIe, faulted := t.faulted })

/-- What the multi-step commands leave unchanged in each of their steps (42 R160, R169; 43 R190, R194). The premise
`phaseFits` is the clause `phase` of the invariant. -/
def Obligations.FrameOfMultiStepInstructions : Prop :=
  ∀ (s t : State) (o : Operands), phaseFits s = true →
    (exec (.write o) s = .next t →
      t = { s with
        fgOp := t.fgOp, fgData := t.fgData, fgBaud := t.fgBaud, fgFrame := t.fgFrame, fgPc := t.fgPc
        rspLog := t.rspLog, tx := t.tx, everWritten := t.everWritten, hwTxdata := t.hwTxdata
        hwDre := t.hwDre, hwTxc := t.hwTxc, txeIe := t.txeIe, faulted := t.faulted } ∧
        ∀ a, a ≠ s.tx.head → memGet t.tx.mem a = memGet s.tx.mem a) ∧
    (exec (.flush o) s = .next t →
      t = { s with
        fgOp := t.fgOp, fgData := t.fgData, fgBaud := t.fgBaud, fgFrame := t.fgFrame, fgPc := t.fgPc
        rspLog := t.rspLog, tx := { s.tx with tail := t.tx.tail }, hwTxdata := t.hwTxdata
        hwDre := t.hwDre, hwTxc := t.hwTxc, txeIe := t.txeIe, faulted := t.faulted }) ∧
    (exec (.endCmd o) s = .next t →
      t = { s with
        fgOp := t.fgOp, fgData := t.fgData, fgBaud := t.fgBaud, fgFrame := t.fgFrame, fgPc := t.fgPc
        rspLog := t.rspLog, tx := { s.tx with tail := t.tx.tail }, hwTxdata := t.hwTxdata
        hwDre := t.hwDre, hwTxc := t.hwTxc, txeIe := t.txeIe, faulted := t.faulted
        rx := { s.rx with tail := t.rx.tail }, rxen := t.rxen, txen := t.txen, rxcIe := t.rxcIe
        configured := t.configured, everWritten := t.everWritten }) ∧
    (exec (.beginCmd o) s = .next t →
      t = { s with
        fgOp := t.fgOp, fgData := t.fgData, fgBaud := t.fgBaud, fgFrame := t.fgFrame, fgPc := t.fgPc
        rspLog := t.rspLog, tx := { s.tx with tail := t.tx.tail }, hwTxdata := t.hwTxdata
        hwDre := t.hwDre, hwTxc := t.hwTxc, txeIe := t.txeIe, faulted := t.faulted
        rx := { s.rx with tail := t.rx.tail }, rxen := t.rxen, txen := t.txen, rxcIe := t.rxcIe
        configured := t.configured, everWritten := t.everWritten
        pinCfg := t.pinCfg, hwBaud := t.hwBaud, hwFrame := t.hwFrame })

/-! ### Reset and the invariants -/

/-- 70_reset_and_hazards.md R310, 10_state.md R51: the values the spec gives, for every parameters, every draw of the
unspecified values and every schedule, and (R311, first sentence) that only the host's steps are then enabled.
`State.reset` is one such state. -/
def Obligations.ResetLeavesTheValuesOfTheManual : Prop :=
  (∀ (p : Params) (d : ResetDraw) (l : List Event) (s : State), s = State.resetWith p d l →
    s.rx.head = 0 ∧ s.rx.tail = 0 ∧ s.tx.head = 0 ∧ s.tx.tail = 0 ∧ s.everWritten = false ∧
      s.configured = false ∧ s.fgPc = .idle ∧ s.fgOp = 0 ∧ s.rspLog = [] ∧ s.txLine = [] ∧
      s.rxen = false ∧ s.txen = false ∧ s.rxcIe = false ∧ s.txeIe = false ∧ s.pinCfg = false ∧
      s.hwDre = true ∧ s.hwTxc = d.hwTxc ∧ s.hwRxc = false ∧ s.hwShiftBusy = false ∧ s.gie = d.gie ∧
      s.faulted = none ∧ (∀ a, memGet s.rx.mem a = none ∧ memGet s.tx.mem a = none) ∧
      ∀ e, enabled e s = true ↔ (∃ w, e = .issue w) ∨ ∃ v, e = .setGie v) ∧
  ∃ p d l, State.reset = State.resetWith p d l

/-- The invariant holds at reset, whatever the parameters, the draws and the schedule. -/
def Obligations.ResetSatisfiesTheInvariant : Prop :=
  ∀ (p : Params) (d : ResetDraw) (l : List Event), Invariant (State.resetWith p d l)

/-- 70_reset_and_hazards.md R330, R331, R332, with 42 R173, 45 R255 c and 60 R285: every step keeps the invariant. -/
def Obligations.EveryStepKeepsTheInvariant : Prop :=
  ∀ s t : State, Invariant s → step s = .next t → Invariant t

/-- The model's stops are not reached: where the invariant holds, a step never stops. So no buffer slot that nothing
has written is read (70_reset_and_hazards.md R330, R333, first sentences; notes/assumptions/8.md), and the flush steps
return to a command that has them (42_write_flush_poll.md R173; notes/assumptions/16.md). -/
def Obligations.InvariantStatesNeverStop : Prop := ∀ s : State, Invariant s → ∃ t, step s = .next t

/-- 70_reset_and_hazards.md R333: no unspecified value is ever read. States of the invariant that differ only in
registers whose value nothing may read yet are told apart by no step, and the states after two resets with the same
`gie`, "the one free value that is read", are such states. (Buffer slots that nothing has written hold no value:
`InvariantStatesNeverStop`.) -/
def Obligations.UnspecifiedValuesChangeNothing : Prop :=
  (∀ s t : State, Invariant s → sameButUnread s t → answersAgree sameButUnread (step s) (step t)) ∧
  ∀ (p : Params) (d e : ResetDraw) (l : List Event), d.gie = e.gie →
    sameButUnread (State.resetWith p d l) (State.resetWith p e l)

/-- 70_reset_and_hazards.md R334, step by step: the line and everything on its way to it change only by the byte of a
`WRITE` that responds, which joins at the end. -/
def Obligations.TransmitStreamGrowsByWrites : Prop :=
  ∀ s t : State, Invariant s → step s = .next t → transmitStream t = transmitStream s ++ written s t

/-- 70_reset_and_hazards.md R336, step by step: what a `READ` returns, then the buffer's content, then the byte the
hardware holds, are what was there before and the arrival, with some bytes removed and none moved. -/
def Obligations.ReceiveStreamOnlyLosesBytes : Prop :=
  ∀ s t : State, Invariant s → step s = .next t →
    (returned s t ++ receiveStream t).Sublist (receiveStream s ++ arrived s t)

/-- Every run from every reset goes on for ever, whatever the schedule and the free draws, and keeps the invariant
(70_reset_and_hazards.md R330 to R333); in it the bytes of the `WRITE`s that have responded are the line, the shift
register, the data register and the transmit buffer, in order (R334); and the bytes that `READ` returned, then the
receive buffer's content, then the byte the hardware holds, are the arrivals with some removed and none moved, and the
buffer never holds more than `N_RX - 1` (R336). -/
def Obligations.EveryRunFromResetKeepsBothPipelines : Prop :=
  ∀ (p : Params) (d : ResetDraw) (l : List Event) (k : Nat),
    ∃ t : State, Host.Core.run core k (State.resetWith p d l) = .next t ∧ Invariant t ∧
      gather written k (State.resetWith p d l) = transmitStream t ∧
      (gather returned k (State.resetWith p d l) ++ receiveStream t).Sublist
        (gather arrived k (State.resetWith p d l)) ∧
      ringOccupied t.cfg.nRx t.rx ≤ t.cfg.nRx - 1

/-- 70_reset_and_hazards.md R335: where the flush steps end, everything has left. -/
def Obligations.FlushEndsWithEverythingSent : Prop :=
  ∀ s t : State, Invariant s → step s = .next t → s.fgPc = .flGate ∨ s.fgPc = .flTest →
    t.fgPc = .idle ∨ t.fgPc = .endOff →
    transmitIdle s ∧ transmitStream s = s.txLine ∧ (s.fgPc = .flTest → s.hwTxc = true) ∧
      t.txLine = s.txLine ∧ ringFree t.cfg.nTx t.tx = t.cfg.nTx - 1

/-- 70_reset_and_hazards.md R311, last sentence: what may differ from the reset state after an `END`. -/
def Obligations.EndLeavesTheResetStateBut : Prop :=
  ∀ s t : State, Invariant s → step s = .next t → s.fgPc = .endOff → t.fgPc = .idle →
    t.rx.head = t.rx.tail ∧ t.tx.head = t.tx.tail ∧
    ∀ d : ResetDraw, t = { State.resetWith t.cfg d t.schedule with
      rx := t.rx, tx := t.tx, pinCfg := t.pinCfg, hwBaud := t.hwBaud, hwFrame := t.hwFrame
      rspLog := t.rspLog, txLine := t.txLine, hwTxc := t.hwTxc, hwRxc := t.hwRxc, hwRxdata := t.hwRxdata
      hwRxerr := t.hwRxerr, fgOp := t.fgOp, fgData := t.fgData, fgBaud := t.fgBaud, fgFrame := t.fgFrame
      gie := t.gie, hwTxdata := t.hwTxdata, hwShift := t.hwShift, draws := t.draws }

/-- 70_reset_and_hazards.md R337: when a run of a program is over, an enabled transmitter has sent everything but what
waits in the buffer for interrupts that are off; and in a run from reset every word of the program has then been issued
and has responded, and with interrupts on the line is the bytes of the program's `WRITE`s, in order. -/
def Obligations.RunOverMeansSent : Prop :=
  (∀ (c : Program) (s : State), Invariant s → runOver c s → s.txen = true →
    transmitStream s = s.txLine ++ content s.cfg.nTx s.tx ∧ (s.gie = true → transmitStream s = s.txLine)) ∧
  ∀ (p : Params) (d : ResetDraw) (l : List Event) (k : Nat) (c : Program) (t : State),
    Host.Core.run core k (State.resetWith p d l) = .next t → runsProgram c k (State.resetWith p d l) → runOver c t →
    gather issued k (State.resetWith p d l) = c ∧ gather written k (State.resetWith p d l) = bytesToWrite c ∧
      (t.txen = true → t.gie = true → t.txLine = bytesToWrite c)
end

