-- ==== Sys2Proof/Laws/Decode.lean ====
section
/-! SUPPORT. The laws of the decoder's parts: what each field of an encoded word is, and that an operation number
names at most one command. -/

namespace Sys2Proof

theorem toNat_cmdWord (op : BitVec 4) (o : Operands) :
    (cmdWord op o).toNat = op.toNat + o.data.toNat * 2 ^ 8 + o.frame.toNat * 2 ^ 16 + o.baud.toNat * 2 ^ 32 := by
  unfold cmdWord
  simp only [BitVec.toNat_append]
  have h1 := op.isLt
  have h2 := o.data.isLt
  have h3 := o.frame.isLt
  have h4 := o.baud.isLt
  rw [← Nat.shiftLeft_add_eq_or_of_lt (by simpa using h1), ← Nat.shiftLeft_add_eq_or_of_lt (by decide),
    ← Nat.shiftLeft_add_eq_or_of_lt (by simpa using h2), ← Nat.shiftLeft_add_eq_or_of_lt (by simpa using h3)]
  simp only [Nat.shiftLeft_eq, BitVec.toNat_ofNat]
  omega

theorem toNat_field (w : CmdWord) (lo len : Nat) : (w.extractLsb' lo len).toNat = w.toNat / 2 ^ lo % 2 ^ len := by
  simp [BitVec.extractLsb'_toNat, Nat.shiftRight_eq_div_pow]

theorem fieldOp_cmdWord (op : BitVec 4) (o : Operands) : fieldOp (cmdWord op o) = op := by
  apply BitVec.eq_of_toNat_eq
  rw [fieldOp, toNat_field, toNat_cmdWord]
  have := op.isLt
  omega

theorem fieldRsv_cmdWord (op : BitVec 4) (o : Operands) : fieldRsv (cmdWord op o) = 0 := by
  apply BitVec.eq_of_toNat_eq
  rw [fieldRsv, toNat_field, toNat_cmdWord]
  have := op.isLt
  simp only [BitVec.ofNat_eq_ofNat, BitVec.toNat_ofNat]
  omega

theorem fieldData_cmdWord (op : BitVec 4) (o : Operands) : fieldData (cmdWord op o) = o.data := by
  apply BitVec.eq_of_toNat_eq
  rw [fieldData, toNat_field, toNat_cmdWord]
  have := op.isLt
  have := o.data.isLt
  omega

theorem fieldFrame_cmdWord (op : BitVec 4) (o : Operands) : fieldFrame (cmdWord op o) = o.frame := by
  apply BitVec.eq_of_toNat_eq
  rw [fieldFrame, toNat_field, toNat_cmdWord]
  have := op.isLt
  have := o.data.isLt
  have := o.frame.isLt
  omega

theorem fieldBaud_cmdWord (op : BitVec 4) (o : Operands) : fieldBaud (cmdWord op o) = o.baud := by
  apply BitVec.eq_of_toNat_eq
  rw [fieldBaud, toNat_field, toNat_cmdWord]
  have := op.isLt
  have := o.data.isLt
  have := o.frame.isLt
  have := o.baud.isLt
  omega

theorem fieldOperands_cmdWord (op : BitVec 4) (o : Operands) : fieldOperands (cmdWord op o) = o := by
  simp [fieldOperands, fieldData_cmdWord, fieldFrame_cmdWord, fieldBaud_cmdWord]

/-- A decoded command: its operation number and its operands are the word's fields, and `rsv` is 0. -/
theorem decodeCmd_ok {w : CmdWord} {i : Instr} (h : decodeCmd w = .ok i) :
    fieldRsv w = 0 ∧ commandOf (fieldOp w) (fieldOperands w) = some i := by
  unfold decodeCmd at h
  split at h
  · cases h
  · refine ⟨not_not.mp ‹_›, ?_⟩
    split at h
    · cases h; assumption
    · cases h

/-- The rows of the opcode map do not overlap: no word selects two of them (30_encoding.md R93). -/
theorem commandRows_disjoint : commandRows.Pairwise (fun a b => a.2 ≠ b.2) := by decide

end Sys2Proof
end

