-- ==== Sys2Proof/Laws/Memory.lean ====
section
/-! SUPPORT. The laws of the buffer memory: reading after writing, and that a write keeps the canonical form. -/

namespace Sys2Proof.Machine

open Sys2Proof

theorem memGet_memSet_same (m : Memory) (i : Nat) (b : Byte) : memGet (memSet m i b) i = some b := by
  induction m with
  | nil => simp [memSet, memGet]
  | cons c m ih =>
    obtain ⟨a, x⟩ := c
    simp only [memSet]
    split
    · simp [memGet]
    · split
      · simp [memGet]
      · simp [memGet, Ne.symm ‹_›, ih]

theorem memGet_memSet_ne (m : Memory) {i j : Nat} (b : Byte) (h : i ≠ j) :
    memGet (memSet m i b) j = memGet m j := by
  induction m with
  | nil => simp [memSet, memGet, h]
  | cons c m ih =>
    obtain ⟨a, x⟩ := c
    simp only [memSet]
    split
    · simp [memGet, h]
    · split
      · subst_vars; simp [memGet, h]
      · simp [memGet, ih]

/-- A write at a slot that exists keeps every index above any bound it was above. -/
theorem memSet_all_gt (m : Memory) {a i : Nat} (b : Byte) (ha : a < i)
    (h : m.all (fun c => decide (a < c.1)) = true) :
    (memSet m i b).all (fun c => decide (a < c.1)) = true := by
  induction m with
  | nil => simp [memSet, ha]
  | cons c m ih =>
    obtain ⟨a', x⟩ := c
    simp only [List.all_cons, Bool.and_eq_true, decide_eq_true_eq] at h
    simp only [memSet]
    split
    · simp [ha, h.1]; simpa using h.2
    · split
      · simp [ha]; simpa using h.2
      · simp only [List.all_cons, Bool.and_eq_true, decide_eq_true_eq]
        exact ⟨h.1, ih h.2⟩

theorem memWf_memSet {n : Nat} {m : Memory} {i : Nat} (b : Byte) (hi : i < n) (h : memWf n m = true) :
    memWf n (memSet m i b) = true := by
  induction m with
  | nil => simp [memSet, memWf, hi]
  | cons c m ih =>
    obtain ⟨a, x⟩ := c
    simp only [memWf, Bool.and_eq_true, decide_eq_true_eq] at h
    simp only [memSet]
    split
    · rename_i hlt
      have hall : m.all (fun c => decide (i < c.1)) = true := by
        simp only [List.all_eq_true, decide_eq_true_eq] at h ⊢
        exact fun c hc => Nat.lt_trans hlt (h.1.2 c hc)
      simp [memWf, hi, hlt, h.1.1, h.2, h.1.2, hall]
    · split
      · subst_vars; simp [memWf, hi, h.1.2, h.2]
      · rename_i hge hne
        simp only [memWf, Bool.and_eq_true, decide_eq_true_eq]
        exact ⟨⟨h.1.1, memSet_all_gt m b (by omega) h.1.2⟩, ih h.2⟩

/-- `MemWrite` keeps the canonical form (20_memory.md R62). -/
theorem memWrite_wf {n i : Nat} {b : Byte} {m m' : Memory} (h : memWf n m = true)
    (hw : memWrite n i b m = .ok m') : memWf n m' = true := by
  unfold memWrite at hw
  split at hw
  · cases hw; exact memWf_memSet b ‹_› h
  · cases hw

end Sys2Proof.Machine
end

