-- ==== Sys2Proof/Laws/Operands.lean ====
section
/-! SUPPORT. The response words as numbers (30_encoding.md R95 to R98). -/

namespace Sys2Proof.Machine

open Sys2Proof

/-- A legal response is its value with zeros above (30_encoding.md R96). -/
theorem rspWord_false (v : BitVec 16) : rspWord false v = v.setWidth 32 := by
  apply BitVec.eq_of_toNat_eq
  have := v.isLt
  unfold rspWord
  rw [BitVec.toNat_append, BitVec.toNat_append, BitVec.toNat_setWidth, Nat.mod_eq_of_lt (by omega)]
  simp

theorem illegalResponse_eq : illegalResponse = 0x00010000#32 := by decide

/-- Every count of a legal buffer fits in the response (30_encoding.md R97). -/
theorem rspWord_countValue {n : Nat} (h : n < 65536) : rspWord false (countValue n) = BitVec.ofNat 32 n := by
  apply BitVec.eq_of_toNat_eq
  rw [rspWord_false, countValue, BitVec.toNat_setWidth, BitVec.toNat_ofNat, BitVec.toNat_ofNat]
  omega

/-- A byte at the response port (30_encoding.md R97). -/
theorem rspWord_byte (c : Byte) : rspWord false (c.setWidth 16) = c.setWidth 32 := by
  apply BitVec.eq_of_toNat_eq
  have := c.isLt
  rw [rspWord_false, BitVec.toNat_setWidth, BitVec.toNat_setWidth, BitVec.toNat_setWidth]
  omega

end Sys2Proof.Machine
end

