-- ==== Sys2Proof/Laws/PerInstr.lean ====
section
/-! SUPPORT. The family TableRow: the encoder writes each instruction with the mask and match of its row of
spec/opcode_table.json (30_encoding.md R93, R102). -/

namespace Sys2Proof.Laws.TableRow

open Sys2Proof

/-- The bits that the opcode table fixes: a command word under the mask 0xFF is the `match` of the row with the
instruction's mnemonic; a handler's vector number is its row's. -/
def Statement (i : Instr) : Prop :=
  match encode i with
  | .cmd w => (mnemonic i, w &&& 0xFF) ∈ commandRows
  | .irq v => (mnemonic i, v) ∈ [("RX_HANDLER", 0#1), ("TX_HANDLER", 1#1)]

theorem low_byte (op : BitVec 4) (o : Operands) : cmdWord op o &&& 255#64 = op.setWidth 64 := by
  apply BitVec.eq_of_toNat_eq
  have h := toNat_cmdWord op o
  have hlt := op.isLt
  have hand : ∀ x : Nat, x &&& 255 = x % 256 := fun x => Nat.and_two_pow_sub_one_eq_mod x 8
  rw [BitVec.toNat_and, BitVec.toNat_setWidth, h]
  change _ &&& 255 = _
  rw [hand]
  omega

theorem beginCmd (o : Operands) : Statement (.beginCmd o) := by
  simp [Statement, encode, low_byte, mnemonic, commandRows]
theorem endCmd (o : Operands) : Statement (.endCmd o) := by
  simp [Statement, encode, low_byte, mnemonic, commandRows]
theorem write (o : Operands) : Statement (.write o) := by
  simp [Statement, encode, low_byte, mnemonic, commandRows]
theorem availableForWrite (o : Operands) : Statement (.availableForWrite o) := by
  simp [Statement, encode, low_byte, mnemonic, commandRows]
theorem flush (o : Operands) : Statement (.flush o) := by
  simp [Statement, encode, low_byte, mnemonic, commandRows]
theorem available (o : Operands) : Statement (.available o) := by
  simp [Statement, encode, low_byte, mnemonic, commandRows]
theorem peek (o : Operands) : Statement (.peek o) := by
  simp [Statement, encode, low_byte, mnemonic, commandRows]
theorem read (o : Operands) : Statement (.read o) := by
  simp [Statement, encode, low_byte, mnemonic, commandRows]
theorem poll (o : Operands) : Statement (.poll o) := by
  simp [Statement, encode, low_byte, mnemonic, commandRows]
theorem rxHandler : Statement .rxHandler := by simp [Statement, encode, mnemonic]
theorem txHandler : Statement .txHandler := by simp [Statement, encode, mnemonic]

end Sys2Proof.Laws.TableRow
end

