-- ==== Sys2Proof/Laws/Ring.lean ====
section
/-! SUPPORT. What each ring buffer primitive can answer, said once (40_ring_buffer.md R121 to R123). -/

namespace Sys2Proof.Machine

open Sys2Proof

/-- The ring after a push that is accepted. -/
def pushed (n : Nat) (b : Byte) (r : Ring) : Ring := ⟨memSet r.mem r.head b, (r.head + 1) % n, r.tail⟩

/-- The ring after a pop that finds a byte. -/
def popped (n : Nat) (r : Ring) : Ring := ⟨r.mem, r.head, (r.tail + 1) % n⟩

@[simp] theorem pushed_mem (n : Nat) (b : Byte) (r : Ring) : (pushed n b r).mem = memSet r.mem r.head b := rfl
@[simp] theorem pushed_head (n : Nat) (b : Byte) (r : Ring) : (pushed n b r).head = (r.head + 1) % n := rfl
@[simp] theorem pushed_tail (n : Nat) (b : Byte) (r : Ring) : (pushed n b r).tail = r.tail := rfl
@[simp] theorem popped_mem (n : Nat) (r : Ring) : (popped n r).mem = r.mem := rfl
@[simp] theorem popped_head (n : Nat) (r : Ring) : (popped n r).head = r.head := rfl
@[simp] theorem popped_tail (n : Nat) (r : Ring) : (popped n r).tail = (r.tail + 1) % n := rfl

theorem memRead_ok {n i : Nat} {m : Memory} {c : Byte} (h : memRead n i m = .ok c) :
    i < n ∧ memGet m i = some c := by
  unfold memRead at h
  split at h
  · refine ⟨‹_›, ?_⟩
    split at h <;> simp_all
  · cases h

theorem memRead_of_get {n i : Nat} {m : Memory} {c : Byte} (hi : i < n) (h : memGet m i = some c) :
    memRead n i m = .ok c := by simp [memRead, hi, h]

theorem ringPush_ok {n : Nat} {b : Byte} {r q : Ring} {a : Bool} (h : ringPush n b r = .ok (q, a)) :
    ((r.head + 1) % n = r.tail ∧ q = r ∧ a = false) ∨
    ((r.head + 1) % n ≠ r.tail ∧ r.head < n ∧ q = pushed n b r ∧ a = true) := by
  unfold ringPush memWrite at h
  split at h
  · cases h; exact .inl ⟨‹_›, rfl, rfl⟩
  · split at h
    · rename_i hm
      split at hm
      · cases hm; cases h; exact .inr ⟨‹_›, ‹_›, rfl, rfl⟩
      · cases hm
    · cases h

theorem ringPop_ok {n : Nat} {r q : Ring} {c : Option Byte} (h : ringPop n r = .ok (q, c)) :
    (r.head = r.tail ∧ q = r ∧ c = none) ∨
    (∃ b, r.head ≠ r.tail ∧ r.tail < n ∧ memGet r.mem r.tail = some b ∧ q = popped n r ∧ c = some b) := by
  unfold ringPop at h
  split at h
  · cases h; exact .inl ⟨‹_›, rfl, rfl⟩
  · split at h
    · rename_i hm
      cases h
      exact .inr ⟨_, ‹_›, (memRead_ok hm).1, (memRead_ok hm).2, rfl, rfl⟩
    · cases h

theorem ringPeek_ok {n : Nat} {r : Ring} {c : Option Byte} (h : ringPeek n r = .ok c) :
    (r.head = r.tail ∧ c = none) ∨
    (∃ b, r.head ≠ r.tail ∧ r.tail < n ∧ memGet r.mem r.tail = some b ∧ c = some b) := by
  unfold ringPeek at h
  split at h
  · cases h; exact .inl ⟨‹_›, rfl⟩
  · split at h
    · rename_i hm
      cases h
      exact .inr ⟨_, ‹_›, (memRead_ok hm).1, (memRead_ok hm).2, rfl⟩
    · cases h

/-- A pop and a peek see the same byte (40_ring_buffer.md R123). -/
theorem ringPeek_of_ringPop {n : Nat} {r q : Ring} {c : Option Byte} (h : ringPop n r = .ok (q, c)) :
    ringPeek n r = .ok c := by
  unfold ringPop at h
  unfold ringPeek
  split at h
  · cases h; rw [if_pos ‹_›]
  · rw [if_neg ‹_›]
    split at h
    · cases h; rfl
    · cases h

/-- A push keeps the memory canonical. -/
theorem ringPush_memWf {n : Nat} {b : Byte} {r q : Ring} {a : Bool} (hr : memWf n r.mem = true)
    (h : ringPush n b r = .ok (q, a)) : memWf n q.mem = true := by
  obtain ⟨-, rfl, -⟩ | ⟨-, hlt, rfl, -⟩ := ringPush_ok h
  · exact hr
  · exact memWf_memSet b hlt hr

end Sys2Proof.Machine
end

