-- ==== Sys2Proof/Laws/State.lean ====
section
/-! SUPPORT. Each field of the state after each named update, true by unfolding the update once.
The only other lemmas here are those of the draw (`takeDraw`), which is a match. -/

namespace Sys2Proof.Machine

open Sys2Proof

/-! ### `HOST.ISSUE` latches (30_encoding.md R91) -/
@[simp] theorem State.latch_cfg (op : BitVec 4) (o : Operands) (s : State) : (s.latch op o).cfg = s.cfg := rfl
@[simp] theorem State.latch_rx (op : BitVec 4) (o : Operands) (s : State) : (s.latch op o).rx = s.rx := rfl
@[simp] theorem State.latch_tx (op : BitVec 4) (o : Operands) (s : State) : (s.latch op o).tx = s.tx := rfl
@[simp] theorem State.latch_everWritten (op : BitVec 4) (o : Operands) (s : State) : (s.latch op o).everWritten = s.everWritten := rfl
@[simp] theorem State.latch_configured (op : BitVec 4) (o : Operands) (s : State) : (s.latch op o).configured = s.configured := rfl
@[simp] theorem State.latch_fgPc (op : BitVec 4) (o : Operands) (s : State) : (s.latch op o).fgPc = s.fgPc := rfl
@[simp] theorem State.latch_fgOp (op : BitVec 4) (o : Operands) (s : State) : (s.latch op o).fgOp = op := rfl
@[simp] theorem State.latch_fgData (op : BitVec 4) (o : Operands) (s : State) : (s.latch op o).fgData = o.data := rfl
@[simp] theorem State.latch_fgBaud (op : BitVec 4) (o : Operands) (s : State) : (s.latch op o).fgBaud = o.baud := rfl
@[simp] theorem State.latch_fgFrame (op : BitVec 4) (o : Operands) (s : State) : (s.latch op o).fgFrame = o.frame := rfl
@[simp] theorem State.latch_rspLog (op : BitVec 4) (o : Operands) (s : State) : (s.latch op o).rspLog = s.rspLog := rfl
@[simp] theorem State.latch_rxen (op : BitVec 4) (o : Operands) (s : State) : (s.latch op o).rxen = s.rxen := rfl
@[simp] theorem State.latch_txen (op : BitVec 4) (o : Operands) (s : State) : (s.latch op o).txen = s.txen := rfl
@[simp] theorem State.latch_rxcIe (op : BitVec 4) (o : Operands) (s : State) : (s.latch op o).rxcIe = s.rxcIe := rfl
@[simp] theorem State.latch_txeIe (op : BitVec 4) (o : Operands) (s : State) : (s.latch op o).txeIe = s.txeIe := rfl
@[simp] theorem State.latch_hwBaud (op : BitVec 4) (o : Operands) (s : State) : (s.latch op o).hwBaud = s.hwBaud := rfl
@[simp] theorem State.latch_hwFrame (op : BitVec 4) (o : Operands) (s : State) : (s.latch op o).hwFrame = s.hwFrame := rfl
@[simp] theorem State.latch_pinCfg (op : BitVec 4) (o : Operands) (s : State) : (s.latch op o).pinCfg = s.pinCfg := rfl
@[simp] theorem State.latch_hwDre (op : BitVec 4) (o : Operands) (s : State) : (s.latch op o).hwDre = s.hwDre := rfl
@[simp] theorem State.latch_hwTxc (op : BitVec 4) (o : Operands) (s : State) : (s.latch op o).hwTxc = s.hwTxc := rfl
@[simp] theorem State.latch_hwRxc (op : BitVec 4) (o : Operands) (s : State) : (s.latch op o).hwRxc = s.hwRxc := rfl
@[simp] theorem State.latch_hwRxdata (op : BitVec 4) (o : Operands) (s : State) : (s.latch op o).hwRxdata = s.hwRxdata := rfl
@[simp] theorem State.latch_hwRxerr (op : BitVec 4) (o : Operands) (s : State) : (s.latch op o).hwRxerr = s.hwRxerr := rfl
@[simp] theorem State.latch_hwTxdata (op : BitVec 4) (o : Operands) (s : State) : (s.latch op o).hwTxdata = s.hwTxdata := rfl
@[simp] theorem State.latch_hwShiftBusy (op : BitVec 4) (o : Operands) (s : State) : (s.latch op o).hwShiftBusy = s.hwShiftBusy := rfl
@[simp] theorem State.latch_hwShift (op : BitVec 4) (o : Operands) (s : State) : (s.latch op o).hwShift = s.hwShift := rfl
@[simp] theorem State.latch_txLine (op : BitVec 4) (o : Operands) (s : State) : (s.latch op o).txLine = s.txLine := rfl
@[simp] theorem State.latch_gie (op : BitVec 4) (o : Operands) (s : State) : (s.latch op o).gie = s.gie := rfl
@[simp] theorem State.latch_faulted (op : BitVec 4) (o : Operands) (s : State) : (s.latch op o).faulted = s.faulted := rfl
@[simp] theorem State.latch_schedule (op : BitVec 4) (o : Operands) (s : State) : (s.latch op o).schedule = s.schedule := rfl
@[simp] theorem State.latch_draws (op : BitVec 4) (o : Operands) (s : State) : (s.latch op o).draws = s.draws := rfl

/-! ### `respond(v)` (30_encoding.md R96) -/
@[simp] theorem State.respond_cfg (v : BitVec 16) (s : State) : (s.respond v).cfg = s.cfg := rfl
@[simp] theorem State.respond_rx (v : BitVec 16) (s : State) : (s.respond v).rx = s.rx := rfl
@[simp] theorem State.respond_tx (v : BitVec 16) (s : State) : (s.respond v).tx = s.tx := rfl
@[simp] theorem State.respond_everWritten (v : BitVec 16) (s : State) : (s.respond v).everWritten = s.everWritten := rfl
@[simp] theorem State.respond_configured (v : BitVec 16) (s : State) : (s.respond v).configured = s.configured := rfl
@[simp] theorem State.respond_fgPc (v : BitVec 16) (s : State) : (s.respond v).fgPc = .idle := rfl
@[simp] theorem State.respond_fgOp (v : BitVec 16) (s : State) : (s.respond v).fgOp = s.fgOp := rfl
@[simp] theorem State.respond_fgData (v : BitVec 16) (s : State) : (s.respond v).fgData = s.fgData := rfl
@[simp] theorem State.respond_fgBaud (v : BitVec 16) (s : State) : (s.respond v).fgBaud = s.fgBaud := rfl
@[simp] theorem State.respond_fgFrame (v : BitVec 16) (s : State) : (s.respond v).fgFrame = s.fgFrame := rfl
@[simp] theorem State.respond_rspLog (v : BitVec 16) (s : State) : (s.respond v).rspLog = s.rspLog ++ [rspWord false v] := rfl
@[simp] theorem State.respond_rxen (v : BitVec 16) (s : State) : (s.respond v).rxen = s.rxen := rfl
@[simp] theorem State.respond_txen (v : BitVec 16) (s : State) : (s.respond v).txen = s.txen := rfl
@[simp] theorem State.respond_rxcIe (v : BitVec 16) (s : State) : (s.respond v).rxcIe = s.rxcIe := rfl
@[simp] theorem State.respond_txeIe (v : BitVec 16) (s : State) : (s.respond v).txeIe = s.txeIe := rfl
@[simp] theorem State.respond_hwBaud (v : BitVec 16) (s : State) : (s.respond v).hwBaud = s.hwBaud := rfl
@[simp] theorem State.respond_hwFrame (v : BitVec 16) (s : State) : (s.respond v).hwFrame = s.hwFrame := rfl
@[simp] theorem State.respond_pinCfg (v : BitVec 16) (s : State) : (s.respond v).pinCfg = s.pinCfg := rfl
@[simp] theorem State.respond_hwDre (v : BitVec 16) (s : State) : (s.respond v).hwDre = s.hwDre := rfl
@[simp] theorem State.respond_hwTxc (v : BitVec 16) (s : State) : (s.respond v).hwTxc = s.hwTxc := rfl
@[simp] theorem State.respond_hwRxc (v : BitVec 16) (s : State) : (s.respond v).hwRxc = s.hwRxc := rfl
@[simp] theorem State.respond_hwRxdata (v : BitVec 16) (s : State) : (s.respond v).hwRxdata = s.hwRxdata := rfl
@[simp] theorem State.respond_hwRxerr (v : BitVec 16) (s : State) : (s.respond v).hwRxerr = s.hwRxerr := rfl
@[simp] theorem State.respond_hwTxdata (v : BitVec 16) (s : State) : (s.respond v).hwTxdata = s.hwTxdata := rfl
@[simp] theorem State.respond_hwShiftBusy (v : BitVec 16) (s : State) : (s.respond v).hwShiftBusy = s.hwShiftBusy := rfl
@[simp] theorem State.respond_hwShift (v : BitVec 16) (s : State) : (s.respond v).hwShift = s.hwShift := rfl
@[simp] theorem State.respond_txLine (v : BitVec 16) (s : State) : (s.respond v).txLine = s.txLine := rfl
@[simp] theorem State.respond_gie (v : BitVec 16) (s : State) : (s.respond v).gie = s.gie := rfl
@[simp] theorem State.respond_faulted (v : BitVec 16) (s : State) : (s.respond v).faulted = s.faulted := rfl
@[simp] theorem State.respond_schedule (v : BitVec 16) (s : State) : (s.respond v).schedule = s.schedule := rfl
@[simp] theorem State.respond_draws (v : BitVec 16) (s : State) : (s.respond v).draws = s.draws := rfl

/-! ### the refusal of an illegal word (30_encoding.md R98) -/
@[simp] theorem State.refuseCommand_cfg (s : State) : (s.refuseCommand).cfg = s.cfg := rfl
@[simp] theorem State.refuseCommand_rx (s : State) : (s.refuseCommand).rx = s.rx := rfl
@[simp] theorem State.refuseCommand_tx (s : State) : (s.refuseCommand).tx = s.tx := rfl
@[simp] theorem State.refuseCommand_everWritten (s : State) : (s.refuseCommand).everWritten = s.everWritten := rfl
@[simp] theorem State.refuseCommand_configured (s : State) : (s.refuseCommand).configured = s.configured := rfl
@[simp] theorem State.refuseCommand_fgPc (s : State) : (s.refuseCommand).fgPc = s.fgPc := rfl
@[simp] theorem State.refuseCommand_fgOp (s : State) : (s.refuseCommand).fgOp = s.fgOp := rfl
@[simp] theorem State.refuseCommand_fgData (s : State) : (s.refuseCommand).fgData = s.fgData := rfl
@[simp] theorem State.refuseCommand_fgBaud (s : State) : (s.refuseCommand).fgBaud = s.fgBaud := rfl
@[simp] theorem State.refuseCommand_fgFrame (s : State) : (s.refuseCommand).fgFrame = s.fgFrame := rfl
@[simp] theorem State.refuseCommand_rspLog (s : State) : (s.refuseCommand).rspLog = s.rspLog ++ [illegalResponse] := rfl
@[simp] theorem State.refuseCommand_rxen (s : State) : (s.refuseCommand).rxen = s.rxen := rfl
@[simp] theorem State.refuseCommand_txen (s : State) : (s.refuseCommand).txen = s.txen := rfl
@[simp] theorem State.refuseCommand_rxcIe (s : State) : (s.refuseCommand).rxcIe = s.rxcIe := rfl
@[simp] theorem State.refuseCommand_txeIe (s : State) : (s.refuseCommand).txeIe = s.txeIe := rfl
@[simp] theorem State.refuseCommand_hwBaud (s : State) : (s.refuseCommand).hwBaud = s.hwBaud := rfl
@[simp] theorem State.refuseCommand_hwFrame (s : State) : (s.refuseCommand).hwFrame = s.hwFrame := rfl
@[simp] theorem State.refuseCommand_pinCfg (s : State) : (s.refuseCommand).pinCfg = s.pinCfg := rfl
@[simp] theorem State.refuseCommand_hwDre (s : State) : (s.refuseCommand).hwDre = s.hwDre := rfl
@[simp] theorem State.refuseCommand_hwTxc (s : State) : (s.refuseCommand).hwTxc = s.hwTxc := rfl
@[simp] theorem State.refuseCommand_hwRxc (s : State) : (s.refuseCommand).hwRxc = s.hwRxc := rfl
@[simp] theorem State.refuseCommand_hwRxdata (s : State) : (s.refuseCommand).hwRxdata = s.hwRxdata := rfl
@[simp] theorem State.refuseCommand_hwRxerr (s : State) : (s.refuseCommand).hwRxerr = s.hwRxerr := rfl
@[simp] theorem State.refuseCommand_hwTxdata (s : State) : (s.refuseCommand).hwTxdata = s.hwTxdata := rfl
@[simp] theorem State.refuseCommand_hwShiftBusy (s : State) : (s.refuseCommand).hwShiftBusy = s.hwShiftBusy := rfl
@[simp] theorem State.refuseCommand_hwShift (s : State) : (s.refuseCommand).hwShift = s.hwShift := rfl
@[simp] theorem State.refuseCommand_txLine (s : State) : (s.refuseCommand).txLine = s.txLine := rfl
@[simp] theorem State.refuseCommand_gie (s : State) : (s.refuseCommand).gie = s.gie := rfl
@[simp] theorem State.refuseCommand_faulted (s : State) : (s.refuseCommand).faulted = s.faulted := rfl
@[simp] theorem State.refuseCommand_schedule (s : State) : (s.refuseCommand).schedule = s.schedule := rfl
@[simp] theorem State.refuseCommand_draws (s : State) : (s.refuseCommand).draws = s.draws := rfl

/-! ### `fg_pc <- P` -/
@[simp] theorem State.goto_cfg (p : Phase) (s : State) : (s.goto p).cfg = s.cfg := rfl
@[simp] theorem State.goto_rx (p : Phase) (s : State) : (s.goto p).rx = s.rx := rfl
@[simp] theorem State.goto_tx (p : Phase) (s : State) : (s.goto p).tx = s.tx := rfl
@[simp] theorem State.goto_everWritten (p : Phase) (s : State) : (s.goto p).everWritten = s.everWritten := rfl
@[simp] theorem State.goto_configured (p : Phase) (s : State) : (s.goto p).configured = s.configured := rfl
@[simp] theorem State.goto_fgPc (p : Phase) (s : State) : (s.goto p).fgPc = p := rfl
@[simp] theorem State.goto_fgOp (p : Phase) (s : State) : (s.goto p).fgOp = s.fgOp := rfl
@[simp] theorem State.goto_fgData (p : Phase) (s : State) : (s.goto p).fgData = s.fgData := rfl
@[simp] theorem State.goto_fgBaud (p : Phase) (s : State) : (s.goto p).fgBaud = s.fgBaud := rfl
@[simp] theorem State.goto_fgFrame (p : Phase) (s : State) : (s.goto p).fgFrame = s.fgFrame := rfl
@[simp] theorem State.goto_rspLog (p : Phase) (s : State) : (s.goto p).rspLog = s.rspLog := rfl
@[simp] theorem State.goto_rxen (p : Phase) (s : State) : (s.goto p).rxen = s.rxen := rfl
@[simp] theorem State.goto_txen (p : Phase) (s : State) : (s.goto p).txen = s.txen := rfl
@[simp] theorem State.goto_rxcIe (p : Phase) (s : State) : (s.goto p).rxcIe = s.rxcIe := rfl
@[simp] theorem State.goto_txeIe (p : Phase) (s : State) : (s.goto p).txeIe = s.txeIe := rfl
@[simp] theorem State.goto_hwBaud (p : Phase) (s : State) : (s.goto p).hwBaud = s.hwBaud := rfl
@[simp] theorem State.goto_hwFrame (p : Phase) (s : State) : (s.goto p).hwFrame = s.hwFrame := rfl
@[simp] theorem State.goto_pinCfg (p : Phase) (s : State) : (s.goto p).pinCfg = s.pinCfg := rfl
@[simp] theorem State.goto_hwDre (p : Phase) (s : State) : (s.goto p).hwDre = s.hwDre := rfl
@[simp] theorem State.goto_hwTxc (p : Phase) (s : State) : (s.goto p).hwTxc = s.hwTxc := rfl
@[simp] theorem State.goto_hwRxc (p : Phase) (s : State) : (s.goto p).hwRxc = s.hwRxc := rfl
@[simp] theorem State.goto_hwRxdata (p : Phase) (s : State) : (s.goto p).hwRxdata = s.hwRxdata := rfl
@[simp] theorem State.goto_hwRxerr (p : Phase) (s : State) : (s.goto p).hwRxerr = s.hwRxerr := rfl
@[simp] theorem State.goto_hwTxdata (p : Phase) (s : State) : (s.goto p).hwTxdata = s.hwTxdata := rfl
@[simp] theorem State.goto_hwShiftBusy (p : Phase) (s : State) : (s.goto p).hwShiftBusy = s.hwShiftBusy := rfl
@[simp] theorem State.goto_hwShift (p : Phase) (s : State) : (s.goto p).hwShift = s.hwShift := rfl
@[simp] theorem State.goto_txLine (p : Phase) (s : State) : (s.goto p).txLine = s.txLine := rfl
@[simp] theorem State.goto_gie (p : Phase) (s : State) : (s.goto p).gie = s.gie := rfl
@[simp] theorem State.goto_faulted (p : Phase) (s : State) : (s.goto p).faulted = s.faulted := rfl
@[simp] theorem State.goto_schedule (p : Phase) (s : State) : (s.goto p).schedule = s.schedule := rfl
@[simp] theorem State.goto_draws (p : Phase) (s : State) : (s.goto p).draws = s.draws := rfl

/-! ### the receive buffer -/
@[simp] theorem State.setRx_cfg (r : Ring) (s : State) : (s.setRx r).cfg = s.cfg := rfl
@[simp] theorem State.setRx_rx (r : Ring) (s : State) : (s.setRx r).rx = r := rfl
@[simp] theorem State.setRx_tx (r : Ring) (s : State) : (s.setRx r).tx = s.tx := rfl
@[simp] theorem State.setRx_everWritten (r : Ring) (s : State) : (s.setRx r).everWritten = s.everWritten := rfl
@[simp] theorem State.setRx_configured (r : Ring) (s : State) : (s.setRx r).configured = s.configured := rfl
@[simp] theorem State.setRx_fgPc (r : Ring) (s : State) : (s.setRx r).fgPc = s.fgPc := rfl
@[simp] theorem State.setRx_fgOp (r : Ring) (s : State) : (s.setRx r).fgOp = s.fgOp := rfl
@[simp] theorem State.setRx_fgData (r : Ring) (s : State) : (s.setRx r).fgData = s.fgData := rfl
@[simp] theorem State.setRx_fgBaud (r : Ring) (s : State) : (s.setRx r).fgBaud = s.fgBaud := rfl
@[simp] theorem State.setRx_fgFrame (r : Ring) (s : State) : (s.setRx r).fgFrame = s.fgFrame := rfl
@[simp] theorem State.setRx_rspLog (r : Ring) (s : State) : (s.setRx r).rspLog = s.rspLog := rfl
@[simp] theorem State.setRx_rxen (r : Ring) (s : State) : (s.setRx r).rxen = s.rxen := rfl
@[simp] theorem State.setRx_txen (r : Ring) (s : State) : (s.setRx r).txen = s.txen := rfl
@[simp] theorem State.setRx_rxcIe (r : Ring) (s : State) : (s.setRx r).rxcIe = s.rxcIe := rfl
@[simp] theorem State.setRx_txeIe (r : Ring) (s : State) : (s.setRx r).txeIe = s.txeIe := rfl
@[simp] theorem State.setRx_hwBaud (r : Ring) (s : State) : (s.setRx r).hwBaud = s.hwBaud := rfl
@[simp] theorem State.setRx_hwFrame (r : Ring) (s : State) : (s.setRx r).hwFrame = s.hwFrame := rfl
@[simp] theorem State.setRx_pinCfg (r : Ring) (s : State) : (s.setRx r).pinCfg = s.pinCfg := rfl
@[simp] theorem State.setRx_hwDre (r : Ring) (s : State) : (s.setRx r).hwDre = s.hwDre := rfl
@[simp] theorem State.setRx_hwTxc (r : Ring) (s : State) : (s.setRx r).hwTxc = s.hwTxc := rfl
@[simp] theorem State.setRx_hwRxc (r : Ring) (s : State) : (s.setRx r).hwRxc = s.hwRxc := rfl
@[simp] theorem State.setRx_hwRxdata (r : Ring) (s : State) : (s.setRx r).hwRxdata = s.hwRxdata := rfl
@[simp] theorem State.setRx_hwRxerr (r : Ring) (s : State) : (s.setRx r).hwRxerr = s.hwRxerr := rfl
@[simp] theorem State.setRx_hwTxdata (r : Ring) (s : State) : (s.setRx r).hwTxdata = s.hwTxdata := rfl
@[simp] theorem State.setRx_hwShiftBusy (r : Ring) (s : State) : (s.setRx r).hwShiftBusy = s.hwShiftBusy := rfl
@[simp] theorem State.setRx_hwShift (r : Ring) (s : State) : (s.setRx r).hwShift = s.hwShift := rfl
@[simp] theorem State.setRx_txLine (r : Ring) (s : State) : (s.setRx r).txLine = s.txLine := rfl
@[simp] theorem State.setRx_gie (r : Ring) (s : State) : (s.setRx r).gie = s.gie := rfl
@[simp] theorem State.setRx_faulted (r : Ring) (s : State) : (s.setRx r).faulted = s.faulted := rfl
@[simp] theorem State.setRx_schedule (r : Ring) (s : State) : (s.setRx r).schedule = s.schedule := rfl
@[simp] theorem State.setRx_draws (r : Ring) (s : State) : (s.setRx r).draws = s.draws := rfl

/-! ### the transmit buffer -/
@[simp] theorem State.setTx_cfg (r : Ring) (s : State) : (s.setTx r).cfg = s.cfg := rfl
@[simp] theorem State.setTx_rx (r : Ring) (s : State) : (s.setTx r).rx = s.rx := rfl
@[simp] theorem State.setTx_tx (r : Ring) (s : State) : (s.setTx r).tx = r := rfl
@[simp] theorem State.setTx_everWritten (r : Ring) (s : State) : (s.setTx r).everWritten = s.everWritten := rfl
@[simp] theorem State.setTx_configured (r : Ring) (s : State) : (s.setTx r).configured = s.configured := rfl
@[simp] theorem State.setTx_fgPc (r : Ring) (s : State) : (s.setTx r).fgPc = s.fgPc := rfl
@[simp] theorem State.setTx_fgOp (r : Ring) (s : State) : (s.setTx r).fgOp = s.fgOp := rfl
@[simp] theorem State.setTx_fgData (r : Ring) (s : State) : (s.setTx r).fgData = s.fgData := rfl
@[simp] theorem State.setTx_fgBaud (r : Ring) (s : State) : (s.setTx r).fgBaud = s.fgBaud := rfl
@[simp] theorem State.setTx_fgFrame (r : Ring) (s : State) : (s.setTx r).fgFrame = s.fgFrame := rfl
@[simp] theorem State.setTx_rspLog (r : Ring) (s : State) : (s.setTx r).rspLog = s.rspLog := rfl
@[simp] theorem State.setTx_rxen (r : Ring) (s : State) : (s.setTx r).rxen = s.rxen := rfl
@[simp] theorem State.setTx_txen (r : Ring) (s : State) : (s.setTx r).txen = s.txen := rfl
@[simp] theorem State.setTx_rxcIe (r : Ring) (s : State) : (s.setTx r).rxcIe = s.rxcIe := rfl
@[simp] theorem State.setTx_txeIe (r : Ring) (s : State) : (s.setTx r).txeIe = s.txeIe := rfl
@[simp] theorem State.setTx_hwBaud (r : Ring) (s : State) : (s.setTx r).hwBaud = s.hwBaud := rfl
@[simp] theorem State.setTx_hwFrame (r : Ring) (s : State) : (s.setTx r).hwFrame = s.hwFrame := rfl
@[simp] theorem State.setTx_pinCfg (r : Ring) (s : State) : (s.setTx r).pinCfg = s.pinCfg := rfl
@[simp] theorem State.setTx_hwDre (r : Ring) (s : State) : (s.setTx r).hwDre = s.hwDre := rfl
@[simp] theorem State.setTx_hwTxc (r : Ring) (s : State) : (s.setTx r).hwTxc = s.hwTxc := rfl
@[simp] theorem State.setTx_hwRxc (r : Ring) (s : State) : (s.setTx r).hwRxc = s.hwRxc := rfl
@[simp] theorem State.setTx_hwRxdata (r : Ring) (s : State) : (s.setTx r).hwRxdata = s.hwRxdata := rfl
@[simp] theorem State.setTx_hwRxerr (r : Ring) (s : State) : (s.setTx r).hwRxerr = s.hwRxerr := rfl
@[simp] theorem State.setTx_hwTxdata (r : Ring) (s : State) : (s.setTx r).hwTxdata = s.hwTxdata := rfl
@[simp] theorem State.setTx_hwShiftBusy (r : Ring) (s : State) : (s.setTx r).hwShiftBusy = s.hwShiftBusy := rfl
@[simp] theorem State.setTx_hwShift (r : Ring) (s : State) : (s.setTx r).hwShift = s.hwShift := rfl
@[simp] theorem State.setTx_txLine (r : Ring) (s : State) : (s.setTx r).txLine = s.txLine := rfl
@[simp] theorem State.setTx_gie (r : Ring) (s : State) : (s.setTx r).gie = s.gie := rfl
@[simp] theorem State.setTx_faulted (r : Ring) (s : State) : (s.setTx r).faulted = s.faulted := rfl
@[simp] theorem State.setTx_schedule (r : Ring) (s : State) : (s.setTx r).schedule = s.schedule := rfl
@[simp] theorem State.setTx_draws (r : Ring) (s : State) : (s.setTx r).draws = s.draws := rfl

/-! ### `everWritten` -/
@[simp] theorem State.setEverWritten_cfg (v : Bool) (s : State) : (s.setEverWritten v).cfg = s.cfg := rfl
@[simp] theorem State.setEverWritten_rx (v : Bool) (s : State) : (s.setEverWritten v).rx = s.rx := rfl
@[simp] theorem State.setEverWritten_tx (v : Bool) (s : State) : (s.setEverWritten v).tx = s.tx := rfl
@[simp] theorem State.setEverWritten_everWritten (v : Bool) (s : State) : (s.setEverWritten v).everWritten = v := rfl
@[simp] theorem State.setEverWritten_configured (v : Bool) (s : State) : (s.setEverWritten v).configured = s.configured := rfl
@[simp] theorem State.setEverWritten_fgPc (v : Bool) (s : State) : (s.setEverWritten v).fgPc = s.fgPc := rfl
@[simp] theorem State.setEverWritten_fgOp (v : Bool) (s : State) : (s.setEverWritten v).fgOp = s.fgOp := rfl
@[simp] theorem State.setEverWritten_fgData (v : Bool) (s : State) : (s.setEverWritten v).fgData = s.fgData := rfl
@[simp] theorem State.setEverWritten_fgBaud (v : Bool) (s : State) : (s.setEverWritten v).fgBaud = s.fgBaud := rfl
@[simp] theorem State.setEverWritten_fgFrame (v : Bool) (s : State) : (s.setEverWritten v).fgFrame = s.fgFrame := rfl
@[simp] theorem State.setEverWritten_rspLog (v : Bool) (s : State) : (s.setEverWritten v).rspLog = s.rspLog := rfl
@[simp] theorem State.setEverWritten_rxen (v : Bool) (s : State) : (s.setEverWritten v).rxen = s.rxen := rfl
@[simp] theorem State.setEverWritten_txen (v : Bool) (s : State) : (s.setEverWritten v).txen = s.txen := rfl
@[simp] theorem State.setEverWritten_rxcIe (v : Bool) (s : State) : (s.setEverWritten v).rxcIe = s.rxcIe := rfl
@[simp] theorem State.setEverWritten_txeIe (v : Bool) (s : State) : (s.setEverWritten v).txeIe = s.txeIe := rfl
@[simp] theorem State.setEverWritten_hwBaud (v : Bool) (s : State) : (s.setEverWritten v).hwBaud = s.hwBaud := rfl
@[simp] theorem State.setEverWritten_hwFrame (v : Bool) (s : State) : (s.setEverWritten v).hwFrame = s.hwFrame := rfl
@[simp] theorem State.setEverWritten_pinCfg (v : Bool) (s : State) : (s.setEverWritten v).pinCfg = s.pinCfg := rfl
@[simp] theorem State.setEverWritten_hwDre (v : Bool) (s : State) : (s.setEverWritten v).hwDre = s.hwDre := rfl
@[simp] theorem State.setEverWritten_hwTxc (v : Bool) (s : State) : (s.setEverWritten v).hwTxc = s.hwTxc := rfl
@[simp] theorem State.setEverWritten_hwRxc (v : Bool) (s : State) : (s.setEverWritten v).hwRxc = s.hwRxc := rfl
@[simp] theorem State.setEverWritten_hwRxdata (v : Bool) (s : State) : (s.setEverWritten v).hwRxdata = s.hwRxdata := rfl
@[simp] theorem State.setEverWritten_hwRxerr (v : Bool) (s : State) : (s.setEverWritten v).hwRxerr = s.hwRxerr := rfl
@[simp] theorem State.setEverWritten_hwTxdata (v : Bool) (s : State) : (s.setEverWritten v).hwTxdata = s.hwTxdata := rfl
@[simp] theorem State.setEverWritten_hwShiftBusy (v : Bool) (s : State) : (s.setEverWritten v).hwShiftBusy = s.hwShiftBusy := rfl
@[simp] theorem State.setEverWritten_hwShift (v : Bool) (s : State) : (s.setEverWritten v).hwShift = s.hwShift := rfl
@[simp] theorem State.setEverWritten_txLine (v : Bool) (s : State) : (s.setEverWritten v).txLine = s.txLine := rfl
@[simp] theorem State.setEverWritten_gie (v : Bool) (s : State) : (s.setEverWritten v).gie = s.gie := rfl
@[simp] theorem State.setEverWritten_faulted (v : Bool) (s : State) : (s.setEverWritten v).faulted = s.faulted := rfl
@[simp] theorem State.setEverWritten_schedule (v : Bool) (s : State) : (s.setEverWritten v).schedule = s.schedule := rfl
@[simp] theorem State.setEverWritten_draws (v : Bool) (s : State) : (s.setEverWritten v).draws = s.draws := rfl

/-! ### `configured` -/
@[simp] theorem State.setConfigured_cfg (v : Bool) (s : State) : (s.setConfigured v).cfg = s.cfg := rfl
@[simp] theorem State.setConfigured_rx (v : Bool) (s : State) : (s.setConfigured v).rx = s.rx := rfl
@[simp] theorem State.setConfigured_tx (v : Bool) (s : State) : (s.setConfigured v).tx = s.tx := rfl
@[simp] theorem State.setConfigured_everWritten (v : Bool) (s : State) : (s.setConfigured v).everWritten = s.everWritten := rfl
@[simp] theorem State.setConfigured_configured (v : Bool) (s : State) : (s.setConfigured v).configured = v := rfl
@[simp] theorem State.setConfigured_fgPc (v : Bool) (s : State) : (s.setConfigured v).fgPc = s.fgPc := rfl
@[simp] theorem State.setConfigured_fgOp (v : Bool) (s : State) : (s.setConfigured v).fgOp = s.fgOp := rfl
@[simp] theorem State.setConfigured_fgData (v : Bool) (s : State) : (s.setConfigured v).fgData = s.fgData := rfl
@[simp] theorem State.setConfigured_fgBaud (v : Bool) (s : State) : (s.setConfigured v).fgBaud = s.fgBaud := rfl
@[simp] theorem State.setConfigured_fgFrame (v : Bool) (s : State) : (s.setConfigured v).fgFrame = s.fgFrame := rfl
@[simp] theorem State.setConfigured_rspLog (v : Bool) (s : State) : (s.setConfigured v).rspLog = s.rspLog := rfl
@[simp] theorem State.setConfigured_rxen (v : Bool) (s : State) : (s.setConfigured v).rxen = s.rxen := rfl
@[simp] theorem State.setConfigured_txen (v : Bool) (s : State) : (s.setConfigured v).txen = s.txen := rfl
@[simp] theorem State.setConfigured_rxcIe (v : Bool) (s : State) : (s.setConfigured v).rxcIe = s.rxcIe := rfl
@[simp] theorem State.setConfigured_txeIe (v : Bool) (s : State) : (s.setConfigured v).txeIe = s.txeIe := rfl
@[simp] theorem State.setConfigured_hwBaud (v : Bool) (s : State) : (s.setConfigured v).hwBaud = s.hwBaud := rfl
@[simp] theorem State.setConfigured_hwFrame (v : Bool) (s : State) : (s.setConfigured v).hwFrame = s.hwFrame := rfl
@[simp] theorem State.setConfigured_pinCfg (v : Bool) (s : State) : (s.setConfigured v).pinCfg = s.pinCfg := rfl
@[simp] theorem State.setConfigured_hwDre (v : Bool) (s : State) : (s.setConfigured v).hwDre = s.hwDre := rfl
@[simp] theorem State.setConfigured_hwTxc (v : Bool) (s : State) : (s.setConfigured v).hwTxc = s.hwTxc := rfl
@[simp] theorem State.setConfigured_hwRxc (v : Bool) (s : State) : (s.setConfigured v).hwRxc = s.hwRxc := rfl
@[simp] theorem State.setConfigured_hwRxdata (v : Bool) (s : State) : (s.setConfigured v).hwRxdata = s.hwRxdata := rfl
@[simp] theorem State.setConfigured_hwRxerr (v : Bool) (s : State) : (s.setConfigured v).hwRxerr = s.hwRxerr := rfl
@[simp] theorem State.setConfigured_hwTxdata (v : Bool) (s : State) : (s.setConfigured v).hwTxdata = s.hwTxdata := rfl
@[simp] theorem State.setConfigured_hwShiftBusy (v : Bool) (s : State) : (s.setConfigured v).hwShiftBusy = s.hwShiftBusy := rfl
@[simp] theorem State.setConfigured_hwShift (v : Bool) (s : State) : (s.setConfigured v).hwShift = s.hwShift := rfl
@[simp] theorem State.setConfigured_txLine (v : Bool) (s : State) : (s.setConfigured v).txLine = s.txLine := rfl
@[simp] theorem State.setConfigured_gie (v : Bool) (s : State) : (s.setConfigured v).gie = s.gie := rfl
@[simp] theorem State.setConfigured_faulted (v : Bool) (s : State) : (s.setConfigured v).faulted = s.faulted := rfl
@[simp] theorem State.setConfigured_schedule (v : Bool) (s : State) : (s.setConfigured v).schedule = s.schedule := rfl
@[simp] theorem State.setConfigured_draws (v : Bool) (s : State) : (s.setConfigured v).draws = s.draws := rfl

/-! ### `HwSet(rxen, v)` -/
@[simp] theorem State.hwSet_rxen_cfg (v : Bool) (s : State) : (s.hwSet .rxen v).cfg = s.cfg := rfl
@[simp] theorem State.hwSet_rxen_rx (v : Bool) (s : State) : (s.hwSet .rxen v).rx = s.rx := rfl
@[simp] theorem State.hwSet_rxen_tx (v : Bool) (s : State) : (s.hwSet .rxen v).tx = s.tx := rfl
@[simp] theorem State.hwSet_rxen_everWritten (v : Bool) (s : State) : (s.hwSet .rxen v).everWritten = s.everWritten := rfl
@[simp] theorem State.hwSet_rxen_configured (v : Bool) (s : State) : (s.hwSet .rxen v).configured = s.configured := rfl
@[simp] theorem State.hwSet_rxen_fgPc (v : Bool) (s : State) : (s.hwSet .rxen v).fgPc = s.fgPc := rfl
@[simp] theorem State.hwSet_rxen_fgOp (v : Bool) (s : State) : (s.hwSet .rxen v).fgOp = s.fgOp := rfl
@[simp] theorem State.hwSet_rxen_fgData (v : Bool) (s : State) : (s.hwSet .rxen v).fgData = s.fgData := rfl
@[simp] theorem State.hwSet_rxen_fgBaud (v : Bool) (s : State) : (s.hwSet .rxen v).fgBaud = s.fgBaud := rfl
@[simp] theorem State.hwSet_rxen_fgFrame (v : Bool) (s : State) : (s.hwSet .rxen v).fgFrame = s.fgFrame := rfl
@[simp] theorem State.hwSet_rxen_rspLog (v : Bool) (s : State) : (s.hwSet .rxen v).rspLog = s.rspLog := rfl
@[simp] theorem State.hwSet_rxen_rxen (v : Bool) (s : State) : (s.hwSet .rxen v).rxen = v := rfl
@[simp] theorem State.hwSet_rxen_txen (v : Bool) (s : State) : (s.hwSet .rxen v).txen = s.txen := rfl
@[simp] theorem State.hwSet_rxen_rxcIe (v : Bool) (s : State) : (s.hwSet .rxen v).rxcIe = s.rxcIe := rfl
@[simp] theorem State.hwSet_rxen_txeIe (v : Bool) (s : State) : (s.hwSet .rxen v).txeIe = s.txeIe := rfl
@[simp] theorem State.hwSet_rxen_hwBaud (v : Bool) (s : State) : (s.hwSet .rxen v).hwBaud = s.hwBaud := rfl
@[simp] theorem State.hwSet_rxen_hwFrame (v : Bool) (s : State) : (s.hwSet .rxen v).hwFrame = s.hwFrame := rfl
@[simp] theorem State.hwSet_rxen_pinCfg (v : Bool) (s : State) : (s.hwSet .rxen v).pinCfg = s.pinCfg := rfl
@[simp] theorem State.hwSet_rxen_hwDre (v : Bool) (s : State) : (s.hwSet .rxen v).hwDre = s.hwDre := rfl
@[simp] theorem State.hwSet_rxen_hwTxc (v : Bool) (s : State) : (s.hwSet .rxen v).hwTxc = s.hwTxc := rfl
@[simp] theorem State.hwSet_rxen_hwRxc (v : Bool) (s : State) : (s.hwSet .rxen v).hwRxc = s.hwRxc := rfl
@[simp] theorem State.hwSet_rxen_hwRxdata (v : Bool) (s : State) : (s.hwSet .rxen v).hwRxdata = s.hwRxdata := rfl
@[simp] theorem State.hwSet_rxen_hwRxerr (v : Bool) (s : State) : (s.hwSet .rxen v).hwRxerr = s.hwRxerr := rfl
@[simp] theorem State.hwSet_rxen_hwTxdata (v : Bool) (s : State) : (s.hwSet .rxen v).hwTxdata = s.hwTxdata := rfl
@[simp] theorem State.hwSet_rxen_hwShiftBusy (v : Bool) (s : State) : (s.hwSet .rxen v).hwShiftBusy = s.hwShiftBusy := rfl
@[simp] theorem State.hwSet_rxen_hwShift (v : Bool) (s : State) : (s.hwSet .rxen v).hwShift = s.hwShift := rfl
@[simp] theorem State.hwSet_rxen_txLine (v : Bool) (s : State) : (s.hwSet .rxen v).txLine = s.txLine := rfl
@[simp] theorem State.hwSet_rxen_gie (v : Bool) (s : State) : (s.hwSet .rxen v).gie = s.gie := rfl
@[simp] theorem State.hwSet_rxen_faulted (v : Bool) (s : State) : (s.hwSet .rxen v).faulted = s.faulted := rfl
@[simp] theorem State.hwSet_rxen_schedule (v : Bool) (s : State) : (s.hwSet .rxen v).schedule = s.schedule := rfl
@[simp] theorem State.hwSet_rxen_draws (v : Bool) (s : State) : (s.hwSet .rxen v).draws = s.draws := rfl

/-! ### `HwSet(txen, v)` -/
@[simp] theorem State.hwSet_txen_cfg (v : Bool) (s : State) : (s.hwSet .txen v).cfg = s.cfg := rfl
@[simp] theorem State.hwSet_txen_rx (v : Bool) (s : State) : (s.hwSet .txen v).rx = s.rx := rfl
@[simp] theorem State.hwSet_txen_tx (v : Bool) (s : State) : (s.hwSet .txen v).tx = s.tx := rfl
@[simp] theorem State.hwSet_txen_everWritten (v : Bool) (s : State) : (s.hwSet .txen v).everWritten = s.everWritten := rfl
@[simp] theorem State.hwSet_txen_configured (v : Bool) (s : State) : (s.hwSet .txen v).configured = s.configured := rfl
@[simp] theorem State.hwSet_txen_fgPc (v : Bool) (s : State) : (s.hwSet .txen v).fgPc = s.fgPc := rfl
@[simp] theorem State.hwSet_txen_fgOp (v : Bool) (s : State) : (s.hwSet .txen v).fgOp = s.fgOp := rfl
@[simp] theorem State.hwSet_txen_fgData (v : Bool) (s : State) : (s.hwSet .txen v).fgData = s.fgData := rfl
@[simp] theorem State.hwSet_txen_fgBaud (v : Bool) (s : State) : (s.hwSet .txen v).fgBaud = s.fgBaud := rfl
@[simp] theorem State.hwSet_txen_fgFrame (v : Bool) (s : State) : (s.hwSet .txen v).fgFrame = s.fgFrame := rfl
@[simp] theorem State.hwSet_txen_rspLog (v : Bool) (s : State) : (s.hwSet .txen v).rspLog = s.rspLog := rfl
@[simp] theorem State.hwSet_txen_rxen (v : Bool) (s : State) : (s.hwSet .txen v).rxen = s.rxen := rfl
@[simp] theorem State.hwSet_txen_txen (v : Bool) (s : State) : (s.hwSet .txen v).txen = v := rfl
@[simp] theorem State.hwSet_txen_rxcIe (v : Bool) (s : State) : (s.hwSet .txen v).rxcIe = s.rxcIe := rfl
@[simp] theorem State.hwSet_txen_txeIe (v : Bool) (s : State) : (s.hwSet .txen v).txeIe = s.txeIe := rfl
@[simp] theorem State.hwSet_txen_hwBaud (v : Bool) (s : State) : (s.hwSet .txen v).hwBaud = s.hwBaud := rfl
@[simp] theorem State.hwSet_txen_hwFrame (v : Bool) (s : State) : (s.hwSet .txen v).hwFrame = s.hwFrame := rfl
@[simp] theorem State.hwSet_txen_pinCfg (v : Bool) (s : State) : (s.hwSet .txen v).pinCfg = s.pinCfg := rfl
@[simp] theorem State.hwSet_txen_hwDre (v : Bool) (s : State) : (s.hwSet .txen v).hwDre = s.hwDre := rfl
@[simp] theorem State.hwSet_txen_hwTxc (v : Bool) (s : State) : (s.hwSet .txen v).hwTxc = s.hwTxc := rfl
@[simp] theorem State.hwSet_txen_hwRxc (v : Bool) (s : State) : (s.hwSet .txen v).hwRxc = s.hwRxc := rfl
@[simp] theorem State.hwSet_txen_hwRxdata (v : Bool) (s : State) : (s.hwSet .txen v).hwRxdata = s.hwRxdata := rfl
@[simp] theorem State.hwSet_txen_hwRxerr (v : Bool) (s : State) : (s.hwSet .txen v).hwRxerr = s.hwRxerr := rfl
@[simp] theorem State.hwSet_txen_hwTxdata (v : Bool) (s : State) : (s.hwSet .txen v).hwTxdata = s.hwTxdata := rfl
@[simp] theorem State.hwSet_txen_hwShiftBusy (v : Bool) (s : State) : (s.hwSet .txen v).hwShiftBusy = s.hwShiftBusy := rfl
@[simp] theorem State.hwSet_txen_hwShift (v : Bool) (s : State) : (s.hwSet .txen v).hwShift = s.hwShift := rfl
@[simp] theorem State.hwSet_txen_txLine (v : Bool) (s : State) : (s.hwSet .txen v).txLine = s.txLine := rfl
@[simp] theorem State.hwSet_txen_gie (v : Bool) (s : State) : (s.hwSet .txen v).gie = s.gie := rfl
@[simp] theorem State.hwSet_txen_faulted (v : Bool) (s : State) : (s.hwSet .txen v).faulted = s.faulted := rfl
@[simp] theorem State.hwSet_txen_schedule (v : Bool) (s : State) : (s.hwSet .txen v).schedule = s.schedule := rfl
@[simp] theorem State.hwSet_txen_draws (v : Bool) (s : State) : (s.hwSet .txen v).draws = s.draws := rfl

/-! ### `HwSet(rxc_ie, v)` -/
@[simp] theorem State.hwSet_rxcIe_cfg (v : Bool) (s : State) : (s.hwSet .rxcIe v).cfg = s.cfg := rfl
@[simp] theorem State.hwSet_rxcIe_rx (v : Bool) (s : State) : (s.hwSet .rxcIe v).rx = s.rx := rfl
@[simp] theorem State.hwSet_rxcIe_tx (v : Bool) (s : State) : (s.hwSet .rxcIe v).tx = s.tx := rfl
@[simp] theorem State.hwSet_rxcIe_everWritten (v : Bool) (s : State) : (s.hwSet .rxcIe v).everWritten = s.everWritten := rfl
@[simp] theorem State.hwSet_rxcIe_configured (v : Bool) (s : State) : (s.hwSet .rxcIe v).configured = s.configured := rfl
@[simp] theorem State.hwSet_rxcIe_fgPc (v : Bool) (s : State) : (s.hwSet .rxcIe v).fgPc = s.fgPc := rfl
@[simp] theorem State.hwSet_rxcIe_fgOp (v : Bool) (s : State) : (s.hwSet .rxcIe v).fgOp = s.fgOp := rfl
@[simp] theorem State.hwSet_rxcIe_fgData (v : Bool) (s : State) : (s.hwSet .rxcIe v).fgData = s.fgData := rfl
@[simp] theorem State.hwSet_rxcIe_fgBaud (v : Bool) (s : State) : (s.hwSet .rxcIe v).fgBaud = s.fgBaud := rfl
@[simp] theorem State.hwSet_rxcIe_fgFrame (v : Bool) (s : State) : (s.hwSet .rxcIe v).fgFrame = s.fgFrame := rfl
@[simp] theorem State.hwSet_rxcIe_rspLog (v : Bool) (s : State) : (s.hwSet .rxcIe v).rspLog = s.rspLog := rfl
@[simp] theorem State.hwSet_rxcIe_rxen (v : Bool) (s : State) : (s.hwSet .rxcIe v).rxen = s.rxen := rfl
@[simp] theorem State.hwSet_rxcIe_txen (v : Bool) (s : State) : (s.hwSet .rxcIe v).txen = s.txen := rfl
@[simp] theorem State.hwSet_rxcIe_rxcIe (v : Bool) (s : State) : (s.hwSet .rxcIe v).rxcIe = v := rfl
@[simp] theorem State.hwSet_rxcIe_txeIe (v : Bool) (s : State) : (s.hwSet .rxcIe v).txeIe = s.txeIe := rfl
@[simp] theorem State.hwSet_rxcIe_hwBaud (v : Bool) (s : State) : (s.hwSet .rxcIe v).hwBaud = s.hwBaud := rfl
@[simp] theorem State.hwSet_rxcIe_hwFrame (v : Bool) (s : State) : (s.hwSet .rxcIe v).hwFrame = s.hwFrame := rfl
@[simp] theorem State.hwSet_rxcIe_pinCfg (v : Bool) (s : State) : (s.hwSet .rxcIe v).pinCfg = s.pinCfg := rfl
@[simp] theorem State.hwSet_rxcIe_hwDre (v : Bool) (s : State) : (s.hwSet .rxcIe v).hwDre = s.hwDre := rfl
@[simp] theorem State.hwSet_rxcIe_hwTxc (v : Bool) (s : State) : (s.hwSet .rxcIe v).hwTxc = s.hwTxc := rfl
@[simp] theorem State.hwSet_rxcIe_hwRxc (v : Bool) (s : State) : (s.hwSet .rxcIe v).hwRxc = s.hwRxc := rfl
@[simp] theorem State.hwSet_rxcIe_hwRxdata (v : Bool) (s : State) : (s.hwSet .rxcIe v).hwRxdata = s.hwRxdata := rfl
@[simp] theorem State.hwSet_rxcIe_hwRxerr (v : Bool) (s : State) : (s.hwSet .rxcIe v).hwRxerr = s.hwRxerr := rfl
@[simp] theorem State.hwSet_rxcIe_hwTxdata (v : Bool) (s : State) : (s.hwSet .rxcIe v).hwTxdata = s.hwTxdata := rfl
@[simp] theorem State.hwSet_rxcIe_hwShiftBusy (v : Bool) (s : State) : (s.hwSet .rxcIe v).hwShiftBusy = s.hwShiftBusy := rfl
@[simp] theorem State.hwSet_rxcIe_hwShift (v : Bool) (s : State) : (s.hwSet .rxcIe v).hwShift = s.hwShift := rfl
@[simp] theorem State.hwSet_rxcIe_txLine (v : Bool) (s : State) : (s.hwSet .rxcIe v).txLine = s.txLine := rfl
@[simp] theorem State.hwSet_rxcIe_gie (v : Bool) (s : State) : (s.hwSet .rxcIe v).gie = s.gie := rfl
@[simp] theorem State.hwSet_rxcIe_faulted (v : Bool) (s : State) : (s.hwSet .rxcIe v).faulted = s.faulted := rfl
@[simp] theorem State.hwSet_rxcIe_schedule (v : Bool) (s : State) : (s.hwSet .rxcIe v).schedule = s.schedule := rfl
@[simp] theorem State.hwSet_rxcIe_draws (v : Bool) (s : State) : (s.hwSet .rxcIe v).draws = s.draws := rfl

/-! ### `HwSet(txe_ie, v)` -/
@[simp] theorem State.hwSet_txeIe_cfg (v : Bool) (s : State) : (s.hwSet .txeIe v).cfg = s.cfg := rfl
@[simp] theorem State.hwSet_txeIe_rx (v : Bool) (s : State) : (s.hwSet .txeIe v).rx = s.rx := rfl
@[simp] theorem State.hwSet_txeIe_tx (v : Bool) (s : State) : (s.hwSet .txeIe v).tx = s.tx := rfl
@[simp] theorem State.hwSet_txeIe_everWritten (v : Bool) (s : State) : (s.hwSet .txeIe v).everWritten = s.everWritten := rfl
@[simp] theorem State.hwSet_txeIe_configured (v : Bool) (s : State) : (s.hwSet .txeIe v).configured = s.configured := rfl
@[simp] theorem State.hwSet_txeIe_fgPc (v : Bool) (s : State) : (s.hwSet .txeIe v).fgPc = s.fgPc := rfl
@[simp] theorem State.hwSet_txeIe_fgOp (v : Bool) (s : State) : (s.hwSet .txeIe v).fgOp = s.fgOp := rfl
@[simp] theorem State.hwSet_txeIe_fgData (v : Bool) (s : State) : (s.hwSet .txeIe v).fgData = s.fgData := rfl
@[simp] theorem State.hwSet_txeIe_fgBaud (v : Bool) (s : State) : (s.hwSet .txeIe v).fgBaud = s.fgBaud := rfl
@[simp] theorem State.hwSet_txeIe_fgFrame (v : Bool) (s : State) : (s.hwSet .txeIe v).fgFrame = s.fgFrame := rfl
@[simp] theorem State.hwSet_txeIe_rspLog (v : Bool) (s : State) : (s.hwSet .txeIe v).rspLog = s.rspLog := rfl
@[simp] theorem State.hwSet_txeIe_rxen (v : Bool) (s : State) : (s.hwSet .txeIe v).rxen = s.rxen := rfl
@[simp] theorem State.hwSet_txeIe_txen (v : Bool) (s : State) : (s.hwSet .txeIe v).txen = s.txen := rfl
@[simp] theorem State.hwSet_txeIe_rxcIe (v : Bool) (s : State) : (s.hwSet .txeIe v).rxcIe = s.rxcIe := rfl
@[simp] theorem State.hwSet_txeIe_txeIe (v : Bool) (s : State) : (s.hwSet .txeIe v).txeIe = v := rfl
@[simp] theorem State.hwSet_txeIe_hwBaud (v : Bool) (s : State) : (s.hwSet .txeIe v).hwBaud = s.hwBaud := rfl
@[simp] theorem State.hwSet_txeIe_hwFrame (v : Bool) (s : State) : (s.hwSet .txeIe v).hwFrame = s.hwFrame := rfl
@[simp] theorem State.hwSet_txeIe_pinCfg (v : Bool) (s : State) : (s.hwSet .txeIe v).pinCfg = s.pinCfg := rfl
@[simp] theorem State.hwSet_txeIe_hwDre (v : Bool) (s : State) : (s.hwSet .txeIe v).hwDre = s.hwDre := rfl
@[simp] theorem State.hwSet_txeIe_hwTxc (v : Bool) (s : State) : (s.hwSet .txeIe v).hwTxc = s.hwTxc := rfl
@[simp] theorem State.hwSet_txeIe_hwRxc (v : Bool) (s : State) : (s.hwSet .txeIe v).hwRxc = s.hwRxc := rfl
@[simp] theorem State.hwSet_txeIe_hwRxdata (v : Bool) (s : State) : (s.hwSet .txeIe v).hwRxdata = s.hwRxdata := rfl
@[simp] theorem State.hwSet_txeIe_hwRxerr (v : Bool) (s : State) : (s.hwSet .txeIe v).hwRxerr = s.hwRxerr := rfl
@[simp] theorem State.hwSet_txeIe_hwTxdata (v : Bool) (s : State) : (s.hwSet .txeIe v).hwTxdata = s.hwTxdata := rfl
@[simp] theorem State.hwSet_txeIe_hwShiftBusy (v : Bool) (s : State) : (s.hwSet .txeIe v).hwShiftBusy = s.hwShiftBusy := rfl
@[simp] theorem State.hwSet_txeIe_hwShift (v : Bool) (s : State) : (s.hwSet .txeIe v).hwShift = s.hwShift := rfl
@[simp] theorem State.hwSet_txeIe_txLine (v : Bool) (s : State) : (s.hwSet .txeIe v).txLine = s.txLine := rfl
@[simp] theorem State.hwSet_txeIe_gie (v : Bool) (s : State) : (s.hwSet .txeIe v).gie = s.gie := rfl
@[simp] theorem State.hwSet_txeIe_faulted (v : Bool) (s : State) : (s.hwSet .txeIe v).faulted = s.faulted := rfl
@[simp] theorem State.hwSet_txeIe_schedule (v : Bool) (s : State) : (s.hwSet .txeIe v).schedule = s.schedule := rfl
@[simp] theorem State.hwSet_txeIe_draws (v : Bool) (s : State) : (s.hwSet .txeIe v).draws = s.draws := rfl

/-! ### `HwWriteTx(b)` -/
@[simp] theorem State.hwWriteTx_cfg (b : Byte) (s : State) : (s.hwWriteTx b).cfg = s.cfg := rfl
@[simp] theorem State.hwWriteTx_rx (b : Byte) (s : State) : (s.hwWriteTx b).rx = s.rx := rfl
@[simp] theorem State.hwWriteTx_tx (b : Byte) (s : State) : (s.hwWriteTx b).tx = s.tx := rfl
@[simp] theorem State.hwWriteTx_everWritten (b : Byte) (s : State) : (s.hwWriteTx b).everWritten = s.everWritten := rfl
@[simp] theorem State.hwWriteTx_configured (b : Byte) (s : State) : (s.hwWriteTx b).configured = s.configured := rfl
@[simp] theorem State.hwWriteTx_fgPc (b : Byte) (s : State) : (s.hwWriteTx b).fgPc = s.fgPc := rfl
@[simp] theorem State.hwWriteTx_fgOp (b : Byte) (s : State) : (s.hwWriteTx b).fgOp = s.fgOp := rfl
@[simp] theorem State.hwWriteTx_fgData (b : Byte) (s : State) : (s.hwWriteTx b).fgData = s.fgData := rfl
@[simp] theorem State.hwWriteTx_fgBaud (b : Byte) (s : State) : (s.hwWriteTx b).fgBaud = s.fgBaud := rfl
@[simp] theorem State.hwWriteTx_fgFrame (b : Byte) (s : State) : (s.hwWriteTx b).fgFrame = s.fgFrame := rfl
@[simp] theorem State.hwWriteTx_rspLog (b : Byte) (s : State) : (s.hwWriteTx b).rspLog = s.rspLog := rfl
@[simp] theorem State.hwWriteTx_rxen (b : Byte) (s : State) : (s.hwWriteTx b).rxen = s.rxen := rfl
@[simp] theorem State.hwWriteTx_txen (b : Byte) (s : State) : (s.hwWriteTx b).txen = s.txen := rfl
@[simp] theorem State.hwWriteTx_rxcIe (b : Byte) (s : State) : (s.hwWriteTx b).rxcIe = s.rxcIe := rfl
@[simp] theorem State.hwWriteTx_txeIe (b : Byte) (s : State) : (s.hwWriteTx b).txeIe = s.txeIe := rfl
@[simp] theorem State.hwWriteTx_hwBaud (b : Byte) (s : State) : (s.hwWriteTx b).hwBaud = s.hwBaud := rfl
@[simp] theorem State.hwWriteTx_hwFrame (b : Byte) (s : State) : (s.hwWriteTx b).hwFrame = s.hwFrame := rfl
@[simp] theorem State.hwWriteTx_pinCfg (b : Byte) (s : State) : (s.hwWriteTx b).pinCfg = s.pinCfg := rfl
@[simp] theorem State.hwWriteTx_hwDre (b : Byte) (s : State) : (s.hwWriteTx b).hwDre = false := rfl
@[simp] theorem State.hwWriteTx_hwTxc (b : Byte) (s : State) : (s.hwWriteTx b).hwTxc = s.hwTxc := rfl
@[simp] theorem State.hwWriteTx_hwRxc (b : Byte) (s : State) : (s.hwWriteTx b).hwRxc = s.hwRxc := rfl
@[simp] theorem State.hwWriteTx_hwRxdata (b : Byte) (s : State) : (s.hwWriteTx b).hwRxdata = s.hwRxdata := rfl
@[simp] theorem State.hwWriteTx_hwRxerr (b : Byte) (s : State) : (s.hwWriteTx b).hwRxerr = s.hwRxerr := rfl
@[simp] theorem State.hwWriteTx_hwTxdata (b : Byte) (s : State) : (s.hwWriteTx b).hwTxdata = b := rfl
@[simp] theorem State.hwWriteTx_hwShiftBusy (b : Byte) (s : State) : (s.hwWriteTx b).hwShiftBusy = s.hwShiftBusy := rfl
@[simp] theorem State.hwWriteTx_hwShift (b : Byte) (s : State) : (s.hwWriteTx b).hwShift = s.hwShift := rfl
@[simp] theorem State.hwWriteTx_txLine (b : Byte) (s : State) : (s.hwWriteTx b).txLine = s.txLine := rfl
@[simp] theorem State.hwWriteTx_gie (b : Byte) (s : State) : (s.hwWriteTx b).gie = s.gie := rfl
@[simp] theorem State.hwWriteTx_faulted (b : Byte) (s : State) : (s.hwWriteTx b).faulted = s.faulted := rfl
@[simp] theorem State.hwWriteTx_schedule (b : Byte) (s : State) : (s.hwWriteTx b).schedule = s.schedule := rfl
@[simp] theorem State.hwWriteTx_draws (b : Byte) (s : State) : (s.hwWriteTx b).draws = s.draws := rfl

/-! ### `HwClearTxc()` -/
@[simp] theorem State.hwClearTxc_cfg (s : State) : (s.hwClearTxc).cfg = s.cfg := rfl
@[simp] theorem State.hwClearTxc_rx (s : State) : (s.hwClearTxc).rx = s.rx := rfl
@[simp] theorem State.hwClearTxc_tx (s : State) : (s.hwClearTxc).tx = s.tx := rfl
@[simp] theorem State.hwClearTxc_everWritten (s : State) : (s.hwClearTxc).everWritten = s.everWritten := rfl
@[simp] theorem State.hwClearTxc_configured (s : State) : (s.hwClearTxc).configured = s.configured := rfl
@[simp] theorem State.hwClearTxc_fgPc (s : State) : (s.hwClearTxc).fgPc = s.fgPc := rfl
@[simp] theorem State.hwClearTxc_fgOp (s : State) : (s.hwClearTxc).fgOp = s.fgOp := rfl
@[simp] theorem State.hwClearTxc_fgData (s : State) : (s.hwClearTxc).fgData = s.fgData := rfl
@[simp] theorem State.hwClearTxc_fgBaud (s : State) : (s.hwClearTxc).fgBaud = s.fgBaud := rfl
@[simp] theorem State.hwClearTxc_fgFrame (s : State) : (s.hwClearTxc).fgFrame = s.fgFrame := rfl
@[simp] theorem State.hwClearTxc_rspLog (s : State) : (s.hwClearTxc).rspLog = s.rspLog := rfl
@[simp] theorem State.hwClearTxc_rxen (s : State) : (s.hwClearTxc).rxen = s.rxen := rfl
@[simp] theorem State.hwClearTxc_txen (s : State) : (s.hwClearTxc).txen = s.txen := rfl
@[simp] theorem State.hwClearTxc_rxcIe (s : State) : (s.hwClearTxc).rxcIe = s.rxcIe := rfl
@[simp] theorem State.hwClearTxc_txeIe (s : State) : (s.hwClearTxc).txeIe = s.txeIe := rfl
@[simp] theorem State.hwClearTxc_hwBaud (s : State) : (s.hwClearTxc).hwBaud = s.hwBaud := rfl
@[simp] theorem State.hwClearTxc_hwFrame (s : State) : (s.hwClearTxc).hwFrame = s.hwFrame := rfl
@[simp] theorem State.hwClearTxc_pinCfg (s : State) : (s.hwClearTxc).pinCfg = s.pinCfg := rfl
@[simp] theorem State.hwClearTxc_hwDre (s : State) : (s.hwClearTxc).hwDre = s.hwDre := rfl
@[simp] theorem State.hwClearTxc_hwTxc (s : State) : (s.hwClearTxc).hwTxc = false := rfl
@[simp] theorem State.hwClearTxc_hwRxc (s : State) : (s.hwClearTxc).hwRxc = s.hwRxc := rfl
@[simp] theorem State.hwClearTxc_hwRxdata (s : State) : (s.hwClearTxc).hwRxdata = s.hwRxdata := rfl
@[simp] theorem State.hwClearTxc_hwRxerr (s : State) : (s.hwClearTxc).hwRxerr = s.hwRxerr := rfl
@[simp] theorem State.hwClearTxc_hwTxdata (s : State) : (s.hwClearTxc).hwTxdata = s.hwTxdata := rfl
@[simp] theorem State.hwClearTxc_hwShiftBusy (s : State) : (s.hwClearTxc).hwShiftBusy = s.hwShiftBusy := rfl
@[simp] theorem State.hwClearTxc_hwShift (s : State) : (s.hwClearTxc).hwShift = s.hwShift := rfl
@[simp] theorem State.hwClearTxc_txLine (s : State) : (s.hwClearTxc).txLine = s.txLine := rfl
@[simp] theorem State.hwClearTxc_gie (s : State) : (s.hwClearTxc).gie = s.gie := rfl
@[simp] theorem State.hwClearTxc_faulted (s : State) : (s.hwClearTxc).faulted = s.faulted := rfl
@[simp] theorem State.hwClearTxc_schedule (s : State) : (s.hwClearTxc).schedule = s.schedule := rfl
@[simp] theorem State.hwClearTxc_draws (s : State) : (s.hwClearTxc).draws = s.draws := rfl

/-! ### `HwReadRx()` -/
@[simp] theorem State.hwReadRx_cfg (s : State) : (s.hwReadRx).cfg = s.cfg := rfl
@[simp] theorem State.hwReadRx_rx (s : State) : (s.hwReadRx).rx = s.rx := rfl
@[simp] theorem State.hwReadRx_tx (s : State) : (s.hwReadRx).tx = s.tx := rfl
@[simp] theorem State.hwReadRx_everWritten (s : State) : (s.hwReadRx).everWritten = s.everWritten := rfl
@[simp] theorem State.hwReadRx_configured (s : State) : (s.hwReadRx).configured = s.configured := rfl
@[simp] theorem State.hwReadRx_fgPc (s : State) : (s.hwReadRx).fgPc = s.fgPc := rfl
@[simp] theorem State.hwReadRx_fgOp (s : State) : (s.hwReadRx).fgOp = s.fgOp := rfl
@[simp] theorem State.hwReadRx_fgData (s : State) : (s.hwReadRx).fgData = s.fgData := rfl
@[simp] theorem State.hwReadRx_fgBaud (s : State) : (s.hwReadRx).fgBaud = s.fgBaud := rfl
@[simp] theorem State.hwReadRx_fgFrame (s : State) : (s.hwReadRx).fgFrame = s.fgFrame := rfl
@[simp] theorem State.hwReadRx_rspLog (s : State) : (s.hwReadRx).rspLog = s.rspLog := rfl
@[simp] theorem State.hwReadRx_rxen (s : State) : (s.hwReadRx).rxen = s.rxen := rfl
@[simp] theorem State.hwReadRx_txen (s : State) : (s.hwReadRx).txen = s.txen := rfl
@[simp] theorem State.hwReadRx_rxcIe (s : State) : (s.hwReadRx).rxcIe = s.rxcIe := rfl
@[simp] theorem State.hwReadRx_txeIe (s : State) : (s.hwReadRx).txeIe = s.txeIe := rfl
@[simp] theorem State.hwReadRx_hwBaud (s : State) : (s.hwReadRx).hwBaud = s.hwBaud := rfl
@[simp] theorem State.hwReadRx_hwFrame (s : State) : (s.hwReadRx).hwFrame = s.hwFrame := rfl
@[simp] theorem State.hwReadRx_pinCfg (s : State) : (s.hwReadRx).pinCfg = s.pinCfg := rfl
@[simp] theorem State.hwReadRx_hwDre (s : State) : (s.hwReadRx).hwDre = s.hwDre := rfl
@[simp] theorem State.hwReadRx_hwTxc (s : State) : (s.hwReadRx).hwTxc = s.hwTxc := rfl
@[simp] theorem State.hwReadRx_hwRxc (s : State) : (s.hwReadRx).hwRxc = false := rfl
@[simp] theorem State.hwReadRx_hwRxdata (s : State) : (s.hwReadRx).hwRxdata = s.hwRxdata := rfl
@[simp] theorem State.hwReadRx_hwRxerr (s : State) : (s.hwReadRx).hwRxerr = s.hwRxerr := rfl
@[simp] theorem State.hwReadRx_hwTxdata (s : State) : (s.hwReadRx).hwTxdata = s.hwTxdata := rfl
@[simp] theorem State.hwReadRx_hwShiftBusy (s : State) : (s.hwReadRx).hwShiftBusy = s.hwShiftBusy := rfl
@[simp] theorem State.hwReadRx_hwShift (s : State) : (s.hwReadRx).hwShift = s.hwShift := rfl
@[simp] theorem State.hwReadRx_txLine (s : State) : (s.hwReadRx).txLine = s.txLine := rfl
@[simp] theorem State.hwReadRx_gie (s : State) : (s.hwReadRx).gie = s.gie := rfl
@[simp] theorem State.hwReadRx_faulted (s : State) : (s.hwReadRx).faulted = s.faulted := rfl
@[simp] theorem State.hwReadRx_schedule (s : State) : (s.hwReadRx).schedule = s.schedule := rfl
@[simp] theorem State.hwReadRx_draws (s : State) : (s.hwReadRx).draws = s.draws := rfl

/-! ### `HwSetBaud(v)` -/
@[simp] theorem State.hwSetBaud_cfg (v : Int) (s : State) : (s.hwSetBaud v).cfg = s.cfg := rfl
@[simp] theorem State.hwSetBaud_rx (v : Int) (s : State) : (s.hwSetBaud v).rx = s.rx := rfl
@[simp] theorem State.hwSetBaud_tx (v : Int) (s : State) : (s.hwSetBaud v).tx = s.tx := rfl
@[simp] theorem State.hwSetBaud_everWritten (v : Int) (s : State) : (s.hwSetBaud v).everWritten = s.everWritten := rfl
@[simp] theorem State.hwSetBaud_configured (v : Int) (s : State) : (s.hwSetBaud v).configured = s.configured := rfl
@[simp] theorem State.hwSetBaud_fgPc (v : Int) (s : State) : (s.hwSetBaud v).fgPc = s.fgPc := rfl
@[simp] theorem State.hwSetBaud_fgOp (v : Int) (s : State) : (s.hwSetBaud v).fgOp = s.fgOp := rfl
@[simp] theorem State.hwSetBaud_fgData (v : Int) (s : State) : (s.hwSetBaud v).fgData = s.fgData := rfl
@[simp] theorem State.hwSetBaud_fgBaud (v : Int) (s : State) : (s.hwSetBaud v).fgBaud = s.fgBaud := rfl
@[simp] theorem State.hwSetBaud_fgFrame (v : Int) (s : State) : (s.hwSetBaud v).fgFrame = s.fgFrame := rfl
@[simp] theorem State.hwSetBaud_rspLog (v : Int) (s : State) : (s.hwSetBaud v).rspLog = s.rspLog := rfl
@[simp] theorem State.hwSetBaud_rxen (v : Int) (s : State) : (s.hwSetBaud v).rxen = s.rxen := rfl
@[simp] theorem State.hwSetBaud_txen (v : Int) (s : State) : (s.hwSetBaud v).txen = s.txen := rfl
@[simp] theorem State.hwSetBaud_rxcIe (v : Int) (s : State) : (s.hwSetBaud v).rxcIe = s.rxcIe := rfl
@[simp] theorem State.hwSetBaud_txeIe (v : Int) (s : State) : (s.hwSetBaud v).txeIe = s.txeIe := rfl
@[simp] theorem State.hwSetBaud_hwBaud (v : Int) (s : State) : (s.hwSetBaud v).hwBaud = v := rfl
@[simp] theorem State.hwSetBaud_hwFrame (v : Int) (s : State) : (s.hwSetBaud v).hwFrame = s.hwFrame := rfl
@[simp] theorem State.hwSetBaud_pinCfg (v : Int) (s : State) : (s.hwSetBaud v).pinCfg = s.pinCfg := rfl
@[simp] theorem State.hwSetBaud_hwDre (v : Int) (s : State) : (s.hwSetBaud v).hwDre = s.hwDre := rfl
@[simp] theorem State.hwSetBaud_hwTxc (v : Int) (s : State) : (s.hwSetBaud v).hwTxc = s.hwTxc := rfl
@[simp] theorem State.hwSetBaud_hwRxc (v : Int) (s : State) : (s.hwSetBaud v).hwRxc = s.hwRxc := rfl
@[simp] theorem State.hwSetBaud_hwRxdata (v : Int) (s : State) : (s.hwSetBaud v).hwRxdata = s.hwRxdata := rfl
@[simp] theorem State.hwSetBaud_hwRxerr (v : Int) (s : State) : (s.hwSetBaud v).hwRxerr = s.hwRxerr := rfl
@[simp] theorem State.hwSetBaud_hwTxdata (v : Int) (s : State) : (s.hwSetBaud v).hwTxdata = s.hwTxdata := rfl
@[simp] theorem State.hwSetBaud_hwShiftBusy (v : Int) (s : State) : (s.hwSetBaud v).hwShiftBusy = s.hwShiftBusy := rfl
@[simp] theorem State.hwSetBaud_hwShift (v : Int) (s : State) : (s.hwSetBaud v).hwShift = s.hwShift := rfl
@[simp] theorem State.hwSetBaud_txLine (v : Int) (s : State) : (s.hwSetBaud v).txLine = s.txLine := rfl
@[simp] theorem State.hwSetBaud_gie (v : Int) (s : State) : (s.hwSetBaud v).gie = s.gie := rfl
@[simp] theorem State.hwSetBaud_faulted (v : Int) (s : State) : (s.hwSetBaud v).faulted = s.faulted := rfl
@[simp] theorem State.hwSetBaud_schedule (v : Int) (s : State) : (s.hwSetBaud v).schedule = s.schedule := rfl
@[simp] theorem State.hwSetBaud_draws (v : Int) (s : State) : (s.hwSetBaud v).draws = s.draws := rfl

/-! ### `HwSetFrame(v)` -/
@[simp] theorem State.hwSetFrame_cfg (v : BitVec 16) (s : State) : (s.hwSetFrame v).cfg = s.cfg := rfl
@[simp] theorem State.hwSetFrame_rx (v : BitVec 16) (s : State) : (s.hwSetFrame v).rx = s.rx := rfl
@[simp] theorem State.hwSetFrame_tx (v : BitVec 16) (s : State) : (s.hwSetFrame v).tx = s.tx := rfl
@[simp] theorem State.hwSetFrame_everWritten (v : BitVec 16) (s : State) : (s.hwSetFrame v).everWritten = s.everWritten := rfl
@[simp] theorem State.hwSetFrame_configured (v : BitVec 16) (s : State) : (s.hwSetFrame v).configured = s.configured := rfl
@[simp] theorem State.hwSetFrame_fgPc (v : BitVec 16) (s : State) : (s.hwSetFrame v).fgPc = s.fgPc := rfl
@[simp] theorem State.hwSetFrame_fgOp (v : BitVec 16) (s : State) : (s.hwSetFrame v).fgOp = s.fgOp := rfl
@[simp] theorem State.hwSetFrame_fgData (v : BitVec 16) (s : State) : (s.hwSetFrame v).fgData = s.fgData := rfl
@[simp] theorem State.hwSetFrame_fgBaud (v : BitVec 16) (s : State) : (s.hwSetFrame v).fgBaud = s.fgBaud := rfl
@[simp] theorem State.hwSetFrame_fgFrame (v : BitVec 16) (s : State) : (s.hwSetFrame v).fgFrame = s.fgFrame := rfl
@[simp] theorem State.hwSetFrame_rspLog (v : BitVec 16) (s : State) : (s.hwSetFrame v).rspLog = s.rspLog := rfl
@[simp] theorem State.hwSetFrame_rxen (v : BitVec 16) (s : State) : (s.hwSetFrame v).rxen = s.rxen := rfl
@[simp] theorem State.hwSetFrame_txen (v : BitVec 16) (s : State) : (s.hwSetFrame v).txen = s.txen := rfl
@[simp] theorem State.hwSetFrame_rxcIe (v : BitVec 16) (s : State) : (s.hwSetFrame v).rxcIe = s.rxcIe := rfl
@[simp] theorem State.hwSetFrame_txeIe (v : BitVec 16) (s : State) : (s.hwSetFrame v).txeIe = s.txeIe := rfl
@[simp] theorem State.hwSetFrame_hwBaud (v : BitVec 16) (s : State) : (s.hwSetFrame v).hwBaud = s.hwBaud := rfl
@[simp] theorem State.hwSetFrame_hwFrame (v : BitVec 16) (s : State) : (s.hwSetFrame v).hwFrame = v := rfl
@[simp] theorem State.hwSetFrame_pinCfg (v : BitVec 16) (s : State) : (s.hwSetFrame v).pinCfg = s.pinCfg := rfl
@[simp] theorem State.hwSetFrame_hwDre (v : BitVec 16) (s : State) : (s.hwSetFrame v).hwDre = s.hwDre := rfl
@[simp] theorem State.hwSetFrame_hwTxc (v : BitVec 16) (s : State) : (s.hwSetFrame v).hwTxc = s.hwTxc := rfl
@[simp] theorem State.hwSetFrame_hwRxc (v : BitVec 16) (s : State) : (s.hwSetFrame v).hwRxc = s.hwRxc := rfl
@[simp] theorem State.hwSetFrame_hwRxdata (v : BitVec 16) (s : State) : (s.hwSetFrame v).hwRxdata = s.hwRxdata := rfl
@[simp] theorem State.hwSetFrame_hwRxerr (v : BitVec 16) (s : State) : (s.hwSetFrame v).hwRxerr = s.hwRxerr := rfl
@[simp] theorem State.hwSetFrame_hwTxdata (v : BitVec 16) (s : State) : (s.hwSetFrame v).hwTxdata = s.hwTxdata := rfl
@[simp] theorem State.hwSetFrame_hwShiftBusy (v : BitVec 16) (s : State) : (s.hwSetFrame v).hwShiftBusy = s.hwShiftBusy := rfl
@[simp] theorem State.hwSetFrame_hwShift (v : BitVec 16) (s : State) : (s.hwSetFrame v).hwShift = s.hwShift := rfl
@[simp] theorem State.hwSetFrame_txLine (v : BitVec 16) (s : State) : (s.hwSetFrame v).txLine = s.txLine := rfl
@[simp] theorem State.hwSetFrame_gie (v : BitVec 16) (s : State) : (s.hwSetFrame v).gie = s.gie := rfl
@[simp] theorem State.hwSetFrame_faulted (v : BitVec 16) (s : State) : (s.hwSetFrame v).faulted = s.faulted := rfl
@[simp] theorem State.hwSetFrame_schedule (v : BitVec 16) (s : State) : (s.hwSetFrame v).schedule = s.schedule := rfl
@[simp] theorem State.hwSetFrame_draws (v : BitVec 16) (s : State) : (s.hwSetFrame v).draws = s.draws := rfl

/-! ### `PinSetup()` -/
@[simp] theorem State.pinSetup_cfg (s : State) : (s.pinSetup).cfg = s.cfg := rfl
@[simp] theorem State.pinSetup_rx (s : State) : (s.pinSetup).rx = s.rx := rfl
@[simp] theorem State.pinSetup_tx (s : State) : (s.pinSetup).tx = s.tx := rfl
@[simp] theorem State.pinSetup_everWritten (s : State) : (s.pinSetup).everWritten = s.everWritten := rfl
@[simp] theorem State.pinSetup_configured (s : State) : (s.pinSetup).configured = s.configured := rfl
@[simp] theorem State.pinSetup_fgPc (s : State) : (s.pinSetup).fgPc = s.fgPc := rfl
@[simp] theorem State.pinSetup_fgOp (s : State) : (s.pinSetup).fgOp = s.fgOp := rfl
@[simp] theorem State.pinSetup_fgData (s : State) : (s.pinSetup).fgData = s.fgData := rfl
@[simp] theorem State.pinSetup_fgBaud (s : State) : (s.pinSetup).fgBaud = s.fgBaud := rfl
@[simp] theorem State.pinSetup_fgFrame (s : State) : (s.pinSetup).fgFrame = s.fgFrame := rfl
@[simp] theorem State.pinSetup_rspLog (s : State) : (s.pinSetup).rspLog = s.rspLog := rfl
@[simp] theorem State.pinSetup_rxen (s : State) : (s.pinSetup).rxen = s.rxen := rfl
@[simp] theorem State.pinSetup_txen (s : State) : (s.pinSetup).txen = s.txen := rfl
@[simp] theorem State.pinSetup_rxcIe (s : State) : (s.pinSetup).rxcIe = s.rxcIe := rfl
@[simp] theorem State.pinSetup_txeIe (s : State) : (s.pinSetup).txeIe = s.txeIe := rfl
@[simp] theorem State.pinSetup_hwBaud (s : State) : (s.pinSetup).hwBaud = s.hwBaud := rfl
@[simp] theorem State.pinSetup_hwFrame (s : State) : (s.pinSetup).hwFrame = s.hwFrame := rfl
@[simp] theorem State.pinSetup_pinCfg (s : State) : (s.pinSetup).pinCfg = true := rfl
@[simp] theorem State.pinSetup_hwDre (s : State) : (s.pinSetup).hwDre = s.hwDre := rfl
@[simp] theorem State.pinSetup_hwTxc (s : State) : (s.pinSetup).hwTxc = s.hwTxc := rfl
@[simp] theorem State.pinSetup_hwRxc (s : State) : (s.pinSetup).hwRxc = s.hwRxc := rfl
@[simp] theorem State.pinSetup_hwRxdata (s : State) : (s.pinSetup).hwRxdata = s.hwRxdata := rfl
@[simp] theorem State.pinSetup_hwRxerr (s : State) : (s.pinSetup).hwRxerr = s.hwRxerr := rfl
@[simp] theorem State.pinSetup_hwTxdata (s : State) : (s.pinSetup).hwTxdata = s.hwTxdata := rfl
@[simp] theorem State.pinSetup_hwShiftBusy (s : State) : (s.pinSetup).hwShiftBusy = s.hwShiftBusy := rfl
@[simp] theorem State.pinSetup_hwShift (s : State) : (s.pinSetup).hwShift = s.hwShift := rfl
@[simp] theorem State.pinSetup_txLine (s : State) : (s.pinSetup).txLine = s.txLine := rfl
@[simp] theorem State.pinSetup_gie (s : State) : (s.pinSetup).gie = s.gie := rfl
@[simp] theorem State.pinSetup_faulted (s : State) : (s.pinSetup).faulted = s.faulted := rfl
@[simp] theorem State.pinSetup_schedule (s : State) : (s.pinSetup).schedule = s.schedule := rfl
@[simp] theorem State.pinSetup_draws (s : State) : (s.pinSetup).draws = s.draws := rfl

/-! ### `raise Fault(code)` (60_exceptions.md R285) -/
@[simp] theorem raiseFault_cfg (c : FaultCode) (s : State) : (raiseFault c s).cfg = s.cfg := rfl
@[simp] theorem raiseFault_rx (c : FaultCode) (s : State) : (raiseFault c s).rx = s.rx := rfl
@[simp] theorem raiseFault_tx (c : FaultCode) (s : State) : (raiseFault c s).tx = s.tx := rfl
@[simp] theorem raiseFault_everWritten (c : FaultCode) (s : State) : (raiseFault c s).everWritten = s.everWritten := rfl
@[simp] theorem raiseFault_configured (c : FaultCode) (s : State) : (raiseFault c s).configured = s.configured := rfl
@[simp] theorem raiseFault_fgPc (c : FaultCode) (s : State) : (raiseFault c s).fgPc = s.fgPc := rfl
@[simp] theorem raiseFault_fgOp (c : FaultCode) (s : State) : (raiseFault c s).fgOp = s.fgOp := rfl
@[simp] theorem raiseFault_fgData (c : FaultCode) (s : State) : (raiseFault c s).fgData = s.fgData := rfl
@[simp] theorem raiseFault_fgBaud (c : FaultCode) (s : State) : (raiseFault c s).fgBaud = s.fgBaud := rfl
@[simp] theorem raiseFault_fgFrame (c : FaultCode) (s : State) : (raiseFault c s).fgFrame = s.fgFrame := rfl
@[simp] theorem raiseFault_rspLog (c : FaultCode) (s : State) : (raiseFault c s).rspLog = s.rspLog := rfl
@[simp] theorem raiseFault_rxen (c : FaultCode) (s : State) : (raiseFault c s).rxen = s.rxen := rfl
@[simp] theorem raiseFault_txen (c : FaultCode) (s : State) : (raiseFault c s).txen = s.txen := rfl
@[simp] theorem raiseFault_rxcIe (c : FaultCode) (s : State) : (raiseFault c s).rxcIe = s.rxcIe := rfl
@[simp] theorem raiseFault_txeIe (c : FaultCode) (s : State) : (raiseFault c s).txeIe = s.txeIe := rfl
@[simp] theorem raiseFault_hwBaud (c : FaultCode) (s : State) : (raiseFault c s).hwBaud = s.hwBaud := rfl
@[simp] theorem raiseFault_hwFrame (c : FaultCode) (s : State) : (raiseFault c s).hwFrame = s.hwFrame := rfl
@[simp] theorem raiseFault_pinCfg (c : FaultCode) (s : State) : (raiseFault c s).pinCfg = s.pinCfg := rfl
@[simp] theorem raiseFault_hwDre (c : FaultCode) (s : State) : (raiseFault c s).hwDre = s.hwDre := rfl
@[simp] theorem raiseFault_hwTxc (c : FaultCode) (s : State) : (raiseFault c s).hwTxc = s.hwTxc := rfl
@[simp] theorem raiseFault_hwRxc (c : FaultCode) (s : State) : (raiseFault c s).hwRxc = s.hwRxc := rfl
@[simp] theorem raiseFault_hwRxdata (c : FaultCode) (s : State) : (raiseFault c s).hwRxdata = s.hwRxdata := rfl
@[simp] theorem raiseFault_hwRxerr (c : FaultCode) (s : State) : (raiseFault c s).hwRxerr = s.hwRxerr := rfl
@[simp] theorem raiseFault_hwTxdata (c : FaultCode) (s : State) : (raiseFault c s).hwTxdata = s.hwTxdata := rfl
@[simp] theorem raiseFault_hwShiftBusy (c : FaultCode) (s : State) : (raiseFault c s).hwShiftBusy = s.hwShiftBusy := rfl
@[simp] theorem raiseFault_hwShift (c : FaultCode) (s : State) : (raiseFault c s).hwShift = s.hwShift := rfl
@[simp] theorem raiseFault_txLine (c : FaultCode) (s : State) : (raiseFault c s).txLine = s.txLine := rfl
@[simp] theorem raiseFault_gie (c : FaultCode) (s : State) : (raiseFault c s).gie = s.gie := rfl
@[simp] theorem raiseFault_faulted (c : FaultCode) (s : State) : (raiseFault c s).faulted = some c := rfl
@[simp] theorem raiseFault_schedule (c : FaultCode) (s : State) : (raiseFault c s).schedule = s.schedule := rfl
@[simp] theorem raiseFault_draws (c : FaultCode) (s : State) : (raiseFault c s).draws = s.draws := rfl

/-! ### `ENV.TX_LOAD` -/
@[simp] theorem envTxLoad_cfg (s : State) : (envTxLoad s).cfg = s.cfg := rfl
@[simp] theorem envTxLoad_rx (s : State) : (envTxLoad s).rx = s.rx := rfl
@[simp] theorem envTxLoad_tx (s : State) : (envTxLoad s).tx = s.tx := rfl
@[simp] theorem envTxLoad_everWritten (s : State) : (envTxLoad s).everWritten = s.everWritten := rfl
@[simp] theorem envTxLoad_configured (s : State) : (envTxLoad s).configured = s.configured := rfl
@[simp] theorem envTxLoad_fgPc (s : State) : (envTxLoad s).fgPc = s.fgPc := rfl
@[simp] theorem envTxLoad_fgOp (s : State) : (envTxLoad s).fgOp = s.fgOp := rfl
@[simp] theorem envTxLoad_fgData (s : State) : (envTxLoad s).fgData = s.fgData := rfl
@[simp] theorem envTxLoad_fgBaud (s : State) : (envTxLoad s).fgBaud = s.fgBaud := rfl
@[simp] theorem envTxLoad_fgFrame (s : State) : (envTxLoad s).fgFrame = s.fgFrame := rfl
@[simp] theorem envTxLoad_rspLog (s : State) : (envTxLoad s).rspLog = s.rspLog := rfl
@[simp] theorem envTxLoad_rxen (s : State) : (envTxLoad s).rxen = s.rxen := rfl
@[simp] theorem envTxLoad_txen (s : State) : (envTxLoad s).txen = s.txen := rfl
@[simp] theorem envTxLoad_rxcIe (s : State) : (envTxLoad s).rxcIe = s.rxcIe := rfl
@[simp] theorem envTxLoad_txeIe (s : State) : (envTxLoad s).txeIe = s.txeIe := rfl
@[simp] theorem envTxLoad_hwBaud (s : State) : (envTxLoad s).hwBaud = s.hwBaud := rfl
@[simp] theorem envTxLoad_hwFrame (s : State) : (envTxLoad s).hwFrame = s.hwFrame := rfl
@[simp] theorem envTxLoad_pinCfg (s : State) : (envTxLoad s).pinCfg = s.pinCfg := rfl
@[simp] theorem envTxLoad_hwDre (s : State) : (envTxLoad s).hwDre = true := rfl
@[simp] theorem envTxLoad_hwTxc (s : State) : (envTxLoad s).hwTxc = s.hwTxc := rfl
@[simp] theorem envTxLoad_hwRxc (s : State) : (envTxLoad s).hwRxc = s.hwRxc := rfl
@[simp] theorem envTxLoad_hwRxdata (s : State) : (envTxLoad s).hwRxdata = s.hwRxdata := rfl
@[simp] theorem envTxLoad_hwRxerr (s : State) : (envTxLoad s).hwRxerr = s.hwRxerr := rfl
@[simp] theorem envTxLoad_hwTxdata (s : State) : (envTxLoad s).hwTxdata = s.hwTxdata := rfl
@[simp] theorem envTxLoad_hwShiftBusy (s : State) : (envTxLoad s).hwShiftBusy = true := rfl
@[simp] theorem envTxLoad_hwShift (s : State) : (envTxLoad s).hwShift = s.hwTxdata := rfl
@[simp] theorem envTxLoad_txLine (s : State) : (envTxLoad s).txLine = s.txLine := rfl
@[simp] theorem envTxLoad_gie (s : State) : (envTxLoad s).gie = s.gie := rfl
@[simp] theorem envTxLoad_faulted (s : State) : (envTxLoad s).faulted = s.faulted := rfl
@[simp] theorem envTxLoad_schedule (s : State) : (envTxLoad s).schedule = s.schedule := rfl
@[simp] theorem envTxLoad_draws (s : State) : (envTxLoad s).draws = s.draws := rfl

/-! ### `ENV.TX_DONE` -/
@[simp] theorem envTxDone_cfg (s : State) : (envTxDone s).cfg = s.cfg := rfl
@[simp] theorem envTxDone_rx (s : State) : (envTxDone s).rx = s.rx := rfl
@[simp] theorem envTxDone_tx (s : State) : (envTxDone s).tx = s.tx := rfl
@[simp] theorem envTxDone_everWritten (s : State) : (envTxDone s).everWritten = s.everWritten := rfl
@[simp] theorem envTxDone_configured (s : State) : (envTxDone s).configured = s.configured := rfl
@[simp] theorem envTxDone_fgPc (s : State) : (envTxDone s).fgPc = s.fgPc := rfl
@[simp] theorem envTxDone_fgOp (s : State) : (envTxDone s).fgOp = s.fgOp := rfl
@[simp] theorem envTxDone_fgData (s : State) : (envTxDone s).fgData = s.fgData := rfl
@[simp] theorem envTxDone_fgBaud (s : State) : (envTxDone s).fgBaud = s.fgBaud := rfl
@[simp] theorem envTxDone_fgFrame (s : State) : (envTxDone s).fgFrame = s.fgFrame := rfl
@[simp] theorem envTxDone_rspLog (s : State) : (envTxDone s).rspLog = s.rspLog := rfl
@[simp] theorem envTxDone_rxen (s : State) : (envTxDone s).rxen = s.rxen := rfl
@[simp] theorem envTxDone_txen (s : State) : (envTxDone s).txen = s.txen := rfl
@[simp] theorem envTxDone_rxcIe (s : State) : (envTxDone s).rxcIe = s.rxcIe := rfl
@[simp] theorem envTxDone_txeIe (s : State) : (envTxDone s).txeIe = s.txeIe := rfl
@[simp] theorem envTxDone_hwBaud (s : State) : (envTxDone s).hwBaud = s.hwBaud := rfl
@[simp] theorem envTxDone_hwFrame (s : State) : (envTxDone s).hwFrame = s.hwFrame := rfl
@[simp] theorem envTxDone_pinCfg (s : State) : (envTxDone s).pinCfg = s.pinCfg := rfl
@[simp] theorem envTxDone_hwDre (s : State) : (envTxDone s).hwDre = s.hwDre := rfl
@[simp] theorem envTxDone_hwTxc (s : State) : (envTxDone s).hwTxc = if s.hwDre then true else s.hwTxc := rfl
@[simp] theorem envTxDone_hwRxc (s : State) : (envTxDone s).hwRxc = s.hwRxc := rfl
@[simp] theorem envTxDone_hwRxdata (s : State) : (envTxDone s).hwRxdata = s.hwRxdata := rfl
@[simp] theorem envTxDone_hwRxerr (s : State) : (envTxDone s).hwRxerr = s.hwRxerr := rfl
@[simp] theorem envTxDone_hwTxdata (s : State) : (envTxDone s).hwTxdata = s.hwTxdata := rfl
@[simp] theorem envTxDone_hwShiftBusy (s : State) : (envTxDone s).hwShiftBusy = false := rfl
@[simp] theorem envTxDone_hwShift (s : State) : (envTxDone s).hwShift = s.hwShift := rfl
@[simp] theorem envTxDone_txLine (s : State) : (envTxDone s).txLine = s.txLine ++ [s.hwShift] := rfl
@[simp] theorem envTxDone_gie (s : State) : (envTxDone s).gie = s.gie := rfl
@[simp] theorem envTxDone_faulted (s : State) : (envTxDone s).faulted = s.faulted := rfl
@[simp] theorem envTxDone_schedule (s : State) : (envTxDone s).schedule = s.schedule := rfl
@[simp] theorem envTxDone_draws (s : State) : (envTxDone s).draws = s.draws := rfl

/-! ### `ENV.RX_ARRIVE(b, e)` -/
@[simp] theorem envRxArrive_cfg (b : Byte) (e : Nat) (s : State) : (envRxArrive b e s).cfg = s.cfg := rfl
@[simp] theorem envRxArrive_rx (b : Byte) (e : Nat) (s : State) : (envRxArrive b e s).rx = s.rx := rfl
@[simp] theorem envRxArrive_tx (b : Byte) (e : Nat) (s : State) : (envRxArrive b e s).tx = s.tx := rfl
@[simp] theorem envRxArrive_everWritten (b : Byte) (e : Nat) (s : State) : (envRxArrive b e s).everWritten = s.everWritten := rfl
@[simp] theorem envRxArrive_configured (b : Byte) (e : Nat) (s : State) : (envRxArrive b e s).configured = s.configured := rfl
@[simp] theorem envRxArrive_fgPc (b : Byte) (e : Nat) (s : State) : (envRxArrive b e s).fgPc = s.fgPc := rfl
@[simp] theorem envRxArrive_fgOp (b : Byte) (e : Nat) (s : State) : (envRxArrive b e s).fgOp = s.fgOp := rfl
@[simp] theorem envRxArrive_fgData (b : Byte) (e : Nat) (s : State) : (envRxArrive b e s).fgData = s.fgData := rfl
@[simp] theorem envRxArrive_fgBaud (b : Byte) (e : Nat) (s : State) : (envRxArrive b e s).fgBaud = s.fgBaud := rfl
@[simp] theorem envRxArrive_fgFrame (b : Byte) (e : Nat) (s : State) : (envRxArrive b e s).fgFrame = s.fgFrame := rfl
@[simp] theorem envRxArrive_rspLog (b : Byte) (e : Nat) (s : State) : (envRxArrive b e s).rspLog = s.rspLog := rfl
@[simp] theorem envRxArrive_rxen (b : Byte) (e : Nat) (s : State) : (envRxArrive b e s).rxen = s.rxen := rfl
@[simp] theorem envRxArrive_txen (b : Byte) (e : Nat) (s : State) : (envRxArrive b e s).txen = s.txen := rfl
@[simp] theorem envRxArrive_rxcIe (b : Byte) (e : Nat) (s : State) : (envRxArrive b e s).rxcIe = s.rxcIe := rfl
@[simp] theorem envRxArrive_txeIe (b : Byte) (e : Nat) (s : State) : (envRxArrive b e s).txeIe = s.txeIe := rfl
@[simp] theorem envRxArrive_hwBaud (b : Byte) (e : Nat) (s : State) : (envRxArrive b e s).hwBaud = s.hwBaud := rfl
@[simp] theorem envRxArrive_hwFrame (b : Byte) (e : Nat) (s : State) : (envRxArrive b e s).hwFrame = s.hwFrame := rfl
@[simp] theorem envRxArrive_pinCfg (b : Byte) (e : Nat) (s : State) : (envRxArrive b e s).pinCfg = s.pinCfg := rfl
@[simp] theorem envRxArrive_hwDre (b : Byte) (e : Nat) (s : State) : (envRxArrive b e s).hwDre = s.hwDre := rfl
@[simp] theorem envRxArrive_hwTxc (b : Byte) (e : Nat) (s : State) : (envRxArrive b e s).hwTxc = s.hwTxc := rfl
@[simp] theorem envRxArrive_hwRxc (b : Byte) (e : Nat) (s : State) : (envRxArrive b e s).hwRxc = true := rfl
@[simp] theorem envRxArrive_hwRxdata (b : Byte) (e : Nat) (s : State) : (envRxArrive b e s).hwRxdata = b := rfl
@[simp] theorem envRxArrive_hwRxerr (b : Byte) (e : Nat) (s : State) : (envRxArrive b e s).hwRxerr = e := rfl
@[simp] theorem envRxArrive_hwTxdata (b : Byte) (e : Nat) (s : State) : (envRxArrive b e s).hwTxdata = s.hwTxdata := rfl
@[simp] theorem envRxArrive_hwShiftBusy (b : Byte) (e : Nat) (s : State) : (envRxArrive b e s).hwShiftBusy = s.hwShiftBusy := rfl
@[simp] theorem envRxArrive_hwShift (b : Byte) (e : Nat) (s : State) : (envRxArrive b e s).hwShift = s.hwShift := rfl
@[simp] theorem envRxArrive_txLine (b : Byte) (e : Nat) (s : State) : (envRxArrive b e s).txLine = s.txLine := rfl
@[simp] theorem envRxArrive_gie (b : Byte) (e : Nat) (s : State) : (envRxArrive b e s).gie = s.gie := rfl
@[simp] theorem envRxArrive_faulted (b : Byte) (e : Nat) (s : State) : (envRxArrive b e s).faulted = s.faulted := rfl
@[simp] theorem envRxArrive_schedule (b : Byte) (e : Nat) (s : State) : (envRxArrive b e s).schedule = s.schedule := rfl
@[simp] theorem envRxArrive_draws (b : Byte) (e : Nat) (s : State) : (envRxArrive b e s).draws = s.draws := rfl

/-! ### `ENV.RX_FLUSH` -/
@[simp] theorem envRxFlush_cfg (s : State) : (envRxFlush s).cfg = s.cfg := rfl
@[simp] theorem envRxFlush_rx (s : State) : (envRxFlush s).rx = s.rx := rfl
@[simp] theorem envRxFlush_tx (s : State) : (envRxFlush s).tx = s.tx := rfl
@[simp] theorem envRxFlush_everWritten (s : State) : (envRxFlush s).everWritten = s.everWritten := rfl
@[simp] theorem envRxFlush_configured (s : State) : (envRxFlush s).configured = s.configured := rfl
@[simp] theorem envRxFlush_fgPc (s : State) : (envRxFlush s).fgPc = s.fgPc := rfl
@[simp] theorem envRxFlush_fgOp (s : State) : (envRxFlush s).fgOp = s.fgOp := rfl
@[simp] theorem envRxFlush_fgData (s : State) : (envRxFlush s).fgData = s.fgData := rfl
@[simp] theorem envRxFlush_fgBaud (s : State) : (envRxFlush s).fgBaud = s.fgBaud := rfl
@[simp] theorem envRxFlush_fgFrame (s : State) : (envRxFlush s).fgFrame = s.fgFrame := rfl
@[simp] theorem envRxFlush_rspLog (s : State) : (envRxFlush s).rspLog = s.rspLog := rfl
@[simp] theorem envRxFlush_rxen (s : State) : (envRxFlush s).rxen = s.rxen := rfl
@[simp] theorem envRxFlush_txen (s : State) : (envRxFlush s).txen = s.txen := rfl
@[simp] theorem envRxFlush_rxcIe (s : State) : (envRxFlush s).rxcIe = s.rxcIe := rfl
@[simp] theorem envRxFlush_txeIe (s : State) : (envRxFlush s).txeIe = s.txeIe := rfl
@[simp] theorem envRxFlush_hwBaud (s : State) : (envRxFlush s).hwBaud = s.hwBaud := rfl
@[simp] theorem envRxFlush_hwFrame (s : State) : (envRxFlush s).hwFrame = s.hwFrame := rfl
@[simp] theorem envRxFlush_pinCfg (s : State) : (envRxFlush s).pinCfg = s.pinCfg := rfl
@[simp] theorem envRxFlush_hwDre (s : State) : (envRxFlush s).hwDre = s.hwDre := rfl
@[simp] theorem envRxFlush_hwTxc (s : State) : (envRxFlush s).hwTxc = s.hwTxc := rfl
@[simp] theorem envRxFlush_hwRxc (s : State) : (envRxFlush s).hwRxc = false := rfl
@[simp] theorem envRxFlush_hwRxdata (s : State) : (envRxFlush s).hwRxdata = s.hwRxdata := rfl
@[simp] theorem envRxFlush_hwRxerr (s : State) : (envRxFlush s).hwRxerr = s.hwRxerr := rfl
@[simp] theorem envRxFlush_hwTxdata (s : State) : (envRxFlush s).hwTxdata = s.hwTxdata := rfl
@[simp] theorem envRxFlush_hwShiftBusy (s : State) : (envRxFlush s).hwShiftBusy = s.hwShiftBusy := rfl
@[simp] theorem envRxFlush_hwShift (s : State) : (envRxFlush s).hwShift = s.hwShift := rfl
@[simp] theorem envRxFlush_txLine (s : State) : (envRxFlush s).txLine = s.txLine := rfl
@[simp] theorem envRxFlush_gie (s : State) : (envRxFlush s).gie = s.gie := rfl
@[simp] theorem envRxFlush_faulted (s : State) : (envRxFlush s).faulted = s.faulted := rfl
@[simp] theorem envRxFlush_schedule (s : State) : (envRxFlush s).schedule = s.schedule := rfl
@[simp] theorem envRxFlush_draws (s : State) : (envRxFlush s).draws = s.draws := rfl

/-! ### `HOST.SET_GIE(v)` -/
@[simp] theorem hostSetGie_cfg (v : Bool) (s : State) : (hostSetGie v s).cfg = s.cfg := rfl
@[simp] theorem hostSetGie_rx (v : Bool) (s : State) : (hostSetGie v s).rx = s.rx := rfl
@[simp] theorem hostSetGie_tx (v : Bool) (s : State) : (hostSetGie v s).tx = s.tx := rfl
@[simp] theorem hostSetGie_everWritten (v : Bool) (s : State) : (hostSetGie v s).everWritten = s.everWritten := rfl
@[simp] theorem hostSetGie_configured (v : Bool) (s : State) : (hostSetGie v s).configured = s.configured := rfl
@[simp] theorem hostSetGie_fgPc (v : Bool) (s : State) : (hostSetGie v s).fgPc = s.fgPc := rfl
@[simp] theorem hostSetGie_fgOp (v : Bool) (s : State) : (hostSetGie v s).fgOp = s.fgOp := rfl
@[simp] theorem hostSetGie_fgData (v : Bool) (s : State) : (hostSetGie v s).fgData = s.fgData := rfl
@[simp] theorem hostSetGie_fgBaud (v : Bool) (s : State) : (hostSetGie v s).fgBaud = s.fgBaud := rfl
@[simp] theorem hostSetGie_fgFrame (v : Bool) (s : State) : (hostSetGie v s).fgFrame = s.fgFrame := rfl
@[simp] theorem hostSetGie_rspLog (v : Bool) (s : State) : (hostSetGie v s).rspLog = s.rspLog := rfl
@[simp] theorem hostSetGie_rxen (v : Bool) (s : State) : (hostSetGie v s).rxen = s.rxen := rfl
@[simp] theorem hostSetGie_txen (v : Bool) (s : State) : (hostSetGie v s).txen = s.txen := rfl
@[simp] theorem hostSetGie_rxcIe (v : Bool) (s : State) : (hostSetGie v s).rxcIe = s.rxcIe := rfl
@[simp] theorem hostSetGie_txeIe (v : Bool) (s : State) : (hostSetGie v s).txeIe = s.txeIe := rfl
@[simp] theorem hostSetGie_hwBaud (v : Bool) (s : State) : (hostSetGie v s).hwBaud = s.hwBaud := rfl
@[simp] theorem hostSetGie_hwFrame (v : Bool) (s : State) : (hostSetGie v s).hwFrame = s.hwFrame := rfl
@[simp] theorem hostSetGie_pinCfg (v : Bool) (s : State) : (hostSetGie v s).pinCfg = s.pinCfg := rfl
@[simp] theorem hostSetGie_hwDre (v : Bool) (s : State) : (hostSetGie v s).hwDre = s.hwDre := rfl
@[simp] theorem hostSetGie_hwTxc (v : Bool) (s : State) : (hostSetGie v s).hwTxc = s.hwTxc := rfl
@[simp] theorem hostSetGie_hwRxc (v : Bool) (s : State) : (hostSetGie v s).hwRxc = s.hwRxc := rfl
@[simp] theorem hostSetGie_hwRxdata (v : Bool) (s : State) : (hostSetGie v s).hwRxdata = s.hwRxdata := rfl
@[simp] theorem hostSetGie_hwRxerr (v : Bool) (s : State) : (hostSetGie v s).hwRxerr = s.hwRxerr := rfl
@[simp] theorem hostSetGie_hwTxdata (v : Bool) (s : State) : (hostSetGie v s).hwTxdata = s.hwTxdata := rfl
@[simp] theorem hostSetGie_hwShiftBusy (v : Bool) (s : State) : (hostSetGie v s).hwShiftBusy = s.hwShiftBusy := rfl
@[simp] theorem hostSetGie_hwShift (v : Bool) (s : State) : (hostSetGie v s).hwShift = s.hwShift := rfl
@[simp] theorem hostSetGie_txLine (v : Bool) (s : State) : (hostSetGie v s).txLine = s.txLine := rfl
@[simp] theorem hostSetGie_gie (v : Bool) (s : State) : (hostSetGie v s).gie = v := rfl
@[simp] theorem hostSetGie_faulted (v : Bool) (s : State) : (hostSetGie v s).faulted = s.faulted := rfl
@[simp] theorem hostSetGie_schedule (v : Bool) (s : State) : (hostSetGie v s).schedule = s.schedule := rfl
@[simp] theorem hostSetGie_draws (v : Bool) (s : State) : (hostSetGie v s).draws = s.draws := rfl

/-! ### the draw of the next step -/
@[simp] theorem takeDraw_cfg (s : State) : (takeDraw s).cfg = s.cfg := by unfold takeDraw; split <;> rfl
@[simp] theorem takeDraw_rx (s : State) : (takeDraw s).rx = s.rx := by unfold takeDraw; split <;> rfl
@[simp] theorem takeDraw_tx (s : State) : (takeDraw s).tx = s.tx := by unfold takeDraw; split <;> rfl
@[simp] theorem takeDraw_everWritten (s : State) : (takeDraw s).everWritten = s.everWritten := by unfold takeDraw; split <;> rfl
@[simp] theorem takeDraw_configured (s : State) : (takeDraw s).configured = s.configured := by unfold takeDraw; split <;> rfl
@[simp] theorem takeDraw_fgPc (s : State) : (takeDraw s).fgPc = s.fgPc := by unfold takeDraw; split <;> rfl
@[simp] theorem takeDraw_fgOp (s : State) : (takeDraw s).fgOp = s.fgOp := by unfold takeDraw; split <;> rfl
@[simp] theorem takeDraw_fgData (s : State) : (takeDraw s).fgData = s.fgData := by unfold takeDraw; split <;> rfl
@[simp] theorem takeDraw_fgBaud (s : State) : (takeDraw s).fgBaud = s.fgBaud := by unfold takeDraw; split <;> rfl
@[simp] theorem takeDraw_fgFrame (s : State) : (takeDraw s).fgFrame = s.fgFrame := by unfold takeDraw; split <;> rfl
@[simp] theorem takeDraw_rspLog (s : State) : (takeDraw s).rspLog = s.rspLog := by unfold takeDraw; split <;> rfl
@[simp] theorem takeDraw_rxen (s : State) : (takeDraw s).rxen = s.rxen := by unfold takeDraw; split <;> rfl
@[simp] theorem takeDraw_txen (s : State) : (takeDraw s).txen = s.txen := by unfold takeDraw; split <;> rfl
@[simp] theorem takeDraw_rxcIe (s : State) : (takeDraw s).rxcIe = s.rxcIe := by unfold takeDraw; split <;> rfl
@[simp] theorem takeDraw_txeIe (s : State) : (takeDraw s).txeIe = s.txeIe := by unfold takeDraw; split <;> rfl
@[simp] theorem takeDraw_hwBaud (s : State) : (takeDraw s).hwBaud = s.hwBaud := by unfold takeDraw; split <;> rfl
@[simp] theorem takeDraw_hwFrame (s : State) : (takeDraw s).hwFrame = s.hwFrame := by unfold takeDraw; split <;> rfl
@[simp] theorem takeDraw_pinCfg (s : State) : (takeDraw s).pinCfg = s.pinCfg := by unfold takeDraw; split <;> rfl
@[simp] theorem takeDraw_hwDre (s : State) : (takeDraw s).hwDre = s.hwDre := by unfold takeDraw; split <;> rfl
@[simp] theorem takeDraw_hwTxc (s : State) : (takeDraw s).hwTxc = s.hwTxc := by unfold takeDraw; split <;> rfl
@[simp] theorem takeDraw_hwRxc (s : State) : (takeDraw s).hwRxc = s.hwRxc := by unfold takeDraw; split <;> rfl
@[simp] theorem takeDraw_hwRxdata (s : State) : (takeDraw s).hwRxdata = s.hwRxdata := by unfold takeDraw; split <;> rfl
@[simp] theorem takeDraw_hwRxerr (s : State) : (takeDraw s).hwRxerr = s.hwRxerr := by unfold takeDraw; split <;> rfl
@[simp] theorem takeDraw_hwTxdata (s : State) : (takeDraw s).hwTxdata = s.hwTxdata := by unfold takeDraw; split <;> rfl
@[simp] theorem takeDraw_hwShiftBusy (s : State) : (takeDraw s).hwShiftBusy = s.hwShiftBusy := by unfold takeDraw; split <;> rfl
@[simp] theorem takeDraw_hwShift (s : State) : (takeDraw s).hwShift = s.hwShift := by unfold takeDraw; split <;> rfl
@[simp] theorem takeDraw_txLine (s : State) : (takeDraw s).txLine = s.txLine := by unfold takeDraw; split <;> rfl
@[simp] theorem takeDraw_gie (s : State) : (takeDraw s).gie = s.gie := by unfold takeDraw; split <;> rfl
@[simp] theorem takeDraw_faulted (s : State) : (takeDraw s).faulted = s.faulted := by unfold takeDraw; split <;> rfl

@[simp] theorem interruptEntry_eq (s : State) : interruptEntry s = s := rfl
@[simp] theorem interruptReturn_eq (s : State) : interruptReturn s = s := rfl

end Sys2Proof.Machine
end

