-- ==== Sys2Proof/Laws/Step.lean ====
section
/-! SUPPORT. What a step can do, said once: `Move e s t` has one case for each way the step `e` takes `s` to `t`, and
`runEvent_move` says that these are all. Later proofs are case analyses of `Move`. -/

namespace Sys2Proof.Machine

open Sys2Proof

/-- A byte can be drained: armed, ready, and `c` is the oldest byte of the transmit buffer. -/
abbrev drains (c : Byte) (s : State) : Prop := s.txReq = true ∧ oldest s.cfg.nTx s.tx c

/-- A drain would find the transmit buffer empty. -/
abbrev underflows (s : State) : Prop := s.txReq = true ∧ s.tx.head = s.tx.tail

theorem feedHardware_setTx (c : Byte) (s : State) :
    feedHardware c (s.setTx (popped s.cfg.nTx s.tx)) = drained c s := by
  simp only [feedHardware, Ring.isEmpty, State.hwClearTxc, State.hwWriteTx, State.setTx, State.hwSet, popped,
    drained, beq_iff_eq]
  split <;> rfl

/-- Everything `TxDrainOne` can answer (44_interrupt_handlers.md R224, R226). -/
theorem txDrainOne_cases (s : State) :
    (∃ c, oldest s.cfg.nTx s.tx c ∧ txDrainOne s = .done (drained c s)) ∨
    (s.tx.head = s.tx.tail ∧ txDrainOne s = .raise .txUnderflow) ∨
    (∃ f, txDrainOne s = .stop f) := by
  unfold txDrainOne
  rcases h : ringPop s.cfg.nTx s.tx with f | ⟨r, c⟩
  · exact .inr (.inr ⟨f, rfl⟩)
  · obtain ⟨he, rfl, rfl⟩ | ⟨b, hne, hlt, hget, rfl, rfl⟩ := ringPop_ok h
    · exact .inr (.inl ⟨he, rfl⟩)
    · exact .inl ⟨b, ⟨hne, hlt, hget⟩, by simp [feedHardware_setTx]⟩

/-- Everything `PollOnce` can answer (42_write_flush_poll.md R167). -/
theorem pollOnce_cases (s : State) :
    (s.txReq = false ∧ pollOnce s = .done s) ∨
    (∃ c, drains c s ∧ pollOnce s = .done (drained c s)) ∨
    (underflows s ∧ pollOnce s = .raise .txUnderflow) ∨
    (∃ f, pollOnce s = .stop f) := by
  unfold pollOnce
  cases h : s.txReq
  · exact .inl ⟨rfl, by simp⟩
  · simp only [if_true]
    obtain ⟨c, ho, hd⟩ | ⟨he, hd⟩ | ⟨f, hd⟩ := txDrainOne_cases s
    · exact .inr (.inl ⟨c, ⟨h, ho⟩, hd⟩)
    · exact .inr (.inr (.inl ⟨⟨h, he⟩, hd⟩))
    · exact .inr (.inr (.inr ⟨f, hd⟩))

/-- The state after the atomic setup with a rate that is not 0 (43_begin_end_baud.md R193). -/
def begun (s : State) : State :=
  { s with
    pinCfg := true
    hwBaud := baudSetting s.cfg.clkHz s.cfg.baudCorr s.fgBaud.toNat
    hwFrame := s.fgFrame
    rxen := true
    txen := true
    rxcIe := true
    configured := true
    rspLog := s.rspLog ++ [rspWord false 0]
    fgPc := .idle }

theorem fgBgCfg_of_ne {s : State} (hb : s.fgBaud ≠ 0) : fgBgCfg s = .done (begun s) := by
  unfold fgBgCfg
  rw [if_neg hb]
  simp only [State.pinSetup, State.hwSetBaud, State.hwSetFrame, State.hwSet, State.setConfigured, State.respond, begun]

/-- The phases that poll, each with the phase after it (42_write_flush_poll.md R164, R172). -/
inductive PollPhase : Phase → Phase → Prop where
  | write : PollPhase .wrPoll .wrRoom
  | flush : PollPhase .flPoll .flTest

/-- The phases from which the flush steps end, and when (42_write_flush_poll.md R170, R171). -/
inductive FlushEnds : State → Prop where
  | gate {s : State} (hp : s.fgPc = .flGate) (hw : s.everWritten = false) : FlushEnds s
  | test {s : State} (hp : s.fgPc = .flTest) (ht : s.txeIe = false) (hc : s.hwTxc = true) : FlushEnds s

/-- One case for each way a step can take a state to a next one. -/
inductive Move : Event → State → State → Prop where
  | skip {e : Event} {s : State} (h : enabled e s = false) : Move e s s
  | refuse {w : CmdWord} {s : State} {x : DecodeError} (hi : s.canIssue = true) (hw : decodeCmd w = .error x) :
      Move (.issue w) s s.refuseCommand
  | available {w : CmdWord} {o : Operands} {s : State} (hi : s.canIssue = true) (hw : decodeCmd w = .ok (.available o)) :
      Move (.issue w) s ((s.latch 6 o).respond (countValue (ringOccupied s.cfg.nRx s.rx)))
  | availableForWrite {w : CmdWord} {o : Operands} {s : State} (hi : s.canIssue = true)
      (hw : decodeCmd w = .ok (.availableForWrite o)) :
      Move (.issue w) s ((s.latch 4 o).respond (countValue (ringFree s.cfg.nTx s.tx)))
  | peekNone {w : CmdWord} {o : Operands} {s : State} (hi : s.canIssue = true) (hw : decodeCmd w = .ok (.peek o))
      (he : s.rx.head = s.rx.tail) : Move (.issue w) s ((s.latch 7 o).respond 0xFFFF)
  | peekSome {w : CmdWord} {o : Operands} {s : State} {c : Byte} (hi : s.canIssue = true)
      (hw : decodeCmd w = .ok (.peek o)) (ho : oldest s.cfg.nRx s.rx c) :
      Move (.issue w) s ((s.latch 7 o).respond (c.setWidth 16))
  | readNone {w : CmdWord} {o : Operands} {s : State} (hi : s.canIssue = true) (hw : decodeCmd w = .ok (.read o))
      (he : s.rx.head = s.rx.tail) : Move (.issue w) s ((s.latch 8 o).respond 0xFFFF)
  | readSome {w : CmdWord} {o : Operands} {s : State} {c : Byte} (hi : s.canIssue = true)
      (hw : decodeCmd w = .ok (.read o)) (ho : oldest s.cfg.nRx s.rx c) :
      Move (.issue w) s (((s.latch 8 o).setRx (popped s.cfg.nRx s.rx)).respond (c.setWidth 16))
  | pollIdle {w : CmdWord} {o : Operands} {s : State} (hi : s.canIssue = true) (hw : decodeCmd w = .ok (.poll o))
      (hq : s.txReq = false) : Move (.issue w) s ((s.latch 9 o).respond 0)
  | pollDrain {w : CmdWord} {o : Operands} {s : State} {c : Byte} (hi : s.canIssue = true)
      (hw : decodeCmd w = .ok (.poll o)) (hd : drains c s) :
      Move (.issue w) s ((drained c (s.latch 9 o)).respond 0)
  | pollUnderflow {w : CmdWord} {o : Operands} {s : State} (hi : s.canIssue = true)
      (hw : decodeCmd w = .ok (.poll o)) (hd : underflows s) :
      Move (.issue w) s (raiseFault .txUnderflow s)
  | acceptBegin {w : CmdWord} {o : Operands} {s : State} (hi : s.canIssue = true)
      (hw : decodeCmd w = .ok (.beginCmd o)) : Move (.issue w) s ((s.latch 1 o).goto .bgGate)
  | acceptEnd {w : CmdWord} {o : Operands} {s : State} (hi : s.canIssue = true)
      (hw : decodeCmd w = .ok (.endCmd o)) : Move (.issue w) s ((s.latch 2 o).goto .flGate)
  | acceptWrite {w : CmdWord} {o : Operands} {s : State} (hi : s.canIssue = true)
      (hw : decodeCmd w = .ok (.write o)) : Move (.issue w) s ((s.latch 3 o).goto .wrTry)
  | acceptFlush {w : CmdWord} {o : Operands} {s : State} (hi : s.canIssue = true)
      (hw : decodeCmd w = .ok (.flush o)) : Move (.issue w) s ((s.latch 5 o).goto .flGate)
  | setGie {v : Bool} {s : State} (hp : s.fgPc = .idle) : Move (.setGie v) s (hostSetGie v s)
  | writeFast {s : State} (hf : s.fgEnabled = true) (hp : s.fgPc = .wrTry) (ht : s.txeIe = false)
      (hd : s.hwDre = true) :
      Move .fg s ((((s.hwWriteTx s.fgData).hwClearTxc).setEverWritten true).respond 1)
  | writeSlow {s : State} (hf : s.fgEnabled = true) (hp : s.fgPc = .wrTry)
      (hs : ¬(s.txeIe = false ∧ s.hwDre = true)) (hn : (s.tx.head + 1) % s.cfg.nTx ≠ s.tx.tail)
      (hl : s.tx.head < s.cfg.nTx) :
      Move .fg s ((((s.setTx (pushed s.cfg.nTx s.fgData s.tx)).hwSet .txeIe true).setEverWritten true).respond 1)
  | writeFull {s : State} (hf : s.fgEnabled = true) (hp : s.fgPc = .wrTry)
      (hs : ¬(s.txeIe = false ∧ s.hwDre = true)) (hn : (s.tx.head + 1) % s.cfg.nTx = s.tx.tail) :
      Move .fg s (s.goto .wrPoll)
  | writeRoom {s : State} (hf : s.fgEnabled = true) (hp : s.fgPc = .wrRoom) :
      Move .fg s (s.goto (if s.tx.isFull s.cfg.nTx then .wrPoll else .wrTry))
  | pollPhaseIdle {s : State} {p : Phase} (hf : s.fgEnabled = true) (hp : PollPhase s.fgPc p)
      (hq : s.txReq = false) : Move .fg s (s.goto p)
  | pollPhaseDrain {s : State} {p : Phase} {c : Byte} (hf : s.fgEnabled = true) (hp : PollPhase s.fgPc p)
      (hd : drains c s) : Move .fg s ((drained c s).goto p)
  | pollPhaseUnderflow {s : State} {p : Phase} (hf : s.fgEnabled = true) (hp : PollPhase s.fgPc p)
      (hd : underflows s) : Move .fg s (raiseFault .txUnderflow s)
  | flushGo {s : State} (hf : s.fgEnabled = true) (hp : s.fgPc = .flGate) (hw : s.everWritten = true) :
      Move .fg s (s.goto .flTest)
  | flushWait {s : State} (hf : s.fgEnabled = true) (hp : s.fgPc = .flTest)
      (hw : s.txeIe = true ∨ s.hwTxc = false) : Move .fg s (s.goto .flPoll)
  | flushRespond {s : State} (hf : s.fgEnabled = true) (he : FlushEnds s) (ho : s.fgOp = 5) :
      Move .fg s (s.respond 0)
  | flushClose {s : State} (hf : s.fgEnabled = true) (he : FlushEnds s) (ho : s.fgOp = 2 ∨ s.fgOp = 1) :
      Move .fg s (s.goto .endOff)
  | endRespond {s : State} (hf : s.fgEnabled = true) (hp : s.fgPc = .endOff) (ho : s.fgOp = 2) :
      Move .fg s ((shutDown s).respond 0)
  | endGoOn {s : State} (hf : s.fgEnabled = true) (hp : s.fgPc = .endOff) (ho : s.fgOp ≠ 2) :
      Move .fg s ((shutDown s).goto .bgCfg)
  | beginGate {s : State} (hf : s.fgEnabled = true) (hp : s.fgPc = .bgGate) :
      Move .fg s (s.goto (if s.configured then .flGate else .bgCfg))
  | beginConfigure {s : State} (hf : s.fgEnabled = true) (hp : s.fgPc = .bgCfg) (hb : s.fgBaud ≠ 0) :
      Move .fg s (begun s)
  | beginZero {s : State} (hf : s.fgEnabled = true) (hp : s.fgPc = .bgCfg) (hb : s.fgBaud = 0) :
      Move .fg s (raiseFault .baudZero s)
  | receiveStore {s : State} (ht : s.rxTakeable = true) (hn : (s.rx.head + 1) % s.cfg.nRx ≠ s.rx.tail)
      (hl : s.rx.head < s.cfg.nRx) :
      Move .intRx s (s.hwReadRx.setRx (pushed s.cfg.nRx s.hwRxdata s.rx))
  | receiveDrop {s : State} (ht : s.rxTakeable = true) (hn : (s.rx.head + 1) % s.cfg.nRx = s.rx.tail) :
      Move .intRx s s.hwReadRx
  | transmitDrain {s : State} {c : Byte} (ht : s.txTakeable = true) (ho : oldest s.cfg.nTx s.tx c) :
      Move .intTx s (drained c s)
  | transmitUnderflow {s : State} (ht : s.txTakeable = true) (he : s.tx.head = s.tx.tail) :
      Move .intTx s (raiseFault .txUnderflow s)
  | txLoad {s : State} (h : enabled .txLoad s = true) : Move .txLoad s (envTxLoad s)
  | txDone {s : State} (h : enabled .txDone s = true) : Move .txDone s (envTxDone s)
  | rxArrive {b : Byte} {e : Nat} {s : State} (h : enabled (.rxArrive b e) s = true) :
      Move (.rxArrive b e) s (envRxArrive b e s)
  | rxFlush {s : State} (h : enabled .rxFlush s = true) : Move .rxFlush s (envRxFlush s)

theorem commit_next {s t : State} {e : Effect} (h : commit s e = .next t) :
    e = .done t ∨ ∃ c, e = .raise c ∧ t = raiseFault c s := by
  cases e <;> simp_all [commit]

theorem hostIssue_next {op : BitVec 4} {o : Operands} {f : State → Effect} {s t : State} (hi : s.canIssue = true)
    (h : hostIssue op o f s = .next t) :
    f (s.latch op o) = .done t ∨ ∃ c, f (s.latch op o) = .raise c ∧ t = raiseFault c s := by
  rw [hostIssue, if_pos hi] at h
  exact commit_next h

theorem canIssue_idle {s : State} (h : s.canIssue = true) : s.fgPc = .idle := by
  simp only [State.canIssue, Bool.and_eq_true, beq_iff_eq] at h
  exact h.1

theorem multiStep_next {op : BitVec 4} {p : Phase} {o : Operands} {s t : State} (hi : s.canIssue = true)
    (h : multiStep op p o s = .next t) : t = (s.latch op o).goto p := by
  rw [multiStep, if_pos (canIssue_idle hi)] at h
  obtain h | ⟨c, h, -⟩ := hostIssue_next hi h
  · cases h; rfl
  · cases h

theorem execPeek_move {w : CmdWord} {o : Operands} {s t : State} (hi : s.canIssue = true)
    (hw : decodeCmd w = .ok (.peek o)) (h : execPeek o s = .next t) : Move (.issue w) s t := by
  obtain h | ⟨c, h, -⟩ := hostIssue_next hi h
  · unfold peekBody at h
    split at h
    · rename_i c hc
      cases h
      obtain ⟨he, rfl⟩ | ⟨b, ho⟩ := ringPeek_ok hc
      · exact .peekNone hi hw he
      · obtain ⟨h1, h2, h3, rfl⟩ := ho
        exact .peekSome hi hw ⟨h1, h2, h3⟩
    · cases h
  · unfold peekBody at h; split at h <;> cases h

theorem execRead_move {w : CmdWord} {o : Operands} {s t : State} (hi : s.canIssue = true)
    (hw : decodeCmd w = .ok (.read o)) (h : execRead o s = .next t) : Move (.issue w) s t := by
  obtain h | ⟨c, h, -⟩ := hostIssue_next hi h
  · unfold readBody at h
    split at h
    · rename_i r c hc
      cases h
      obtain ⟨he, rfl, rfl⟩ | ⟨b, h1, h2, h3, rfl, rfl⟩ := ringPop_ok hc
      · exact .readNone hi hw he
      · exact .readSome hi hw ⟨h1, h2, h3⟩
    · cases h
  · unfold readBody at h; split at h <;> cases h

theorem execPoll_move {w : CmdWord} {o : Operands} {s t : State} (hi : s.canIssue = true)
    (hw : decodeCmd w = .ok (.poll o)) (h : execPoll o s = .next t) : Move (.issue w) s t := by
  have hp := pollOnce_cases (s.latch 9 o)
  obtain h | ⟨c, hc, rfl⟩ := hostIssue_next hi h
  · unfold pollBody at h
    obtain ⟨hq, hp⟩ | ⟨c, hd, hp⟩ | ⟨hd, hp⟩ | ⟨f, hp⟩ := hp <;> rw [hp] at h <;> cases h
    · exact .pollIdle hi hw hq
    · exact .pollDrain hi hw hd
  · unfold pollBody at hc
    obtain ⟨hq, hp⟩ | ⟨c, hd, hp⟩ | ⟨hd, hp⟩ | ⟨f, hp⟩ := hp <;> rw [hp] at hc <;> cases hc
    exact .pollUnderflow hi hw hd

/-- Everything the acceptance of a command word can do (30_encoding.md R91). -/
theorem issueWord_move {w : CmdWord} {s t : State} (hi : s.canIssue = true) (h : issueWord w s = .next t) :
    Move (.issue w) s t := by
  unfold issueWord at h
  split at h
  · rename_i i hw
    cases i with
    | beginCmd o => rw [multiStep_next hi h]; exact .acceptBegin hi hw
    | endCmd o => rw [multiStep_next hi h]; exact .acceptEnd hi hw
    | write o => rw [multiStep_next hi h]; exact .acceptWrite hi hw
    | flush o => rw [multiStep_next hi h]; exact .acceptFlush hi hw
    | availableForWrite o =>
      obtain h | ⟨c, h, -⟩ := hostIssue_next hi h <;> cases h
      exact .availableForWrite hi hw
    | available o =>
      obtain h | ⟨c, h, -⟩ := hostIssue_next hi h <;> cases h
      exact .available hi hw
    | peek o => exact execPeek_move hi hw h
    | read o => exact execRead_move hi hw h
    | poll o => exact execPoll_move hi hw h
    | rxHandler => exact absurd (decodeCmd_ok hw).2 (by unfold commandOf; split <;> simp)
    | txHandler => exact absurd (decodeCmd_ok hw).2 (by unfold commandOf; split <;> simp)
  · cases h; exact .refuse hi ‹_›

theorem flushReturn_flush {s : State} (h : s.fgOp = 5) : flushReturn s = .done (s.respond 0) := by
  unfold flushReturn; split <;> simp_all

theorem flushReturn_end {s : State} (h : s.fgOp = 2) : flushReturn s = .done (s.goto .endOff) := by
  unfold flushReturn; split <;> simp_all

theorem flushReturn_begin {s : State} (h : s.fgOp = 1) : flushReturn s = .done (s.goto .endOff) := by
  unfold flushReturn; split <;> simp_all

theorem flushReturn_move {s t : State} (hf : s.fgEnabled = true) (he : FlushEnds s)
    (h : commit s (flushReturn s) = .next t) : Move .fg s t := by
  unfold flushReturn at h
  split at h <;> cases h
  · exact .flushRespond hf he ‹_›
  · exact .flushClose hf he (.inl ‹_›)
  · exact .flushClose hf he (.inr ‹_›)

theorem pollPhase_move {s t : State} {p : Phase} (hf : s.fgEnabled = true) (hp : PollPhase s.fgPc p)
    (h : commit s ((pollOnce s).andThen (State.goto p)) = .next t) : Move .fg s t := by
  obtain ⟨hq, he⟩ | ⟨c, hd, he⟩ | ⟨hd, he⟩ | ⟨f, he⟩ := pollOnce_cases s <;> rw [he] at h <;> cases h
  · exact .pollPhaseIdle hf hp hq
  · exact .pollPhaseDrain hf hp hd
  · exact .pollPhaseUnderflow hf hp hd

theorem fgWrTry_move {s t : State} (hf : s.fgEnabled = true) (hp : s.fgPc = .wrTry)
    (h : commit s (fgWrTry s) = .next t) : Move .fg s t := by
  unfold fgWrTry at h
  split at h
  · cases h; exact .writeFast hf hp (‹_ ∧ _›).1 (‹_ ∧ _›).2
  · rename_i hs
    split at h <;> cases h <;> rename_i hr <;> obtain ⟨hn, rfl, ha⟩ | ⟨hn, hl, rfl, ha⟩ := ringPush_ok hr
    · cases ha
    · exact .writeSlow hf hp hs hn hl
    · exact .writeFull hf hp hs hn
    · cases ha

/-- Everything a foreground step can do (10_state.md R32). -/
theorem fgStep_move {s t : State} (hf : s.fgEnabled = true) (h : fgStep s = .next t) : Move .fg s t := by
  rw [fgStep, if_pos hf] at h
  unfold fgPhase at h
  split at h
  · simp_all [State.fgEnabled]
  · exact fgWrTry_move hf ‹_› h
  · exact pollPhase_move hf (by rw [‹s.fgPc = _›]; exact .write) h
  · rename_i hp
    cases h
    have := Move.writeRoom hf hp
    revert this; split <;> exact id
  · rename_i hp
    unfold fgFlGate at h
    split at h <;> rename_i hw
    · cases h; exact .flushGo hf hp hw
    · exact flushReturn_move hf (.gate hp (Bool.eq_false_of_not_eq_true hw)) h
  · rename_i hp
    unfold fgFlTest at h
    split at h <;> rename_i hc
    · cases h; exact .flushWait hf hp (by simpa using hc)
    · simp only [Bool.or_eq_true, Bool.not_eq_true', not_or, Bool.not_eq_true, Bool.not_eq_false] at hc
      exact flushReturn_move hf (.test hp hc.1 hc.2) h
  · exact pollPhase_move hf (by rw [‹s.fgPc = _›]; exact .flush) h
  · rename_i hp
    unfold fgEndOff at h
    split at h <;> cases h
    · exact .endRespond hf hp ‹_›
    · exact .endGoOn hf hp ‹_›
  · rename_i hp
    cases h
    have := Move.beginGate hf hp
    revert this; split <;> exact id
  · rename_i hp
    by_cases hb : s.fgBaud = 0
    · rw [fgBgCfg, if_pos hb] at h; cases h; exact .beginZero hf hp hb
    · rw [fgBgCfg_of_ne hb] at h; cases h; exact .beginConfigure hf hp hb

theorem rxHandler_move {s t : State} (ht : s.rxTakeable = true) (h : execRxHandler s = .next t) :
    Move .intRx s t := by
  rw [execRxHandler, if_pos ht, takeInterrupt, interruptEntry_eq] at h
  unfold rxHandler at h
  split at h
  · rename_i r a hr
    cases h
    obtain ⟨hn, rfl, -⟩ | ⟨hn, hl, rfl, -⟩ := ringPush_ok hr
    · exact .receiveDrop ht hn
    · exact .receiveStore ht hn hl
  · cases h

theorem txHandler_move {s t : State} (ht : s.txTakeable = true) (h : execTxHandler s = .next t) :
    Move .intTx s t := by
  rw [execTxHandler, if_pos ht, takeInterrupt, interruptEntry_eq, txHandler] at h
  obtain ⟨c, ho, hd⟩ | ⟨he, hd⟩ | ⟨f, hd⟩ := txDrainOne_cases s <;> rw [hd] at h <;> cases h
  · exact .transmitDrain ht ho
  · exact .transmitUnderflow ht he

/-- Everything a step can do. -/
theorem runEvent_move {e : Event} {s t : State} (h : runEvent e s = .next t) : Move e s t := by
  unfold runEvent at h
  split at h <;> rename_i he
  · cases e with
    | issue w => exact issueWord_move he h
    | setGie v => cases h; exact .setGie (by simpa [enabled] using he)
    | fg => exact fgStep_move he h
    | intRx => exact rxHandler_move he h
    | intTx => exact txHandler_move he h
    | txLoad => cases h; exact .txLoad he
    | txDone => cases h; exact .txDone he
    | rxArrive b x => cases h; exact .rxArrive he
    | rxFlush => cases h; exact .rxFlush he
  · cases h; exact .skip (Bool.eq_false_of_not_eq_true he)

@[simp] theorem nextEvent_withFetchWord (s : State) (nbits w : Nat) :
    nextEvent (s.withFetchWord nbits w) = eventOfCode (tableCode nbits w) := rfl

@[simp] theorem takeDraw_withFetchWord (s : State) (nbits w : Nat) :
    takeDraw (s.withFetchWord nbits w) = readyFor (eventOfCode (tableCode nbits w)) s := by
  unfold State.withFetchWord
  cases eventOfCode (tableCode nbits w) <;> rfl

/-- A command word finds the foreground ready for it. -/
theorem enabled_readyFor_issue (s : State) (w : CmdWord) : enabled (.issue w) (readyFor (.issue w) s) = true := rfl

/-- The receive request finds itself pending and unmasked. -/
theorem enabled_readyFor_intRx (s : State) : enabled .intRx (readyFor .intRx s) = true := rfl

/-- The transmit request finds itself pending and unmasked. -/
theorem enabled_readyFor_intTx (s : State) : enabled .intTx (readyFor .intTx s) = true := rfl

/-- Everything the machine's step can do. -/
theorem step_move {s t : State} (h : step s = .next t) : Move (nextEvent s) (takeDraw s) t := runEvent_move h

theorem run_next (M : Host.Core) {s t : M.State} (h : M.step s = .next t) (k : Nat) :
    M.run (k + 1) s = M.run k t := by
  rw [Host.Core.run, h]

theorem run_stops (M : Host.Core) {s u : M.State} {k : Nat} (h : M.run (k + 1) s = .next u) :
    ∃ t, M.step s = .next t ∧ M.run k t = .next u := by
  cases ht : M.step s <;> rw [Host.Core.run, ht] at h
  · exact ⟨_, rfl, h⟩
  · cases h
  · cases h

/-- A run of `k + 1` steps is a step and a run of `k`. -/
theorem core_run_next {s t : State} (h : step s = .next t) (k : Nat) :
    Host.Core.run core (k + 1) s = Host.Core.run core k t := run_next core h k

/-- A run that has not stopped took a first step. -/
theorem core_run_step {k : Nat} {s u : State} (h : Host.Core.run core (k + 1) s = .next u) :
    ∃ t, step s = .next t ∧ Host.Core.run core k t = .next u := run_stops core h

theorem gather_next {α : Type} (f : State → State → List α) {s t : State} (h : step s = .next t) (k : Nat) :
    gather f (k + 1) s = f s t ++ gather f k t := by
  rw [gather, h]

end Sys2Proof.Machine
end

