-- ==== Sys2Proof/Laws/Runs.lean ====
section
/-! SUPPORT. How the runs of Machine/Runs.lean and the machine's `step` belong together, and what weak fairness gives:
a step that stays enabled until it is taken is taken (45_hardware_interface.md R257). -/

namespace Sys2Proof.Machine

open Sys2Proof

/-- No enabling condition reads the model's own fields. -/
@[simp] theorem enabled_withDraws (e : Event) (s : State) (l : List Event) (d : Nat) :
    enabled e { s with schedule := l, draws := d } = enabled e s := by cases e <;> rfl

/-- A sequence of the machine's own steps is a run. -/
theorem isRun_of_step {σ : Nat → State} (h : ∀ n, step (σ n) = .next (σ (n + 1))) :
    isRun (fun n => nextEvent (σ n)) σ := by
  intro n
  refine ⟨(takeDraw (σ n)).schedule, (takeDraw (σ n)).draws, ?_⟩
  have hs : { σ n with schedule := (takeDraw (σ n)).schedule, draws := (takeDraw (σ n)).draws } = takeDraw (σ n) := by
    unfold takeDraw; split <;> rfl
  rw [hs]
  exact h n

/-- Each step of a run is a step of the machine, with the event of the run first in the schedule. -/
theorem isRun_step {ε : Nat → Event} {σ : Nat → State} (h : isRun ε σ) (n : Nat) :
    ∃ l d, step { σ n with schedule := ε n :: l, draws := d } = .next (σ (n + 1)) := h n

/-- Each step of a run is one of the cases of `Move`, from the same state up to the model's own fields. -/
theorem isRun_move {ε : Nat → Event} {σ : Nat → State} (h : isRun ε σ) (n : Nat) :
    ∃ l d, Move (ε n) { σ n with schedule := l, draws := d } (σ (n + 1)) := by
  obtain ⟨l, d, hn⟩ := h n
  exact ⟨l, d, runEvent_move hn⟩

/-- Weak fairness as a rule for proofs: where `P` makes the step `e` enabled and every other step keeps `P`, the step
is taken from a state with `P`. -/
theorem weaklyFair.taken {e : Event} {ε : Nat → Event} {σ : Nat → State} (hf : weaklyFair e ε σ) {P : Nat → Prop}
    {n : Nat} (hn : P n) (he : ∀ m, n ≤ m → P m → enabled e (σ m) = true)
    (hk : ∀ m, n ≤ m → P m → ε m ≠ e → P (m + 1)) : ∃ m, n ≤ m ∧ P m ∧ ε m = e := by
  by_contra hc
  have keep : ∀ k, P (n + k) := by
    intro k
    induction k with
    | zero => exact hn
    | succ k ih => exact hk _ (Nat.le_add_right _ _) ih (fun h => hc ⟨_, Nat.le_add_right _ _, ih, h⟩)
  obtain ⟨m, hm, ht⟩ := hf n fun m hm => he m hm (Nat.add_sub_cancel' hm ▸ keep (m - n))
  exact hc ⟨m, hm, Nat.add_sub_cancel' hm ▸ keep (m - n), ht⟩

end Sys2Proof.Machine
end

