-- ==== Sys2Proof/Tests/Slice0.lean ====
section
/-! SUPPORT. Tests of one step each, and a witness for every statement with hypotheses. Expected results are those of
spec/95_test_vectors.md (V<n> are its vectors) or worked out from the rules cited. -/

namespace Sys2Proof.Tests

open Sys2Proof Sys2Proof.Machine

/-! ### Small states -/

/-- The unspecified values of a reset, drawn as P1 of 95_test_vectors.md draws them. -/
def drawn : ResetDraw := ⟨true, true, 0, 0, 0, 0, 0, 0, 0, 0, 0⟩

/-- Reset with a schedule. -/
def boot (l : List Event) : State := State.resetWith Config.params drawn l

/-- A configured transceiver with a schedule. -/
def active (l : List Event) : State :=
  { boot l with rxen := true, txen := true, rxcIe := true, configured := true, pinCfg := true }

/-- A command in progress. -/
def inPhase (op : BitVec 4) (p : Phase) (s : State) : State := { s with fgOp := op, fgPc := p }

/-- No operand. -/
def plain : Operands := ⟨0, 0, 0⟩

/-- A test of the next state; a fault or a refusal fails it. -/
def answers (r : Result) (p : State → Bool) : Bool :=
  match r with
  | .next t => p t
  | .fault _ => false
  | .refused _ => false

/-- The state after a step that is taken. -/
def after (s : State) : State :=
  match step s with
  | .next t => t
  | .fault _ => s
  | .refused _ => s

/-- The instruction a word decodes to, if any. -/
def decoded (w : CmdWord) : Option Instr := (decodeCmd w).toOption

/-- Transmit buffer with one byte 0x42 in slot 1, armed, ready (V53). -/
def armed (l : List Event) : State := { active l with tx := ⟨[(1, 0x42)], 2, 1⟩, txeIe := true, everWritten := true }

/-- Transmit buffer full, three bytes from slot 0, armed, hardware busy (V43). -/
def crowded (l : List Event) : State :=
  { active l with
    tx := ⟨[(0, 0x11), (1, 0x12), (2, 0x13)], 3, 0⟩, txeIe := true, everWritten := true, hwDre := false, hwTxc := false
    hwTxdata := 0x10 }

/-- Armed and ready with an empty transmit buffer, which no run reaches (V75). -/
def drainedOut : State := { armed [] with tx := ⟨[], 2, 2⟩ }

/-- Receive buffer with one byte 0x31 in slot 1 (V26). -/
def received (l : List Event) : State := { active l with rx := ⟨[(1, 0x31)], 2, 1⟩ }

/-! ### Well-formedness: an ill-formed term for each check, refused -/

theorem test_legal_command : CmdWord.legal 0x4103 = true := by decide
theorem test_op_zero_is_illegal : CmdWord.legal 0x0 = false := by decide
theorem test_op_ten_is_illegal : CmdWord.legal 0xA = false := by decide
theorem test_op_fifteen_is_illegal : CmdWord.legal 0xF = false := by decide
theorem test_reserved_bits_are_illegal : CmdWord.legal 0x13 = false := by decide
theorem test_parameters_are_legal : (Params.check 2 65536 1 (-2048) 1).isSome = true := by decide
theorem test_nRx_one_is_refused : Params.check 1 4 20000000 0 8 = none := by decide
theorem test_nRx_too_large_is_refused : Params.check 65537 4 20000000 0 8 = none := by decide
theorem test_nTx_one_is_refused : Params.check 4 1 20000000 0 8 = none := by decide
theorem test_nTx_too_large_is_refused : Params.check 4 65537 20000000 0 8 = none := by decide
theorem test_clock_zero_is_refused : Params.check 4 4 0 0 8 = none := by decide
theorem test_width_zero_is_refused : Params.check 4 4 20000000 0 0 = none := by decide
theorem test_begin_ill_formed : Instr.wellFormed (.beginCmd ⟨1, 3, 9600⟩) = false := by decide
theorem test_end_ill_formed : Instr.wellFormed (.endCmd ⟨0, 1, 0⟩) = false := by decide
theorem test_write_ill_formed : Instr.wellFormed (.write ⟨0x41, 0, 1⟩) = false := by decide
theorem test_availableForWrite_ill_formed : Instr.wellFormed (.availableForWrite ⟨1, 0, 0⟩) = false := by decide
theorem test_flush_ill_formed : Instr.wellFormed (.flush ⟨0, 0, 1⟩) = false := by decide
theorem test_available_ill_formed : Instr.wellFormed (.available ⟨0, 1, 0⟩) = false := by decide
theorem test_peek_ill_formed : Instr.wellFormed (.peek ⟨1, 0, 0⟩) = false := by decide
theorem test_read_ill_formed : Instr.wellFormed (.read ⟨0xDE, 0x9ABC, 0x12345678⟩) = false := by decide
theorem test_poll_ill_formed : Instr.wellFormed (.poll ⟨0, 0, 1⟩) = false := by decide
theorem test_instructions_well_formed :
    Instr.wellFormed (.beginCmd ⟨0, 3, 9600⟩) = true ∧ Instr.wellFormed (.write ⟨0x41, 0, 0⟩) = true ∧
      Instr.wellFormed (.poll plain) = true ∧ Instr.wellFormed .rxHandler = true := by decide
theorem test_index_widths : indexWidth 2 = 1 ∧ indexWidth 3 = 2 ∧ indexWidth 4 = 2 ∧ indexWidth 65536 = 16 := by
  decide

/-! ### Decoding: words written out from the fields baud 63:32, frame 31:16, data 15:8, rsv 7:4, op 3:0 (R92, R93) -/

theorem test_decode_begin :
    decoded 0b0000000000000000001001011000000000000000000000110000000000000001 =
      some (.beginCmd ⟨0, 0x0003, 9600⟩) := by decide
theorem test_decode_end :
    decoded 0b0000000000000000000000000000000000000000000000000000000000000010 = some (.endCmd plain) := by decide
theorem test_decode_write :
    decoded 0b0000000000000000000000000000000000000000000000000100000100000011 = some (.write ⟨0x41, 0, 0⟩) := by
  decide
theorem test_decode_availableForWrite :
    decoded 0b0000000000000000000000000000000000000000000000000000000000000100 =
      some (.availableForWrite plain) := by decide
theorem test_decode_flush :
    decoded 0b0000000000000000000000000000000000000000000000000000000000000101 = some (.flush plain) := by decide
theorem test_decode_available :
    decoded 0b0000000000000000000000000000000000000000000000000000000000000110 = some (.available plain) := by decide
theorem test_decode_peek :
    decoded 0b0000000000000000000000000000000000000000000000000000000000000111 = some (.peek plain) := by decide
theorem test_decode_read :
    decoded 0b0001001000110100010101100111100010011010101111001101111000001000 =
      some (.read ⟨0xDE, 0x9ABC, 0x12345678⟩) := by decide
theorem test_decode_poll :
    decoded 0b0000000000000000000000000000000000000000000000000000000000001001 = some (.poll plain) := by decide
theorem test_decode_vector_zero : decodeIrq 0b0 = .rxHandler := by decide
theorem test_decode_vector_one : decodeIrq 0b1 = .txHandler := by decide
theorem test_decode_largest_baud : decoded 0xFFFFFFFF00000001 = some (.beginCmd ⟨0, 0, 4294967295⟩) := by decide
theorem test_decode_refuses :
    decoded 0x0 = none ∧ decoded 0xA = none ∧ decoded 0xF = none ∧ decoded 0x13 = none := by decide
theorem test_encode_begin : encode (.beginCmd ⟨0, 0x0003, 9600⟩) = .cmd 0x0000258000030001 := by decide
theorem test_encode_vector_one : encode .txHandler = .irq 1 := by decide
theorem test_table_words :
    decodeTableWord 64 0x4103 = some (.write ⟨0x41, 0, 0⟩) ∧ decodeTableWord 8 0x09 = some (.poll plain) ∧
      decodeTableWord 8 0 = some .rxHandler ∧ decodeTableWord 1 1 = some .txHandler ∧
      decodeTableWord 8 0x0A = none := by decide

/-! ### The ring buffer primitives (V1, V2, V3, V5, V8, V10, V12, V14) -/

/-- V1: the head wraps and the buffer is full. -/
theorem test_push_wraps :
    ringPush 4 0x5A ⟨[(1, 0x11), (2, 0x12)], 3, 1⟩ =
      Except.ok (⟨[(1, 0x11), (2, 0x12), (3, 0x5A)], 0, 1⟩, true) := by rfl
/-- V2: a full buffer is unchanged. -/
theorem test_push_full :
    ringPush 4 0x5B ⟨[(1, 0x11), (2, 0x12), (3, 0x5A)], 0, 1⟩ =
      Except.ok (⟨[(1, 0x11), (2, 0x12), (3, 0x5A)], 0, 1⟩, false) := by rfl
/-- V3: the tail wraps. -/
theorem test_pop_wraps : ringPop 4 ⟨[(3, 0x5A)], 0, 3⟩ = Except.ok (⟨[(3, 0x5A)], 0, 0⟩, some 0x5A) := by rfl
/-- V5. -/
theorem test_peek_keeps : ringPeek 4 ⟨[(1, 0x31)], 2, 1⟩ = Except.ok (some 0x31) := by rfl
/-- V8: full and wrapped. -/
theorem test_counts_wrapped : ringOccupied 8 ⟨[], 2, 3⟩ = 7 ∧ ringFree 8 ⟨[], 2, 3⟩ = 0 := by decide
/-- V12, V13: a capacity that is no power of two. -/
theorem test_full_of_three :
    ringOccupied 3 ⟨[(0, 0xB1), (1, 0xB2)], 2, 0⟩ = 2 ∧ Ring.isFull 3 ⟨[(0, 0xB1), (1, 0xB2)], 2, 0⟩ = true := by
  decide
/-- V14. -/
theorem test_occupied_wrapped : ringOccupied 4 ⟨[], 0, 3⟩ = 1 := by decide
/-- The order in which slots are written does not show in the memory. -/
theorem test_memory_is_canonical :
    memSet (memSet [] 3 0x01) 1 0x02 = memSet (memSet [] 1 0x02) 3 0x01 ∧
      memWf 4 (memSet (memSet [] 3 0x01) 1 0x02) = true := by decide
theorem test_reset_memory_is_canonical : memWf 4 (boot []).rx.mem = true ∧ memWf 4 (boot []).tx.mem = true := by decide

/-! ### The single-step commands -/

/-- V110. -/
theorem test_available_at_reset : answers (step (boot [.issue 0x6])) (fun t => t.rspLog == [0x00000000]) = true := by
  decide
/-- A full receive buffer, wrapped: three bytes. -/
theorem test_available_full :
    answers (exec (.available plain) { active [] with rx := ⟨[], 1, 2⟩ }) (fun t => t.rspLog == [0x00000003]) = true := by
  decide
/-- V111. -/
theorem test_availableForWrite_at_reset :
    answers (step (boot [.issue 0x4])) (fun t => t.rspLog == [0x00000003]) = true := by decide
/-- V24. -/
theorem test_availableForWrite_full :
    answers (exec (.availableForWrite plain) (crowded [])) (fun t => t.rspLog == [0x00000000]) = true := by decide
/-- V25. -/
theorem test_peek_empty : answers (step (boot [.issue 0x7])) (fun t => t.rspLog == [0x0000FFFF]) = true := by decide
/-- V26. -/
theorem test_peek_byte :
    answers (exec (.peek plain) (received [])) (fun t => t.rspLog == [0x00000031] && t.rx.tail == 1) = true := by decide
/-- V27. -/
theorem test_read_byte :
    answers (exec (.read plain) (received [])) (fun t => t.rspLog == [0x00000031] && t.rx.tail == 2) = true := by decide
/-- V28: the byte 0xFF is not the sentinel, and the tail wraps. -/
theorem test_read_byte_ff :
    answers (exec (.read plain) { active [] with rx := ⟨[(3, 0xFF)], 0, 3⟩ })
      (fun t => t.rspLog == [0x000000FF] && t.rx.tail == 0) = true := by decide
/-- V53, with interrupts off. -/
theorem test_poll_drains :
    answers (exec (.poll plain) { armed [] with gie := false })
      (fun t => t.hwTxdata == 0x42 && !t.hwDre && !t.hwTxc && t.tx.tail == 2 && !t.txeIe && t.rspLog == [0]) = true := by
  decide
/-- V52. -/
theorem test_poll_waits :
    answers (exec (.poll plain) { armed [] with hwDre := false })
      (fun t => t.hwTxdata == 0 && t.tx.tail == 1 && t.txeIe && t.rspLog == [0]) = true := by decide

/-! ### The multi-step commands -/

/-- V40: the fast path. -/
theorem test_write_fast :
    answers (exec (.write ⟨0x41, 0, 0⟩) { inPhase 3 .wrTry (active []) with fgData := 0x41 })
      (fun t => t.hwTxdata == 0x41 && !t.hwDre && !t.hwTxc && t.everWritten && t.tx.head == 0 && t.rspLog == [1] &&
        t.fgPc == .idle) = true := by decide
/-- V42: the slow path, although the hardware is ready. -/
theorem test_write_slow :
    answers (exec (.write ⟨0x43, 0, 0⟩) { inPhase 3 .wrTry (armed []) with fgData := 0x43 })
      (fun t => t.tx.head == 3 && t.tx.mem == [(1, 0x42), (2, 0x43)] && t.hwTxdata == 0 && t.hwDre &&
        t.rspLog == [1]) = true := by decide
/-- V47: the gate responds and `hw_txc` is not read. -/
theorem test_flush_gate :
    answers (exec (.flush plain) (inPhase 5 .flGate { active [] with hwTxc := false }))
      (fun t => t.rspLog == [0] && t.fgPc == .idle) = true := by decide
/-- V49: completion is not reported yet. -/
theorem test_flush_waits :
    answers (exec (.flush plain) (inPhase 5 .flTest { active [] with everWritten := true, hwTxc := false }))
      (fun t => t.rspLog == [] && t.fgPc == .flPoll) = true := by decide
/-- V62: everything is disabled and unread data is discarded. -/
theorem test_end_discards :
    answers (exec (.endCmd plain) (inPhase 2 .endOff { active [] with rx := ⟨[(1, 0x31), (2, 0x32)], 3, 1⟩ }))
      (fun t => t.rx.tail == 3 && !t.rxen && !t.txen && !t.rxcIe && !t.txeIe && !t.configured && t.pinCfg &&
        t.rspLog == [0]) = true := by decide
/-- V60. -/
theorem test_begin_configures :
    answers (exec (.beginCmd ⟨0, 3, 9600⟩) { inPhase 1 .bgCfg (boot []) with fgBaud := 9600, fgFrame := 3 })
      (fun t => t.hwBaud == 8333 && t.hwFrame == 3 && t.pinCfg && t.rxen && t.txen && t.rxcIe && !t.txeIe &&
        t.configured && t.rspLog == [0]) = true := by decide
/-- V64: `BEGIN 0, 3`. -/
theorem test_begin_zero_rate :
    answers (exec (.beginCmd ⟨0, 3, 0⟩) { inPhase 1 .bgCfg (boot []) with fgFrame := 3 })
      (fun t => t.faulted == some .baudZero && !t.pinCfg && !t.rxen && t.rspLog == [] && t.fgPc == .bgCfg) = true := by
  decide

/-! ### The baud setting (the triples of 95_test_vectors.md section 2.4) -/

theorem test_baud_settings :
    baudSetting 20000000 0 9600 = 8333 ∧ baudSetting 20000000 0 115200 = 694 ∧
      baudSetting 20000000 0 57600 = 1389 ∧ baudSetting 16000000 0 115200 = 556 ∧
      baudSetting 20000000 0 1 = 80000000 := by decide
theorem test_baud_ties_round_up :
    baudSetting 20000000 0 32000000 = 3 ∧ baudSetting 20000000 0 160000000 = 1 ∧
      baudSetting 20000000 0 160000001 = 0 := by decide
theorem test_baud_correction_truncates :
    baudSetting 20000000 10 9600 = 8414 ∧ baudSetting 20000000 (-10) 9600 = 8252 ∧
      baudSetting 20000000 (-1024) 9600 = 0 ∧ baudSetting 20000000 (-2048) 9600 = -8333 := by decide

/-! ### The handlers -/

/-- V72: the head wraps and the error flags change nothing. -/
theorem test_receive_stores :
    answers (exec .rxHandler { active [] with rx := ⟨[], 3, 1⟩, hwRxc := true, hwRxdata := 0x77, hwRxerr := 5 })
      (fun t => t.rx == ⟨[(3, 0x77)], 0, 1⟩ && !t.hwRxc) = true := by decide
/-- V71: the byte is dropped. -/
theorem test_receive_drops :
    answers (exec .rxHandler { active [] with rx := ⟨[], 0, 1⟩, hwRxc := true, hwRxdata := 0x99 })
      (fun t => t.rx == ⟨[], 0, 1⟩ && !t.hwRxc) = true := by decide
/-- V73: one byte is left, so the interrupt stays armed. -/
theorem test_transmit_drains :
    answers (exec .txHandler { armed [] with tx := ⟨[(1, 0x41), (2, 0x42)], 3, 1⟩ })
      (fun t => t.hwTxdata == 0x41 && !t.hwDre && !t.hwTxc && t.tx.tail == 2 && t.txeIe) = true := by decide
/-- V75: not reachable from reset. -/
theorem test_transmit_underflow :
    answers (exec .txHandler drainedOut)
      (fun t => t.faulted == some .txUnderflow && t.hwDre && t.txeIe && t.tx.tail == 2) = true := by decide

/-! ### The peripheral and the host -/

/-- V80. -/
theorem test_tx_load :
    answers (step { active [.txLoad] with hwDre := false, hwTxdata := 0x41 })
      (fun t => t.hwShift == 0x41 && t.hwShiftBusy && t.hwDre) = true := by decide
/-- V81: another byte waits, so completion is not reported. -/
theorem test_tx_done_with_a_byte_waiting :
    answers (step { active [.txDone] with hwShiftBusy := true, hwShift := 0x41, hwDre := false, hwTxc := false })
      (fun t => t.txLine == [0x41] && !t.hwShiftBusy && !t.hwTxc) = true := by decide
/-- V82. -/
theorem test_tx_done :
    answers (step { active [.txDone] with hwShiftBusy := true, hwShift := 0x41, hwTxc := false })
      (fun t => t.txLine == [0x41] && !t.hwShiftBusy && t.hwTxc) = true := by decide
/-- V84. -/
theorem test_rx_arrive :
    answers (step (active [.rxArrive 0x31 0])) (fun t => t.hwRxdata == 0x31 && t.hwRxc) = true := by decide
/-- V85: the byte is lost in the peripheral. -/
theorem test_rx_arrive_while_pending :
    answers (step { active [.rxArrive 0x31 0] with hwRxc := true, hwRxdata := 0x30 })
      (fun t => t.hwRxdata == 0x30 && t.hwRxc) = true := by decide
/-- V86. -/
theorem test_rx_flush : answers (step { boot [.rxFlush] with hwRxc := true }) (fun t => !t.hwRxc) = true := by decide
/-- V94: the refusal is a response. -/
theorem test_illegal_command :
    answers (step (boot [.issue 0x0])) (fun t => t.rspLog == [0x00010000] && t.fgPc == .idle && t.fgOp == 0) = true := by
  decide
/-- V83, V102: not enabled. -/
theorem test_not_enabled :
    enabled .txLoad { boot [] with hwDre := false } = false ∧
      enabled .intTx { armed [] with gie := false } = false := by decide

/-! ### Witnesses: states and operands that meet the hypotheses of each statement, clause by clause -/

theorem witness_EncodeOfDecodeIsIdentity :
    decode (.cmd 0xFFFFFFFFFFFFFF09) = .ok (.poll ⟨0xFF, 0xFFFF, 0xFFFFFFFF⟩) ∧ decode (.irq 1) = .ok .txHandler :=
  ⟨rfl, rfl⟩

theorem witness_IllegalCommandIsRefusedByAResponse :
    (boot [.issue 0xF3]).schedule = [.issue 0xF3] ∧ (boot [.issue 0xF3]).fgPc = .idle ∧
      (boot [.issue 0xF3]).faulted = none ∧ CmdWord.legal 0xF3 = false ∧ CmdWord.legal 0x0A = false := by decide

theorem witness_UnusedFieldsAreIgnored_read :
    sameButUnused (boot []) { boot [] with fgData := 7, fgBaud := 8, fgFrame := 9 } ∧ phaseFits (boot []) = true ∧
      sameUsedFields 0x123456789ABCDE08 0x8 := by
  refine ⟨⟨rfl, by decide, by decide⟩, by decide, by decide, by decide, by decide, by decide⟩
theorem witness_UnusedFieldsAreIgnored_write :
    sameButUnused (inPhase 3 .wrTry (boot [])) { inPhase 3 .wrTry (boot []) with fgBaud := 8 } ∧
      phaseFits (inPhase 3 .wrTry (boot [])) = true ∧ sameUsedFields 0xFFFFFFFFFFFF4103 0x4103 := by
  refine ⟨⟨rfl, by decide, by decide⟩, by decide, by decide, by decide, by decide, by decide⟩
theorem witness_UnusedFieldsAreIgnored_begin :
    sameButUnused (inPhase 1 .bgCfg (boot [])) { inPhase 1 .bgCfg (boot []) with fgData := 8 } ∧
      phaseFits (inPhase 1 .bgCfg (boot [])) = true ∧ sameUsedFields 0x258000030001 0x25800003FF01 := by
  refine ⟨⟨rfl, by decide, by decide⟩, by decide, by decide, by decide, by decide, by decide⟩

theorem witness_StepRunsTheDrawnInstruction :
    (boot [.issue 0x4103]).schedule = [.issue 0x4103] ∧ (boot [.issue 0x4103]).canIssue = true ∧
      decoded 0x4103 = some (.write ⟨0x41, 0, 0⟩) ∧
      (inPhase 5 .flTest (boot [.fg])).schedule = [.fg] ∧ (inPhase 5 .flTest (boot [.fg])).faulted = none ∧
      (inPhase 5 .flTest (boot [.fg])).inFlight = some (.flush plain) ∧
      (boot [.intRx]).schedule = [.intRx] ∧ (boot [.intTx]).schedule = [.intTx] := by decide

theorem witness_PlacedWordRunsNext :
    decodeTableWord 64 0x258000030001 = some (.beginCmd ⟨0, 3, 9600⟩) ∧ decodeTableWord 8 0 = some .rxHandler ∧
      decodeTableWord 7 1 = some .txHandler := by decide

theorem witness_NotEnabledInstructionsChangeNothing_draw :
    (inPhase 5 .flTest (boot [.issue 0x6])).schedule = [.issue 0x6] ∧
      enabled (.issue 0x6) (inPhase 5 .flTest (boot [.issue 0x6])) = false := by decide

theorem witness_NotEnabledInstructionsChangeNothing :
    ({ boot [] with gie := false } : State).gie = false ∧ (boot []).rxcIe = false ∧ (boot []).hwRxc = false ∧
      (inPhase 5 .flTest (boot [])).fgPc ≠ .idle ∧ (inPhase 5 .flTest (boot [])).fgOp ≠ 1 ∧
      ({ boot [] with faulted := some .baudZero } : State).faulted ≠ none := by decide

theorem witness_RingPrimitivesDoTheirEffect_push :
    (3 < 4 ∧ (3 + 1) % 4 ≠ 1) ∧ (0 < 2 ∧ (0 + 1) % 2 ≠ 0) ∧ (1 < 2 ∧ (1 + 1) % 2 = 0) := by decide

theorem witness_RingPrimitivesDoTheirEffect_pop :
    oldest 4 ⟨[(3, 0x5A)], 0, 3⟩ 0x5A ∧ oldest 2 ⟨[(0, 0xA1)], 1, 0⟩ 0xA1 ∧
      memGet [(3, (0x5A : Byte))] 2 = none := by decide

theorem witness_RingCountsAgree :
    (2 ≤ 2 ∧ 1 < 2 ∧ 0 < 2) ∧ (2 ≤ 65536 ∧ 65535 < 65536 ∧ 0 < 65536) := by decide

theorem witness_RingIsFirstInFirstOut :
    ringWf 4 ⟨[(1, 0x11), (2, 0x12), (3, 0x5A)], 0, 1⟩ ∧ ringWf 2 ⟨[], 1, 1⟩ ∧
      content 4 ⟨[(1, 0x11), (2, 0x12), (3, 0x5A)], 0, 1⟩ = [0x11, 0x12, 0x5A] := by decide
/-- The push and the pop that the clauses speak of. -/
theorem witness_RingIsFirstInFirstOut_push_and_pop :
    ringPush 4 0x5A ⟨[], 3, 3⟩ = Except.ok (⟨[(3, 0x5A)], 0, 3⟩, true) ∧
      ringPush 2 0x5A ⟨[(0, 1)], 1, 0⟩ = Except.ok (⟨[(0, 1)], 1, 0⟩, false) ∧
      ringPop 4 ⟨[(3, 0x5A)], 0, 3⟩ = Except.ok (⟨[(3, 0x5A)], 0, 0⟩, some 0x5A) ∧
      ringPop 4 ⟨[], 2, 2⟩ = Except.ok (⟨[], 2, 2⟩, none) ∧ ringPeek 4 ⟨[], 2, 2⟩ = Except.ok none :=
  ⟨rfl, rfl, rfl, rfl, rfl⟩

theorem witness_EqualMemoriesAreEqualData : memWf 4 [(0, 0x11), (3, 0x5A)] = true := by decide

theorem witness_single_step_commands :
    (received []).fgPc = .idle ∧ (received []).faulted = none ∧ oldest (received []).cfg.nRx (received []).rx 0x31 ∧
      (boot []).fgPc = .idle ∧ (boot []).faulted = none ∧ (boot []).rx.head = (boot []).rx.tail := by decide

theorem witness_PollDrainsAtMostOneByte :
    ((armed []).txeIe = true ∧ (armed []).hwDre = true ∧ oldest (armed []).cfg.nTx (armed []).tx 0x42 ∧
      (armed []).fgPc = .idle ∧ (armed []).faulted = none) ∧
    ¬((boot []).txeIe = true ∧ (boot []).hwDre = true) ∧
    (drainedOut.txeIe = true ∧ drainedOut.hwDre = true ∧ drainedOut.tx.head = drainedOut.tx.tail ∧
      drainedOut.fgPc = .idle ∧ drainedOut.faulted = none) := by decide

theorem witness_MultiStepCommandsAreAccepted : (boot []).fgPc = .idle ∧ (boot []).faulted = none := by decide

theorem witness_WriteAttemptTakesItsPath :
    ((inPhase 3 .wrTry (active [])).fgPc = .wrTry ∧ (inPhase 3 .wrTry (active [])).fgOp = 3 ∧
      (inPhase 3 .wrTry (active [])).faulted = none ∧ (active []).txeIe = false ∧ (active []).hwDre = true) ∧
    (¬((armed []).txeIe = false ∧ (armed []).hwDre = true) ∧
      ((armed []).tx.head + 1) % (armed []).cfg.nTx ≠ (armed []).tx.tail ∧ (armed []).tx.head < (armed []).cfg.nTx) ∧
    (¬((crowded []).txeIe = false ∧ (crowded []).hwDre = true) ∧
      ((crowded []).tx.head + 1) % (crowded []).cfg.nTx = (crowded []).tx.tail) := by decide

theorem witness_WritePollsThenTestsForRoom :
    (inPhase 3 .wrPoll (crowded [])).fgPc = .wrPoll ∧ (inPhase 3 .wrPoll (crowded [])).fgOp = 3 ∧
      (inPhase 3 .wrPoll (crowded [])).faulted = none ∧
      ¬((crowded []).txeIe = true ∧ (crowded []).hwDre = true) ∧
      (inPhase 3 .wrPoll (armed [])).txeIe = true ∧ (inPhase 3 .wrPoll (armed [])).hwDre = true ∧
      oldest 4 (inPhase 3 .wrPoll (armed [])).tx 0x42 ∧
      (inPhase 3 .wrPoll drainedOut).tx.head = (inPhase 3 .wrPoll drainedOut).tx.tail ∧ (inPhase 3 .wrRoom (crowded [])).fgPc = .wrRoom := by decide

theorem witness_flush_steps :
    (inPhase 5 .flGate (boot [])).everWritten = false ∧ (inPhase 5 .flGate (armed [])).everWritten = true ∧
      (inPhase 2 .flGate (boot [])).fgOp = 2 ∧ (inPhase 1 .flTest (boot [])).fgPc = .flTest ∧
      (inPhase 5 .flTest (boot [])).txeIe = false ∧ (inPhase 5 .flTest (boot [])).hwTxc = true ∧
      (inPhase 5 .flTest (armed [])).txeIe = true ∧ (inPhase 5 .flTest (armed [])).faulted = none := by decide

theorem witness_FlushPollsOncePerIteration :
    (inPhase 5 .flPoll (armed [])).inFlight = some (.flush plain) ∧
      (inPhase 2 .flPoll (armed [])).inFlight = some (.endCmd plain) ∧
      (inPhase 1 .flPoll (armed [])).inFlight = some (.beginCmd plain) ∧ oldest 4 (armed []).tx 0x42 ∧
      (armed []).txReq = true ∧ (crowded []).txReq = false ∧ (armed []).faulted = none ∧
      drainedOut.txReq = true := by decide

theorem witness_begin_and_end_steps :
    (inPhase 2 .endOff (active [])).fgPc = .endOff ∧ (inPhase 2 .endOff (active [])).fgOp = 2 ∧
      (inPhase 1 .endOff (active [])).fgOp = 1 ∧ (inPhase 1 .bgGate (active [])).fgPc = .bgGate ∧
      (inPhase 1 .bgCfg (boot [])).fgBaud = 0 ∧ { inPhase 1 .bgCfg (boot []) with fgBaud := 1 }.fgBaud ≠ 0 ∧
      (inPhase 1 .bgCfg (boot [])).faulted = none := by decide

theorem witness_BaudRoundsHalfUp : 0 < 1 ∧ 0 < 4294967295 := by decide

/-- Both requests pending (V100), a byte in the shift register. -/
def bothPending (l : List Event) : State :=
  { active l with
    hwRxc := true, hwRxdata := 0x7E, tx := ⟨[(0, 0x55)], 1, 0⟩, txeIe := true, everWritten := true, hwTxc := false
    hwShiftBusy := true, hwShift := 0x54 }

theorem witness_ReceiveHandlerStoresOrDrops :
    (bothPending []).gie = true ∧ (bothPending []).rxcIe = true ∧ (bothPending []).hwRxc = true ∧
      (bothPending []).faulted = none ∧ ((bothPending []).rx.head + 1) % 4 ≠ (bothPending []).rx.tail ∧
      (bothPending []).rx.head < (bothPending []).cfg.nRx ∧
      (({ bothPending [] with rx := ⟨[], 3, 0⟩ } : State).rx.head + 1) % 4 = 0 := by decide

theorem witness_TransmitHandlerDrainsOneByte :
    (bothPending []).txeIe = true ∧ (bothPending []).hwDre = true ∧ oldest 4 (bothPending []).tx 0x55 ∧
      (bothPending []).gie = true ∧ (bothPending []).faulted = none ∧ drainedOut.gie = true ∧
      drainedOut.txeIe = true ∧ drainedOut.hwDre = true ∧ drainedOut.tx.head = drainedOut.tx.tail := by decide

theorem invariant_bothPending (l : List Event) : Invariant (bothPending l) :=
  ⟨(by decide : ringWf 4 ⟨[], 0, 0⟩), (by decide : ringWf 4 ⟨[(0, 0x55)], 1, 0⟩), rfl, fun h => (by cases h),
    fun _ h => (by cases h), fun _ _ h => (by cases h), rfl, fun h => (by rcases h with h | h <;> cases h),
    fun h => (by cases h), fun h => (by cases h), ⟨rfl, rfl, rfl⟩, fun h => (by cases h)⟩

theorem witness_HandlersCommute :
    Invariant (bothPending []) ∧ (bothPending []).rxTakeable = true ∧ (bothPending []).txTakeable = true :=
  ⟨invariant_bothPending [], by decide, by decide⟩

theorem witness_InterruptLeavesTheForeground :
    ∃ t, step (bothPending [.intRx]) = .next t ∧ nextEvent (bothPending [.intRx]) = .intRx :=
  ⟨_, rfl, rfl⟩

theorem witness_EveryStepKeepsTheInvariant :
    ∃ t, Invariant (bothPending [.intTx]) ∧ step (bothPending [.intTx]) = .next t :=
  ⟨_, invariant_bothPending _, rfl⟩

theorem witness_DisabledDirectionDoesNothing :
    ∃ t, step (boot [.txDone]) = .next t ∧ (boot [.txDone]).txen = false ∧ (boot [.txDone]).rxen = false :=
  ⟨_, rfl, rfl, rfl⟩

/-- Each status bit moves in some step. -/
theorem witness_PeripheralKeepsItsContract :
    (crowded [.txLoad]).hwDre = false ∧ (after (crowded [.txLoad])).hwDre = true ∧
      ({ active [.txDone] with hwShiftBusy := true, hwTxc := false } : State).hwTxc = false ∧
      (after { active [.txDone] with hwShiftBusy := true, hwTxc := false }).hwTxc = true ∧
      (after (bothPending [.intTx])).hwDre = false ∧ (after (bothPending [.intRx])).hwRxc = false ∧
      (armed [.intTx]).hwTxc = true ∧ (after (armed [.intTx])).hwTxc = false ∧
      (active [.rxArrive 0x31 5]).hwRxc = false ∧ (after (active [.rxArrive 0x31 5])).hwRxc = true := by decide

/-- Each cursor moves in some step. -/
theorem witness_EachCursorHasOneWriter :
    (after (bothPending [.intRx])).rx.head = 1 ∧ (after (received [.issue 0x8])).rx.tail = 2 ∧
      (after (inPhase 3 .wrTry (armed [.fg]))).tx.head = 3 ∧ (after (bothPending [.intTx])).tx.tail = 1 := by decide

theorem witness_OnlyTheHeadSlotIsStored :
    memGet (after (bothPending [.intRx])).rx.mem 0 = some 0x7E ∧ memGet (bothPending [.intRx]).rx.mem 0 = none ∧
      memGet (after (inPhase 3 .wrTry (armed [.fg]))).tx.mem 2 = some 0 ∧ memGet (armed [.fg]).tx.mem 2 = none := by
  decide

theorem witness_ControlBitsHaveTheirWriters :
    (after (inPhase 2 .endOff (active [.fg]))).rxen = false ∧ (active [.fg]).rxen = true ∧
      (after { inPhase 1 .bgCfg (boot [.fg]) with fgBaud := 9600 }).txen = true ∧ (boot [.fg]).txen = false ∧
      (after (inPhase 3 .wrTry { active [.fg] with hwDre := false })).txeIe = true ∧
      (after (bothPending [.intTx])).txeIe = false := by decide

theorem witness_SetGieSetsGieAndNothingElseDoes : (after (boot [.setGie false])).gie = false ∧ (boot [.setGie false]).gie = true := by
  decide

theorem witness_FaultMarkIsForever :
    ∃ t, step { boot [.setGie false] with faulted := some .baudZero } = .next t :=
  ⟨_, rfl⟩

theorem witness_LogsOnlyGrow :
    (after (boot [.issue 0x0])).rspLog = [0x00010000] ∧ (after (received [.issue 0x8])).rspLog = [0x31] ∧
      (after { active [.txDone] with hwShiftBusy := true, hwShift := 0x41 }).txLine = [0x41] := by decide

/-- A buffer becomes full and a buffer becomes empty. -/
theorem witness_LockFreeLaw :
    (after (bothPending [.intTx])).tx.isEmpty = true ∧ (bothPending [.intTx]).tx.isEmpty = false ∧
      (after { bothPending [.intRx] with rx := ⟨[(0, 1), (1, 2)], 2, 0⟩ }).rx.isFull 4 = true ∧
      Ring.isFull 4 ⟨[(0, 1), (1, 2)], 2, 0⟩ = false := by decide

theorem witness_ForegroundIgnoresGie : (Event.issue 0x9 : Event) = .issue 0x9 := rfl

theorem witness_BlockedCommandsNeverEscape :
    (∃ t, step (inPhase 5 .flTest { boot [.fg] with hwTxc := false, everWritten := true }) = .next t ∧
      (inPhase 5 .flTest { boot [.fg] with hwTxc := false, everWritten := true }).txen = false) ∧
    (∃ t, step (inPhase 3 .wrPoll { crowded [.fg] with txen := false }) = .next t ∧
      (inPhase 3 .wrPoll { crowded [.fg] with txen := false }).tx.isFull 4 = true ∧
      (inPhase 3 .wrPoll { crowded [.fg] with txen := false }).hwDre = false) :=
  ⟨⟨_, rfl, rfl⟩, _, rfl, rfl, rfl⟩

theorem witness_FrameOfSingleStepInstructions :
    (∃ t, exec (.available plain) (boot []) = .next t) ∧ (∃ t, exec (.read plain) (received []) = .next t) ∧
      (∃ t, exec (.poll plain) (armed []) = .next t) ∧ (∃ t, exec .rxHandler (bothPending []) = .next t) ∧
      (∃ t, exec .txHandler (bothPending []) = .next t) :=
  ⟨⟨_, rfl⟩, ⟨_, rfl⟩, ⟨_, rfl⟩, ⟨_, rfl⟩, _, rfl⟩

theorem witness_FrameOfMultiStepInstructions :
    phaseFits (inPhase 3 .wrTry (armed [])) = true ∧ phaseFits (inPhase 2 .endOff (active [])) = true ∧
      (∃ t, exec (.write plain) (inPhase 3 .wrTry (armed [])) = .next t) ∧
      (∃ t, exec (.flush plain) (inPhase 5 .flPoll (armed [])) = .next t) ∧
      (∃ t, exec (.endCmd plain) (inPhase 2 .endOff (active [])) = .next t) ∧
      (∃ t, exec (.beginCmd plain) (inPhase 1 .bgGate (active [])) = .next t) :=
  ⟨rfl, rfl, ⟨_, rfl⟩, ⟨_, rfl⟩, ⟨_, rfl⟩, _, rfl⟩

/-- A `WRITE` that responds adds its byte. -/
theorem witness_TransmitStreamGrowsByWrites :
    written (inPhase 3 .wrTry (armed [.fg])) (after (inPhase 3 .wrTry (armed [.fg]))) = [0] ∧
      transmitStream (after (inPhase 3 .wrTry (armed [.fg]))) = [0x42, 0] := by decide

/-- A flush that ends with its byte sent, in a state that satisfies the invariant. -/
theorem witness_FlushEndsWithEverythingSent :
    ∃ t, step (inPhase 5 .flTest { active [.fg] with everWritten := true }) = .next t ∧ t.fgPc = .idle ∧
      Invariant (inPhase 5 .flTest { active [.fg] with everWritten := true }) :=
  ⟨_, rfl, rfl, by decide, by decide, rfl, fun h => (by cases h), fun _ _ => ⟨rfl, rfl⟩, fun _ _ _ => rfl, rfl,
    fun _ => rfl, fun h => (by cases h), fun h => (by cases h), ⟨rfl, rfl, rfl⟩, fun h => (by cases h)⟩

/-- An `END` that closes, in a state that satisfies the invariant. -/
theorem witness_EndLeavesTheResetStateBut :
    ∃ t, step (inPhase 2 .endOff (active [.fg])) = .next t ∧ t.fgPc = .idle ∧
      Invariant (inPhase 2 .endOff (active [.fg])) :=
  ⟨_, rfl, rfl, by decide, by decide, rfl, fun _ => ⟨rfl, rfl, rfl, rfl⟩, fun h => (by cases h),
    fun h => (by cases h), rfl,
    fun h => (by rcases h with h | h <;> cases h), fun _ => ⟨rfl, rfl, rfl, rfl⟩, fun h => (by cases h),
    ⟨rfl, rfl, rfl⟩, fun h => (by cases h)⟩

/-! #### Runs that go on for ever -/

/-- The state an answer gives. -/
def nextOf (s : State) (r : Result) : State :=
  match r with
  | .next t => t
  | .fault _ => s
  | .refused _ => s

/-- The steps of a list, then for ever `ENV.RX_FLUSH`, which an enabled receiver does not take. -/
def draw (es : List Event) (n : Nat) : Event := es.getD n .rxFlush

/-- The states those steps lead through. -/
def replay (es : List Event) (s : State) : Nat → State
  | 0 => s
  | n + 1 => nextOf (replay es s n) (runEvent (draw es n) (replay es s n))

theorem replay_after {es : List Event} {s : State} (he : enabled .rxFlush (replay es s es.length) = false) (k : Nat) :
    replay es s (es.length + k) = replay es s es.length := by
  induction k with
  | zero => rfl
  | succ k ih =>
    have hd : draw es (es.length + k) = .rxFlush := List.getD_eq_default _ _ (Nat.le_add_right _ _)
    rw [← Nat.add_assoc, replay, hd, ih, runEvent, he]
    rfl

/-- A list of steps that leaves nothing of the transmitter and of the foreground enabled makes a fair run. -/
theorem replay_fair {es : List Event} {s : State}
    (hn : ∀ n, n < es.length → answers (runEvent (draw es n) (replay es s n)) (fun _ => true) = true)
    (he : ∀ e, e ∈ [Event.rxFlush, .txLoad, .txDone, .fg] → enabled e (replay es s es.length) = false) :
    fairRun (draw es) (replay es s) ∧ weaklyFair .fg (draw es) (replay es s) := by
  have hf : ∀ e, e ∈ [Event.rxFlush, .txLoad, .txDone, .fg] → weaklyFair e (draw es) (replay es s) := by
    intro e hm n h
    have := h (es.length + n) (Nat.le_add_left _ _)
    rw [replay_after (he _ (by simp)), he e hm] at this
    cases this
  refine ⟨⟨fun n => ⟨(replay es s n).schedule, (replay es s n).draws, ?_⟩, hf _ (by simp), hf _ (by simp)⟩, hf _ (by simp)⟩
  show runEvent (draw es n) (replay es s n) = .next (nextOf (replay es s n) (runEvent (draw es n) (replay es s n)))
  have hx : answers (runEvent (draw es n) (replay es s n)) (fun _ => true) = true := by
    by_cases hl : n < es.length
    · exact hn n hl
    · obtain ⟨k, rfl⟩ := Nat.exists_eq_add_of_le (Nat.le_of_not_lt hl)
      have hd : draw es (es.length + k) = .rxFlush := List.getD_eq_default _ _ (Nat.le_add_right _ _)
      rw [hd, replay_after (he _ (by simp)), runEvent, he _ (by simp)]
      rfl
  revert hx
  cases runEvent (draw es n) (replay es s n) <;> simp [answers, nextOf]

/-- A `FLUSH` that polls while the last byte waits in the data register. -/
def flushing : State :=
  inPhase 5 .flPoll { active [] with everWritten := true, hwDre := false, hwTxc := false, hwTxdata := 0x41 }

/-- The byte leaves, then the flush ends. -/
def flushSteps : List Event := [.txLoad, .txDone, .fg, .fg]

theorem flushing_fair :
    fairRun (draw flushSteps) (replay flushSteps flushing) ∧
      weaklyFair .fg (draw flushSteps) (replay flushSteps flushing) :=
  replay_fair (by decide) (by decide)

theorem flushing_end (k : Nat) : replay flushSteps flushing (4 + k) = replay flushSteps flushing 4 :=
  replay_after (es := flushSteps) (by decide) k

theorem witness_FairTransmitterSendsAndReports :
    fairRun (draw flushSteps) (replay flushSteps flushing) ∧
      (∀ m, 0 ≤ m → (replay flushSteps flushing m).txen = true) ∧ (replay flushSteps flushing 0).hwDre = false ∧
      ∀ m, 0 ≤ m → (replay flushSteps flushing m).hwDre = true → (replay flushSteps flushing (m + 1)).hwDre = true := by
  refine ⟨flushing_fair.1, fun m _ => ?_, by decide, fun m _ => ?_⟩
  · match m with
    | 0 | 1 | 2 | 3 => decide
    | k + 4 => rw [Nat.add_comm, flushing_end]; decide
  · match m with
    | 0 | 1 | 2 | 3 => decide
    | k + 4 => rw [show k + 4 + 1 = 4 + (k + 1) by omega, flushing_end]; exact fun _ => by decide

theorem invariant_flushing : Invariant flushing :=
  ⟨(by decide : ringWf 4 ⟨[], 0, 0⟩), (by decide : ringWf 4 ⟨[], 0, 0⟩), rfl, fun h => (by cases h),
    fun _ h => (by cases h), fun _ h => (by cases h), rfl, fun _ => rfl, fun h => (by cases h), fun h => (by cases h),
    ⟨rfl, rfl, rfl⟩, fun h => (by cases h)⟩

theorem witness_FairRunEndsBlockingCommands_flush :
    fairRun (draw flushSteps) (replay flushSteps flushing) ∧
      weaklyFair .fg (draw flushSteps) (replay flushSteps flushing) ∧ Invariant (replay flushSteps flushing 0) ∧
      (replay flushSteps flushing 0).txen = true ∧ (replay flushSteps flushing 0).faulted = none ∧
      (replay flushSteps flushing 0).fgPc = .flPoll :=
  ⟨flushing_fair.1, flushing_fair.2, invariant_flushing, rfl, rfl, rfl⟩

/-- A `WRITE` that waits for room: the buffer is full and the hardware busy. -/
def waitingWrite : State := inPhase 3 .wrTry (crowded [])

/-- Exhausted path, room, retry; then the five bytes leave. -/
def writeSteps : List Event :=
  [.fg, .txLoad, .fg, .fg, .fg, .txDone, .txLoad, .intTx, .txDone, .txLoad, .intTx, .txDone, .txLoad, .intTx,
    .txDone, .txLoad, .txDone]

theorem invariant_waitingWrite : Invariant waitingWrite :=
  ⟨(by decide : ringWf 4 ⟨[], 0, 0⟩), (by decide : ringWf 4 ⟨[(0, 0x11), (1, 0x12), (2, 0x13)], 3, 0⟩), rfl,
    fun h => (by cases h), fun _ h => (by cases h), fun _ h => (by cases h), rfl,
    fun h => (by rcases h with h | h <;> cases h), fun h => (by cases h), fun h => (by cases h), ⟨rfl, rfl, rfl⟩,
    fun h => (by cases h)⟩

theorem witness_FairRunEndsBlockingCommands_write :
    fairRun (draw writeSteps) (replay writeSteps waitingWrite) ∧
      weaklyFair .fg (draw writeSteps) (replay writeSteps waitingWrite) ∧
      Invariant (replay writeSteps waitingWrite 0) ∧ (replay writeSteps waitingWrite 0).txen = true ∧
      (replay writeSteps waitingWrite 0).faulted = none ∧ (replay writeSteps waitingWrite 0).fgPc = .wrTry := by
  have h := replay_fair (es := writeSteps) (s := waitingWrite) (by decide) (by decide)
  exact ⟨h.1, h.2, invariant_waitingWrite, rfl, rfl, rfl⟩

/-! #### Unread values, responses, received bytes, programs -/

theorem witness_InvariantStatesNeverStop : Invariant (bothPending [.fg]) := invariant_bothPending _

/-- Before a byte is written: every register that nothing reads may differ. -/
theorem witness_UnspecifiedValuesChangeNothing :
    Invariant (inPhase 2 .endOff (active [.fg])) ∧
      sameButUnread (inPhase 2 .endOff (active [.fg])) { inPhase 2 .endOff (active [.fg]) with
        hwTxc := false, hwRxdata := 1, hwRxerr := 2, hwTxdata := 3, hwShift := 4, fgData := 5, fgBaud := 6, fgFrame := 7
        hwBaud := 8, hwFrame := 9 } ∧ drawn.gie = { drawn with hwTxc := false }.gie := by
  refine ⟨⟨by decide, by decide, rfl, fun _ => ⟨rfl, rfl, rfl, rfl⟩, fun h => (by cases h), fun h => (by cases h), rfl,
    fun h => (by rcases h with h | h <;> cases h), fun _ => ⟨rfl, rfl, rfl, rfl⟩, fun h => (by cases h),
    ⟨rfl, rfl, rfl⟩, fun h => (by cases h)⟩, ⟨rfl, ?_⟩, rfl⟩
  decide

/-- A command that is accepted and one that responds. -/
theorem witness_EachCommandRespondsOnce :
    Invariant (bothPending [.issue 0x4103]) ∧ (∃ t, step (bothPending [.issue 0x4103]) = .next t) ∧
      issued (bothPending [.issue 0x4103]) (after (bothPending [.issue 0x4103])) = [0x4103] ∧
      outstanding (after (bothPending [.issue 0x4103])) = 1 ∧
      writing (after (bothPending [.issue 0x4103])) = [0x41] ∧ bytesToWrite [0x4103, 0x4213, 0x9] = [0x41] :=
  ⟨invariant_bothPending _, ⟨_, rfl⟩, by decide, by decide, by decide, by decide⟩

/-- The pending byte moves into the buffer, and a full buffer drops it. -/
theorem witness_ReceiveStreamOnlyLosesBytes :
    Invariant (bothPending [.intRx]) ∧ (∃ t, step (bothPending [.intRx]) = .next t) ∧
      receiveStream (bothPending [.intRx]) = [0x7E] ∧ receiveStream (after (bothPending [.intRx])) = [0x7E] ∧
      returned (received [.issue 0x8]) (after (received [.issue 0x8])) = [0x31] ∧
      arrived (active [.rxArrive 0x31 0]) (after (active [.rxArrive 0x31 0])) = [0x31] :=
  ⟨invariant_bothPending _, ⟨_, rfl⟩, by decide, by decide, by decide, by decide⟩

theorem invariant_active : Invariant (active []) :=
  ⟨(by decide : ringWf 4 ⟨[], 0, 0⟩), (by decide : ringWf 4 ⟨[], 0, 0⟩), rfl, fun _ => ⟨rfl, rfl, rfl, rfl⟩,
    fun h => (by cases h), fun h => (by cases h), rfl, fun h => (by rcases h with h | h <;> cases h),
    fun h => (by cases h), fun h => (by cases h), ⟨rfl, rfl, rfl⟩, fun h => (by cases h)⟩

/-- A run that is over with an enabled transmitter: no command yet. -/
theorem witness_RunOverMeansSent :
    Invariant (active []) ∧ runOver [] (active []) ∧ (active []).txen = true ∧ (active []).gie = true :=
  ⟨invariant_active, by decide, rfl, rfl⟩

/-- The program `BEGIN 9600, 3; WRITE 0x41` (V60, V40), with a `WRITE` offered too early, which is not issued. -/
def programRun : List Event :=
  [.issue 0x0000258000030001, .fg, .issue 0x4203, .fg, .issue 0x4103, .fg, .txLoad, .txDone]

/-- Its words. -/
def twoWords : Program := [0x0000258000030001, 0x4103]

theorem witness_RunOverMeansSent_program :
    ∃ t : State, Host.Core.run core 8 (State.resetWith Config.params drawn programRun) = .next t ∧
      runsProgram twoWords 8 (State.resetWith Config.params drawn programRun) ∧ runOver twoWords t ∧
      t.txen = true ∧ t.gie = true ∧ t.txLine = [0x41] :=
  ⟨_, rfl, by unfold runsProgram; decide, by decide, rfl, rfl, rfl⟩

end Sys2Proof.Tests
end

section
/-! PROOFS. Enabling conditions as propositions, and what an operation answers where its condition is false
(00_scope.md R11). -/

namespace Sys2Proof.Machine

open Sys2Proof

theorem canIssue_iff (s : State) : s.canIssue = true ↔ s.fgPc = .idle ∧ s.faulted = none := by
  simp only [State.canIssue, Bool.and_eq_true, beq_iff_eq]

theorem fgEnabled_iff (s : State) : s.fgEnabled = true ↔ s.fgPc ≠ .idle ∧ s.faulted = none := by
  simp only [State.fgEnabled, Bool.and_eq_true, Bool.not_eq_true', beq_eq_false_iff_ne, beq_iff_eq]

theorem rxTakeable_iff (s : State) :
    s.rxTakeable = true ↔ s.gie = true ∧ s.rxcIe = true ∧ s.hwRxc = true ∧ s.faulted = none := by
  simp only [State.rxTakeable, State.rxReq, Bool.and_eq_true, beq_iff_eq, and_assoc]

theorem txTakeable_iff (s : State) :
    s.txTakeable = true ↔ s.gie = true ∧ s.txeIe = true ∧ s.hwDre = true ∧ s.faulted = none := by
  simp only [State.txTakeable, State.txReq, Bool.and_eq_true, beq_iff_eq, and_assoc]

/-- The first event of the schedule is the one the step runs, and its draw is used up. -/
theorem step_of_schedule_cons {s : State} {e : Event} {rest : List Event} (h : s.schedule = e :: rest) :
    step s = runEvent e { s with schedule := rest } := by
  simp only [step, nextEvent, takeDraw, h]

theorem runEvent_of_not_enabled {e : Event} {s : State} (h : enabled e s = false) : runEvent e s = .next s := by
  simp [runEvent, h]

theorem execRxHandler_of_not_takeable {s : State} (h : ¬s.rxTakeable = true) : execRxHandler s = .next s :=
  if_neg h

theorem execTxHandler_of_not_takeable {s : State} (h : ¬s.txTakeable = true) : execTxHandler s = .next s :=
  if_neg h

theorem hostIssue_of_not_canIssue {s : State} (op : BitVec 4) (o : Operands) (body : State → Effect)
    (h : ¬s.canIssue = true) : hostIssue op o body s = .next s :=
  if_neg h

theorem fgStep_of_not_fgEnabled {s : State} (h : ¬s.fgEnabled = true) : fgStep s = .next s :=
  if_neg h

/-- After a fault a multi-step command is neither accepted nor continued (60_exceptions.md R285). -/
theorem multiStep_of_faulted {s : State} (op : BitVec 4) (first : Phase) (o : Operands) (h : s.faulted ≠ none) :
    multiStep op first o s = .next s := by
  have hissue : ¬s.canIssue = true := fun hi => h ((canIssue_iff s).mp hi).2
  have hfg : ¬s.fgEnabled = true := fun hf => h ((fgEnabled_iff s).mp hf).2
  rw [multiStep, hostIssue_of_not_canIssue _ _ _ hissue, fgStep_of_not_fgEnabled hfg, ite_self, ite_self]

/-- While another operation is in progress a multi-step command is not accepted (30_encoding.md R91). -/
theorem multiStep_of_otherOp {s : State} {op : BitVec 4} (first : Phase) (o : Operands) (hbusy : s.fgPc ≠ .idle)
    (hop : s.fgOp ≠ op) : multiStep op first o s = .next s := by
  rw [multiStep, if_neg hbusy, if_neg (fun h => hop h.1)]

/-- Settles O8, by the lemma about each shared operation where its enabling condition is false. -/
theorem notEnabledInstructionsChangeNothing : Obligations.NotEnabledInstructionsChangeNothing := by
  refine ⟨fun s e rest hs he => ?_, fun s o => ⟨fun h => ?_, fun h => ?_, fun h => ?_, fun h => ?_, fun h => ?_⟩⟩
  · rw [step_of_schedule_cons hs]
    exact runEvent_of_not_enabled ((enabled_withDraws e s rest s.draws).trans he)
  · exact execRxHandler_of_not_takeable (mt (rxTakeable_iff s).mp h)
  · exact execTxHandler_of_not_takeable (mt (txTakeable_iff s).mp h)
  · have hissue (op : BitVec 4) (body : State → Effect) : hostIssue op o body s = .next s :=
      hostIssue_of_not_canIssue op o body (mt (canIssue_iff s).mp h)
    exact ⟨hissue 6 _, hissue 4 _, hissue 7 _, hissue 8 _, hissue 9 _⟩
  · exact ⟨multiStep_of_faulted 1 _ o h, multiStep_of_faulted 2 _ o h, multiStep_of_faulted 3 _ o h,
      multiStep_of_faulted 5 _ o h⟩
  · exact ⟨multiStep_of_otherOp _ o h, multiStep_of_otherOp _ o h, multiStep_of_otherOp _ o h,
      multiStep_of_otherOp _ o h⟩

end Sys2Proof.Machine
end

section
/-! PROOFS. Who writes each ring buffer, each control bit and each log, one case per writer (10_state.md R24, R34, R36,
R47), and what stands still after a fault (60_exceptions.md R285). -/

namespace Sys2Proof.Machine

open Sys2Proof

/-! ### The registers after a drain, a setup and a shutdown -/

@[simp] theorem drained_rx (c : Byte) (s : State) : (drained c s).rx = s.rx := by simp only [drained]
@[simp] theorem drained_rxen (c : Byte) (s : State) : (drained c s).rxen = s.rxen := by simp only [drained]
@[simp] theorem drained_txen (c : Byte) (s : State) : (drained c s).txen = s.txen := by simp only [drained]
@[simp] theorem drained_rxcIe (c : Byte) (s : State) : (drained c s).rxcIe = s.rxcIe := by simp only [drained]
@[simp] theorem drained_rspLog (c : Byte) (s : State) : (drained c s).rspLog = s.rspLog := by simp only [drained]
@[simp] theorem drained_txLine (c : Byte) (s : State) : (drained c s).txLine = s.txLine := by simp only [drained]
@[simp] theorem drained_tx (c : Byte) (s : State) : (drained c s).tx = popped s.cfg.nTx s.tx := by
  simp only [drained, popped]
@[simp] theorem begun_rx (s : State) : (begun s).rx = s.rx := by simp only [begun]
@[simp] theorem begun_tx (s : State) : (begun s).tx = s.tx := by simp only [begun]
@[simp] theorem begun_rxen (s : State) : (begun s).rxen = true := by simp only [begun]
@[simp] theorem begun_txen (s : State) : (begun s).txen = true := by simp only [begun]
@[simp] theorem begun_rxcIe (s : State) : (begun s).rxcIe = true := by simp only [begun]
@[simp] theorem begun_txeIe (s : State) : (begun s).txeIe = s.txeIe := by simp only [begun]
@[simp] theorem begun_fgPc (s : State) : (begun s).fgPc = .idle := by simp only [begun]
@[simp] theorem begun_rspLog (s : State) : (begun s).rspLog = s.rspLog ++ [rspWord false 0] := by simp only [begun]
@[simp] theorem begun_txLine (s : State) : (begun s).txLine = s.txLine := by simp only [begun]
@[simp] theorem shutDown_rx (s : State) : (shutDown s).rx = { s.rx with tail := s.rx.head } := by
  simp [shutDown]
@[simp] theorem shutDown_tx (s : State) : (shutDown s).tx = s.tx := by simp [shutDown]
@[simp] theorem shutDown_rxen (s : State) : (shutDown s).rxen = false := by simp [shutDown]
@[simp] theorem shutDown_txen (s : State) : (shutDown s).txen = false := by simp [shutDown]
@[simp] theorem shutDown_rxcIe (s : State) : (shutDown s).rxcIe = false := by simp [shutDown]
@[simp] theorem shutDown_txeIe (s : State) : (shutDown s).txeIe = false := by simp [shutDown]
@[simp] theorem shutDown_rspLog (s : State) : (shutDown s).rspLog = s.rspLog := by simp [shutDown]
@[simp] theorem shutDown_txLine (s : State) : (shutDown s).txLine = s.txLine := by simp [shutDown]

/-! ### The two ring buffers -/

/-- The phases that poll are `WR_POLL` and `FL_POLL`. -/
theorem PollPhase.polls {q p : Phase} (h : PollPhase q p) : q = .wrPoll ∨ q = .flPoll := by
  cases h with
  | write => exact .inl rfl
  | flush => exact .inr rfl

/-- The consumers of the transmit buffer: the transmit handler, and a `PollOnce` in `WR_POLL`, `FL_POLL` or `POLL`
(10_state.md R24). -/
def mayDrain (e : Event) (s : State) : Prop :=
  e = .intTx ∨ (e = .fg ∧ (s.fgPc = .wrPoll ∨ s.fgPc = .flPoll)) ∨ ∃ w o, e = .issue w ∧ decodeCmd w = .ok (.poll o)

/-- The receive buffer after a step: pushed by `INT.RX`, emptied by `END_OFF`, popped by `READ`, or as before. -/
theorem Move.rx_cases {e : Event} {s t : State} (h : Move e s t) :
    t.rx = s.rx ∨ (e = .intRx ∧ t.rx = pushed s.cfg.nRx s.hwRxdata s.rx) ∨
    ((e = .fg ∧ s.fgPc = .endOff) ∧ t.rx = { s.rx with tail := s.rx.head }) ∨
    ((∃ w o, e = .issue w ∧ decodeCmd w = .ok (.read o)) ∧ t.rx = popped s.cfg.nRx s.rx) := by
  cases h with
  | receiveStore => exact .inr (.inl ⟨rfl, rfl⟩)
  | endRespond hf hp | endGoOn hf hp => exact .inr (.inr (.inl ⟨⟨rfl, hp⟩, rfl⟩))
  | readSome hi hw => exact .inr (.inr (.inr ⟨⟨_, _, rfl, hw⟩, rfl⟩))
  | _ => simp

/-- The transmit buffer after a step: pushed by the slow path of `WRITE`, popped by the drain logic, or as before. -/
theorem Move.tx_cases {e : Event} {s t : State} (h : Move e s t) :
    t.tx = s.tx ∨ ((e = .fg ∧ s.fgPc = .wrTry) ∧ t.tx = pushed s.cfg.nTx s.fgData s.tx) ∨
    (mayDrain e s ∧ t.tx = popped s.cfg.nTx s.tx) := by
  cases h with
  | writeSlow hf hp => exact .inr (.inl ⟨⟨rfl, hp⟩, rfl⟩)
  | transmitDrain => exact .inr (.inr ⟨.inl rfl, rfl⟩)
  | pollPhaseDrain hf hp => exact .inr (.inr ⟨.inr (.inl ⟨rfl, hp.polls⟩), rfl⟩)
  | pollDrain hi hw => exact .inr (.inr ⟨.inr (.inr ⟨_, _, rfl, hw⟩), by simp⟩)
  | _ => simp

/-- Every slot but the one at the head reads after a push as before it. -/
theorem eq_head_of_pushed_changes {n a : Nat} {b : Byte} {r : Ring}
    (h : memGet (pushed n b r).mem a ≠ memGet r.mem a) : a = r.head := by
  by_contra hne
  exact h (memGet_memSet_ne r.mem b (Ne.symm hne))

/-- Settles O38, by the writers of each ring buffer: a push moves the head alone, the others move the tail alone. -/
theorem eachCursorHasOneWriter : Obligations.EachCursorHasOneWriter := by
  intro s t h
  have hrx := (step_move h).rx_cases
  have htx := (step_move h).tx_cases
  simp only [mayDrain, takeDraw_rx, takeDraw_tx, takeDraw_fgPc, takeDraw_cfg, takeDraw_hwRxdata,
    takeDraw_fgData] at hrx htx
  refine ⟨fun hne => ?_, fun hne => ?_, fun hne => ?_, fun hne => ?_⟩
  · obtain hr | ⟨hw, hr⟩ | ⟨-, hr⟩ | ⟨-, hr⟩ := hrx <;> rw [hr] at hne
    · exact absurd rfl hne
    · exact hw
    · exact absurd rfl hne
    · exact absurd (popped_head _ _) hne
  · obtain hr | ⟨-, hr⟩ | ⟨hw, hr⟩ | ⟨hw, hr⟩ := hrx <;> rw [hr] at hne
    · exact absurd rfl hne
    · exact absurd (pushed_tail _ _ _) hne
    · exact .inl hw
    · exact .inr hw
  · obtain hr | ⟨hw, hr⟩ | ⟨-, hr⟩ := htx <;> rw [hr] at hne
    · exact absurd rfl hne
    · exact hw
    · exact absurd (popped_head _ _) hne
  · obtain hr | ⟨-, hr⟩ | ⟨hw, hr⟩ := htx <;> rw [hr] at hne
    · exact absurd rfl hne
    · exact absurd (pushed_tail _ _ _) hne
    · exact hw

/-- Settles O39: of the writers of a ring buffer only the push stores, and it stores at the head. -/
theorem onlyTheHeadSlotIsStored : Obligations.OnlyTheHeadSlotIsStored := by
  intro s t h a
  have hrx := (step_move h).rx_cases
  have htx := (step_move h).tx_cases
  simp only [takeDraw_rx, takeDraw_tx, takeDraw_fgPc, takeDraw_cfg, takeDraw_hwRxdata, takeDraw_fgData] at hrx htx
  refine ⟨fun hne => ?_, fun hne => ?_⟩
  · obtain hr | ⟨hw, hr⟩ | ⟨-, hr⟩ | ⟨-, hr⟩ := hrx <;> rw [hr] at hne
    · exact absurd rfl hne
    · exact ⟨hw, eq_head_of_pushed_changes hne⟩
    · exact absurd rfl hne
    · exact absurd (by rw [popped_mem]) hne
  · obtain hr | ⟨⟨hw, hp⟩, hr⟩ | ⟨-, hr⟩ := htx <;> rw [hr] at hne
    · exact absurd rfl hne
    · exact ⟨hw, hp, eq_head_of_pushed_changes hne⟩
    · exact absurd (by rw [popped_mem]) hne

/-! ### The control bits -/

/-- `rxen`, `txen` and `rxc_ie` after a step: all set by `BG_CFG`, all cleared by `END_OFF`, or as before
(10_state.md R36). -/
theorem Move.enables_cases {e : Event} {s t : State} (h : Move e s t) :
    (t.rxen = s.rxen ∧ t.txen = s.txen ∧ t.rxcIe = s.rxcIe) ∨
    ((e = .fg ∧ s.fgPc = .bgCfg) ∧ t.rxen = true ∧ t.txen = true ∧ t.rxcIe = true) ∨
    ((e = .fg ∧ s.fgPc = .endOff) ∧ t.rxen = false ∧ t.txen = false ∧ t.rxcIe = false) := by
  cases h with
  | beginConfigure hf hp => exact .inr (.inl ⟨⟨rfl, hp⟩, rfl, rfl, rfl⟩)
  | endRespond hf hp | endGoOn hf hp => exact .inr (.inr ⟨⟨rfl, hp⟩, rfl, rfl, rfl⟩)
  | _ => simp

/-- A drain clears `txe_ie` only where it takes the last byte (44_interrupt_handlers.md R224). -/
theorem drained_txeIe_cases (c : Byte) (s : State) :
    (drained c s).txeIe = s.txeIe ∨
    ((drained c s).txeIe = false ∧ s.tx.head = (popped s.cfg.nTx s.tx).tail) := by
  by_cases hlast : s.tx.head = (popped s.cfg.nTx s.tx).tail
  · exact .inr ⟨if_pos hlast, hlast⟩
  · exact .inl (if_neg hlast)

/-- `txe_ie` after a step: set by the slow path of `WRITE`, cleared by `END_OFF` or by a pop of the last byte, or as
before (10_state.md R36). -/
theorem Move.txeIe_cases {e : Event} {s t : State} (h : Move e s t) :
    t.txeIe = s.txeIe ∨ ((e = .fg ∧ s.fgPc = .wrTry) ∧ t.txeIe = true) ∨
    ((e = .fg ∧ s.fgPc = .endOff) ∧ t.txeIe = false) ∨
    (t.tx = popped s.cfg.nTx s.tx ∧ t.txeIe = false ∧ s.tx.head = (popped s.cfg.nTx s.tx).tail) := by
  cases h with
  | writeSlow hf hp => exact .inr (.inl ⟨⟨rfl, hp⟩, rfl⟩)
  | endRespond hf hp | endGoOn hf hp => exact .inr (.inr (.inl ⟨⟨rfl, hp⟩, rfl⟩))
  | @transmitDrain _ c | @pollPhaseDrain _ _ c =>
    exact (drained_txeIe_cases c s).imp_right fun hlast => .inr (.inr ⟨by simp, hlast⟩)
  | @pollDrain _ o _ c =>
    exact (drained_txeIe_cases c (s.latch 9 o)).imp_right fun hlast => .inr (.inr ⟨by simp, hlast⟩)
  | _ => simp

/-- Settles O40, by the writers of each control bit; a drain that clears `txe_ie` has moved the tail to the head. -/
theorem controlBitsHaveTheirWriters : Obligations.ControlBitsHaveTheirWriters := by
  intro s t h
  have hen := (step_move h).enables_cases
  have htxe := (step_move h).txeIe_cases
  simp only [takeDraw_rxen, takeDraw_txen, takeDraw_rxcIe, takeDraw_txeIe, takeDraw_tx, takeDraw_fgPc,
    takeDraw_cfg] at hen htxe
  refine ⟨fun hset => ?_, fun hclear => ?_, fun hs ht => ?_, fun hs ht => ?_⟩
  · obtain ⟨hrx, htx, hrxc⟩ | ⟨hw, -⟩ | ⟨-, hrx, htx, hrxc⟩ := hen
    · simp [hrx, htx, hrxc] at hset
    · exact hw
    · simp [hrx, htx, hrxc] at hset
  · obtain ⟨hrx, htx, hrxc⟩ | ⟨-, hrx, htx, hrxc⟩ | ⟨hw, -⟩ := hen
    · simp [hrx, htx, hrxc] at hclear
    · simp [hrx, htx, hrxc] at hclear
    · exact hw
  · obtain heq | ⟨hw, -⟩ | ⟨-, hoff⟩ | ⟨-, hoff, -⟩ := htxe
    · simp [heq, hs] at ht
    · exact hw
    · simp [hoff] at ht
    · simp [hoff] at ht
  · obtain heq | ⟨-, hon⟩ | ⟨hw, -⟩ | ⟨hpop, -, hlast⟩ := htxe
    · simp [heq, hs] at ht
    · simp [hon] at ht
    · exact .inl hw
    · rw [hpop]
      exact .inr ⟨hlast, popped_tail _ _⟩

/-! ### The fault mark -/

/-- After a fault the steps of the foreground, of the interrupt agent and of `HOST.ISSUE` are disabled; only
`HOST.SET_GIE` and the peripheral have a step that changes anything (60_exceptions.md R285). -/
theorem runEvent_faulted_cases {e : Event} {s t : State} (hs : s.faulted ≠ none) (h : runEvent e s = .next t) :
    t = s ∨ (∃ v, t = hostSetGie v s) ∨ t = envTxLoad s ∨ t = envTxDone s ∨ (∃ b x, t = envRxArrive b x s) ∨
      t = envRxFlush s := by
  by_cases he : enabled e s = true
  · rw [runEvent, if_pos he] at h
    cases e with
    | issue w =>
      obtain ⟨-, hnone⟩ := (canIssue_iff s).mp he
      exact absurd hnone hs
    | fg =>
      obtain ⟨-, hnone⟩ := (fgEnabled_iff s).mp he
      exact absurd hnone hs
    | intRx =>
      obtain ⟨-, -, -, hnone⟩ := (rxTakeable_iff s).mp he
      exact absurd hnone hs
    | intTx =>
      obtain ⟨-, -, -, hnone⟩ := (txTakeable_iff s).mp he
      exact absurd hnone hs
    | setGie v => cases h; exact .inr (.inl ⟨v, rfl⟩)
    | txLoad => cases h; exact .inr (.inr (.inl rfl))
    | txDone => cases h; exact .inr (.inr (.inr (.inl rfl)))
    | rxArrive b x => cases h; exact .inr (.inr (.inr (.inr (.inl ⟨b, x, rfl⟩))))
    | rxFlush => cases h; exact .inr (.inr (.inr (.inr (.inr rfl))))
  · rw [runEvent_of_not_enabled (Bool.eq_false_of_not_eq_true he)] at h
    cases h
    exact .inl rfl

/-- Settles O42: the steps left after a fault, those of the peripheral and of `HOST.SET_GIE`, write none of the block's
registers. -/
theorem faultMarkIsForever : Obligations.FaultMarkIsForever := by
  intro s t h hs
  have hs' : (takeDraw s).faulted ≠ none := by simpa using hs
  obtain rfl | ⟨v, rfl⟩ | rfl | rfl | ⟨b, x, rfl⟩ | rfl := runEvent_faulted_cases hs' h <;> simp

/-! ### The two logs -/

/-- `rsp_log` after a step: longer by one response of the foreground or the host, which leaves the foreground idle, or
as before (10_state.md R34, 30_encoding.md R96, R98). -/
theorem Move.rspLog_cases {e : Event} {s t : State} (h : Move e s t) :
    t.rspLog = s.rspLog ∨
    ((e = .fg ∨ ∃ w, e = .issue w) ∧ t.fgPc = .idle ∧
      ((∃ v, t.rspLog = s.rspLog ++ [rspWord false v]) ∨ t.rspLog = s.rspLog ++ [illegalResponse])) := by
  cases h with
  | refuse hi => exact .inr ⟨.inr ⟨_, rfl⟩, canIssue_idle hi, .inr rfl⟩
  | available | availableForWrite | peekNone | peekSome | readNone | readSome =>
    exact .inr ⟨.inr ⟨_, rfl⟩, rfl, .inl ⟨_, rfl⟩⟩
  | pollIdle | pollDrain => exact .inr ⟨.inr ⟨_, rfl⟩, rfl, .inl ⟨0, by simp⟩⟩
  | writeFast | writeSlow => exact .inr ⟨.inl rfl, rfl, .inl ⟨1, by simp⟩⟩
  | flushRespond | endRespond | beginConfigure => exact .inr ⟨.inl rfl, rfl, .inl ⟨0, by simp⟩⟩
  | _ => simp

/-- `tx_line` after a step: longer by the byte that `ENV.TX_DONE` takes out of the shift register, or as before
(10_state.md R47, 45_hardware_interface.md R251). -/
theorem Move.txLine_cases {e : Event} {s t : State} (h : Move e s t) :
    t.txLine = s.txLine ∨ (t.txLine = s.txLine ++ [s.hwShift] ∧ e = .txDone ∧ s.hwShiftBusy = true) := by
  cases h with
  | txDone h =>
    have hbusy : s.hwShiftBusy = true := by
      simp only [enabled, Bool.and_eq_true] at h
      exact h.2
    exact .inr ⟨rfl, rfl, hbusy⟩
  | _ => simp

/-- A legal response holds zeros above its 16-bit value (30_encoding.md R95, R96). -/
theorem toNat_rspWord_false_lt (v : BitVec 16) : (rspWord false v).toNat < 65536 := by
  have := v.isLt
  rw [rspWord_false, BitVec.toNat_setWidth]
  omega

/-- Settles O43, by what each log may gain in a step. -/
theorem logsOnlyGrow : Obligations.LogsOnlyGrow := by
  intro s t h
  have hrsp := (step_move h).rspLog_cases
  have hline := (step_move h).txLine_cases
  simp only [takeDraw_rspLog, takeDraw_txLine, takeDraw_hwShift, takeDraw_hwShiftBusy] at hrsp hline
  refine ⟨?_, hline⟩
  obtain hkeep | ⟨hby, hidle, ⟨v, hgain⟩ | hgain⟩ := hrsp
  · exact .inl hkeep
  · exact .inr ⟨_, hgain, hidle, .inl (toNat_rspWord_false_lt v), hby⟩
  · exact .inr ⟨_, hgain, hidle, .inr illegalResponse_eq, hby⟩

end Sys2Proof.Machine
end

section
/-! PROOFS. The canonical form of a buffer memory (notes/assumptions/8.md): what it reads says what it is. -/

namespace Sys2Proof.Machine

open Sys2Proof

theorem memGet_cons_same (a : Nat) (b : Byte) (m : Memory) : memGet ((a, b) :: m) a = some b := if_pos rfl

theorem memGet_cons_ne {a i : Nat} (b : Byte) (m : Memory) (h : a ≠ i) : memGet ((a, b) :: m) i = memGet m i :=
  if_neg h

/-- A memory reads no slot at or below a bound that all its indexes are above. -/
theorem memGet_of_all_gt {m : Memory} {a i : Nat} (hm : m.all (fun c => decide (a < c.1)) = true) (hi : i ≤ a) :
    memGet m i = none := by
  induction m with
  | nil => rfl
  | cons c m ih =>
    obtain ⟨hc, hm⟩ : a < c.1 ∧ m.all (fun c => decide (a < c.1)) = true := by simpa using hm
    rw [memGet_cons_ne _ _ (by omega), ih hm]

theorem memWf_of_cons {n a : Nat} {b : Byte} {m : Memory} (h : memWf n ((a, b) :: m) = true) :
    m.all (fun c => decide (a < c.1)) = true ∧ memWf n m = true := by
  simp only [memWf, Bool.and_eq_true] at h
  exact ⟨h.1.2, h.2⟩

/-- The first index of a canonical memory is the least one that it reads. -/
theorem first_le_of_memGet {n a i : Nat} {b c : Byte} {m : Memory} (hm : memWf n ((a, b) :: m) = true)
    (hi : memGet ((a, b) :: m) i = some c) : a ≤ i := by
  by_contra hlt
  rw [memGet_cons_ne b m (by omega), memGet_of_all_gt (memWf_of_cons hm).1 (by omega)] at hi
  cases hi

/-- Canonical memories that read alike and begin at the same index read alike behind it: there neither reads it. -/
theorem memGet_tail_eq {n a : Nat} {b : Byte} {m k : Memory} (hm : memWf n ((a, b) :: m) = true)
    (hk : memWf n ((a, b) :: k) = true) (h : ∀ i, memGet ((a, b) :: m) i = memGet ((a, b) :: k) i) (i : Nat) :
    memGet m i = memGet k i := by
  by_cases hi : a = i
  · rw [memGet_of_all_gt (memWf_of_cons hm).1 hi.ge, memGet_of_all_gt (memWf_of_cons hk).1 hi.ge]
  · simpa only [memGet_cons_ne b _ hi] using h i

/-- Settles O12, by induction on one memory: each first index is read by the other memory too, so the two agree, and
so do the bytes there. -/
theorem equalMemoriesAreEqualData : Obligations.EqualMemoriesAreEqualData := by
  intro n m k hm hk h
  induction m generalizing k with
  | nil =>
    cases k with
    | nil => rfl
    | cons d k => exact absurd ((h d.1).trans (memGet_cons_same d.1 d.2 k)) (by simp [memGet])
  | cons c m ih =>
    obtain ⟨a, b⟩ := c
    cases k with
    | nil => exact absurd ((h a).symm.trans (memGet_cons_same a b m)) (by simp [memGet])
    | cons d k =>
      obtain ⟨a', b'⟩ := d
      have hread : memGet ((a', b') :: k) a = some b := (h a).symm.trans (memGet_cons_same a b m)
      have hread' : memGet ((a, b) :: m) a' = some b' := (h a').trans (memGet_cons_same a' b' k)
      obtain rfl : a = a' := le_antisymm (first_le_of_memGet hm hread') (first_le_of_memGet hk hread)
      obtain rfl : b' = b := by simpa [memGet_cons_same] using hread
      rw [ih k (memWf_of_cons hm).2 (memWf_of_cons hk).2 (memGet_tail_eq hm hk h)]

end Sys2Proof.Machine
end

section
/-! PROOFS. How a step can move a ring buffer, and which cursor moves where one becomes full or empty
(20_memory.md R72). -/

namespace Sys2Proof.Machine

open Sys2Proof

/-- Everything a step can do to a ring buffer: nothing, a push where there is room, a pop where there is a byte, or
the discarding of all bytes (43_begin_end_baud.md R196). -/
inductive RingMove (n : Nat) (r : Ring) : Ring → Prop where
  | keep : RingMove n r r
  | push (b : Byte) (hroom : (r.head + 1) % n ≠ r.tail) : RingMove n r (pushed n b r)
  | pop (hbyte : r.head ≠ r.tail) : RingMove n r (popped n r)
  | discard : RingMove n r { r with tail := r.head }

theorem Move.rx_ringMove {e : Event} {s t : State} (h : Move e s t) : RingMove s.cfg.nRx s.rx t.rx := by
  cases h with
  | receiveStore ht hn => exact .push _ hn
  | endRespond | endGoOn => exact .discard
  | readSome hi hw ho => exact .pop ho.1
  | _ => simpa using .keep

theorem Move.tx_ringMove {e : Event} {s t : State} (h : Move e s t) : RingMove s.cfg.nTx s.tx t.tx := by
  cases h with
  | writeSlow hf hp hs hn => exact .push _ hn
  | transmitDrain ht ho => exact .pop ho.1
  | pollPhaseDrain hf hp hd | pollDrain hi hw hd => simpa using .pop hd.2.1
  | _ => simpa using .keep

/-- No step writes the parameters (00_scope.md R7). -/
theorem Move.cfg_eq {e : Event} {s t : State} (h : Move e s t) : t.cfg = s.cfg := by
  cases h with
  | pollDrain | pollPhaseDrain | transmitDrain => simp [drained]
  | beginConfigure => rfl
  | endRespond | endGoOn => simp [shutDown]
  | _ => simp

theorem Ring.isFull_iff (n : Nat) (r : Ring) : r.isFull n = true ↔ (r.head + 1) % n = r.tail := beq_iff_eq
theorem Ring.isEmpty_iff (r : Ring) : r.isEmpty = true ↔ r.head = r.tail := beq_iff_eq

theorem succ_mod_ne_self {n i : Nat} (hn : 2 ≤ n) (hi : i < n) : (i + 1) % n ≠ i := by
  intro h
  have hcongr : 1 ≡ 0 [MOD n] := Nat.ModEq.add_left_cancel' i (h.trans (Nat.mod_eq_of_lt hi).symm)
  exact absurd (hcongr.eq_of_lt_of_lt (by omega) (by omega)) one_ne_zero

/-- Cursors in range with the same successor are the same. -/
theorem eq_of_succ_mod_eq {n i j : Nat} (hi : i < n) (hj : j < n) (h : (i + 1) % n = (j + 1) % n) : i = j :=
  (Nat.ModEq.add_right_cancel' 1 h).eq_of_lt_of_lt hi hj

/-- A buffer with room that is full after a move has had its head moved. -/
theorem RingMove.head_ne_of_full {n : Nat} {r q : Ring} (h : RingMove n r q) (hn : 2 ≤ n) (hr : ringWf n r)
    (hroom : r.isFull n = false) (hfull : q.isFull n = true) : q.head ≠ r.head := by
  obtain ⟨-, hhead, htail, -⟩ := hr
  rw [Ring.isFull_iff] at hfull
  cases h with
  | keep => exact absurd ((Ring.isFull_iff n r).mpr hfull) (by simp [hroom])
  | push b => exact succ_mod_ne_self hn hhead
  | pop hbyte => exact absurd (eq_of_succ_mod_eq hhead htail hfull) hbyte
  | discard => exact absurd hfull (succ_mod_ne_self hn hhead)

/-- A buffer with a byte that is empty after a move has had its tail moved. -/
theorem RingMove.tail_ne_of_empty {n : Nat} {r q : Ring} (h : RingMove n r q) (hn : 2 ≤ n) (hr : ringWf n r)
    (hbyte : r.isEmpty = false) (hempty : q.isEmpty = true) : q.tail ≠ r.tail := by
  obtain ⟨-, hhead, htail, -⟩ := hr
  rw [Ring.isEmpty_iff] at hempty
  cases h with
  | keep => exact absurd ((Ring.isEmpty_iff r).mpr hempty) (by simp [hbyte])
  | push b hroom => exact absurd hempty hroom
  | pop => exact succ_mod_ne_self hn htail
  | discard => simpa [Ring.isEmpty] using hbyte

/-- Settles O45: the cursor that must move for a buffer to become full, or empty, has one writer. -/
theorem lockFreeLaw : Obligations.LockFreeLaw := by
  intro s t hinv h
  have hrx := (step_move h).rx_ringMove
  have htx := (step_move h).tx_ringMove
  have hcfg := (step_move h).cfg_eq
  simp only [takeDraw_rx, takeDraw_tx, takeDraw_cfg] at hrx htx hcfg
  obtain ⟨hrxHead, hrxTail, htxHead, htxTail⟩ := eachCursorHasOneWriter s t h
  rw [hcfg]
  exact ⟨fun hroom hfull => htxHead (htx.head_ne_of_full s.cfg.nTx_lo hinv.txWf hroom hfull),
    fun hroom hfull => hrxHead (hrx.head_ne_of_full s.cfg.nRx_lo hinv.rxWf hroom hfull),
    fun hbyte hempty => hrxTail (hrx.tail_ne_of_empty s.cfg.nRx_lo hinv.rxWf hbyte hempty),
    fun hbyte hempty => htxTail (htx.tail_ne_of_empty s.cfg.nTx_lo hinv.txWf hbyte hempty)⟩

end Sys2Proof.Machine
end

section
/-! PROOFS. The decoder and the encoder are inverse, and which command words the decoder refuses (30_encoding.md R92,
R93, R98, R102); and the step that is drawn runs what was decoded (R91, 10_state.md R32, 60_exceptions.md R274, R275). -/

namespace Sys2Proof

/-- A word with `rsv` 0 decodes by the opcode map (30_encoding.md R93, R98). -/
theorem decodeCmd_of_fields {w : CmdWord} {i : Instr} (hrsv : fieldRsv w = 0)
    (hop : commandOf (fieldOp w) (fieldOperands w) = some i) : decodeCmd w = .ok i := by
  simp only [decodeCmd, hrsv, hop, ne_eq, not_true, if_false]

/-- Where the operation number names a command, its word decodes to that command (30_encoding.md R92, R93). -/
theorem decodeCmd_cmdWord {op : BitVec 4} {o : Operands} {i : Instr} (h : commandOf op o = some i) :
    decodeCmd (cmdWord op o) = .ok i := by
  apply decodeCmd_of_fields (fieldRsv_cmdWord op o)
  rw [fieldOp_cmdWord, fieldOperands_cmdWord, h]

/-- Settles O1: the row of the encoder is the row of the opcode map, and the fields of an encoded word are its parts. -/
theorem decodeOfEncodeIsIdentity : Obligations.DecodeOfEncodeIsIdentity := by
  intro i
  cases i with
  | rxHandler | txHandler => rfl
  | _ o => exact decodeCmd_cmdWord (o := o) rfl

/-- The encoder writes the operation number that names the command (30_encoding.md R93). -/
theorem encode_of_commandOf {op : BitVec 4} {o : Operands} {i : Instr} (h : commandOf op o = some i) :
    encode i = .cmd (cmdWord op o) := by
  unfold commandOf at h
  split at h <;> cases h <;> rfl

/-- The fields of a word with `rsv` 0 are all of its bits (30_encoding.md R92). -/
theorem cmdWord_of_fields {w : CmdWord} (h : fieldRsv w = 0) : cmdWord (fieldOp w) (fieldOperands w) = w := by
  have hrsv : w.toNat / 2 ^ 4 % 2 ^ 4 = 0 := by
    rw [← toNat_field]
    exact congrArg BitVec.toNat h
  have hlt := w.isLt
  apply BitVec.eq_of_toNat_eq
  rw [toNat_cmdWord]
  simp only [fieldOp, fieldOperands, fieldData, fieldFrame, fieldBaud, toNat_field]
  omega

/-- The two vector numbers (30_encoding.md R102). -/
theorem vector_cases : ∀ v : BitVec 1, v = 0 ∨ v = 1 := by decide

theorem encode_decodeIrq (v : BitVec 1) : encode (decodeIrq v) = .irq v := by
  obtain rfl | rfl := vector_cases v <;> rfl

/-- Settles O2: a word that decodes is put together from its fields, under the number that names its instruction. -/
theorem encodeOfDecodeIsIdentity : Obligations.EncodeOfDecodeIsIdentity := by
  intro c i h
  cases c with
  | cmd w =>
    obtain ⟨hrsv, hop⟩ := decodeCmd_ok h
    rw [encode_of_commandOf hop, cmdWord_of_fields hrsv]
  | irq v =>
    cases h
    exact encode_decodeIrq v

/-- Settles O4, by evaluating the decoder on each word. -/
theorem wordsOfTheManualDecode : Obligations.WordsOfTheManualDecode :=
  ⟨rfl, rfl, rfl, rfl, rfl, rfl, rfl, rfl, rfl, rfl⟩

/-! ### Illegal words -/

/-- The operation numbers that name no command are 0 and 10 to 15, whatever the operands (30_encoding.md R93). -/
theorem commandOf_eq_none_iff (op : BitVec 4) (o : Operands) :
    commandOf op o = none ↔ op.toNat = 0 ∨ 10 ≤ op.toNat := by
  have hnumbers : ∀ op : BitVec 4, commandOf op ⟨0, 0, 0⟩ = none ↔ op.toNat = 0 ∨ 10 ≤ op.toNat := by decide
  rw [← hnumbers]
  unfold commandOf
  split <;> simp

/-- Which command an operation number names does not depend on the operands (30_encoding.md R93). -/
theorem commandOf_isSome (op : BitVec 4) (o p : Operands) {i : Instr} (h : commandOf op o = some i) :
    ∃ j, commandOf op p = some j := by
  apply Option.ne_none_iff_exists'.mp
  rw [ne_eq, commandOf_eq_none_iff, ← commandOf_eq_none_iff op o, h]
  exact Option.some_ne_none i

/-- The decoder refuses a word for its `rsv` or for its `op` (30_encoding.md R98). -/
theorem decodeCmd_error_iff (w : CmdWord) :
    (∃ x, decodeCmd w = .error x) ↔
      (w.toNat % 16 = 0 ∨ 10 ≤ w.toNat % 16 ∨ w.toNat / 16 % 16 ≠ 0) := by
  have hrsv : fieldRsv w = 0 ↔ w.toNat / 16 % 16 = 0 := by
    rw [← BitVec.toNat_inj, fieldRsv, toNat_field]
    rfl
  have hop : commandOf (fieldOp w) (fieldOperands w) = none ↔ w.toNat % 16 = 0 ∨ 10 ≤ w.toNat % 16 := by
    rw [commandOf_eq_none_iff, fieldOp, toNat_field, pow_zero, Nat.div_one]
    rfl
  rw [← or_assoc, ← hop, ne_eq, ← hrsv]
  unfold decodeCmd
  split <;> rename_i hr
  · exact ⟨fun _ => .inr hr, fun _ => ⟨_, rfl⟩⟩
  · split <;> rename_i hc
    · simp [hc, not_not.mp hr]
    · exact ⟨fun _ => .inl hc, fun _ => ⟨_, rfl⟩⟩

theorem CmdWord.legal_iff (w : CmdWord) :
    CmdWord.legal w = true ↔ ¬(w.toNat % 16 = 0 ∨ 10 ≤ w.toNat % 16 ∨ w.toNat / 16 % 16 ≠ 0) := by
  simp only [CmdWord.legal, Bool.and_eq_true, decide_eq_true_eq]
  omega

/-- What the decoder refuses are the words that are not legal (30_encoding.md R98). -/
theorem decodeCmd_error_iff_not_legal (w : CmdWord) :
    (∃ x, decodeCmd w = .error x) ↔ CmdWord.legal w = false := by
  rw [decodeCmd_error_iff, ← Bool.not_eq_true, CmdWord.legal_iff, not_not]

end Sys2Proof

namespace Sys2Proof.Machine

open Sys2Proof

theorem runEvent_of_enabled {e : Event} {s : State} (h : enabled e s = true) : runEvent e s = perform e s := if_pos h

theorem runEvent_issue {s : State} (w : CmdWord) (hi : s.canIssue = true) :
    runEvent (.issue w) s = issueWord w s := if_pos hi

theorem issueWord_of_error {w : CmdWord} {x : DecodeError} (s : State) (h : decodeCmd w = .error x) :
    issueWord w s = .next s.refuseCommand := by
  simp only [issueWord, h]

theorem issueWord_of_ok {w : CmdWord} {i : Instr} (s : State) (h : decodeCmd w = .ok i) :
    issueWord w s = exec i s := by
  simp only [issueWord, h]

/-- Settles O3: the step of an idle block offers the word to the decoder, and a refused word is answered alone. -/
theorem illegalCommandIsRefusedByAResponse : Obligations.IllegalCommandIsRefusedByAResponse := by
  refine ⟨decodeCmd_error_iff, fun s w rest hs hidle hnone hillegal => ⟨?_, (canIssue_iff _).mpr ⟨hidle, hnone⟩⟩⟩
  obtain ⟨x, hx⟩ := (decodeCmd_error_iff_not_legal w).mpr hillegal
  have hissue : State.canIssue { s with schedule := rest } = true := (canIssue_iff _).mpr ⟨hidle, hnone⟩
  rw [step_of_schedule_cons hs, runEvent_issue w hissue, issueWord_of_error _ hx, State.refuseCommand,
    illegalResponse_eq]

/-! ### The step that is drawn -/

/-- A step tests the enabling condition of the foreground once, though `fgStep` tests it again. -/
theorem runEvent_fg (s : State) : runEvent .fg s = fgStep s := by
  by_cases h : enabled .fg s = true
  · exact runEvent_of_enabled h
  · rw [runEvent_of_not_enabled (Bool.eq_false_of_not_eq_true h), fgStep_of_not_fgEnabled h]

theorem runEvent_intRx (s : State) : runEvent .intRx s = exec .rxHandler s := by
  by_cases h : enabled .intRx s = true
  · exact runEvent_of_enabled h
  · exact (runEvent_of_not_enabled (Bool.eq_false_of_not_eq_true h)).trans
      (execRxHandler_of_not_takeable h).symm

theorem runEvent_intTx (s : State) : runEvent .intTx s = exec .txHandler s := by
  by_cases h : enabled .intTx s = true
  · exact runEvent_of_enabled h
  · exact (runEvent_of_not_enabled (Bool.eq_false_of_not_eq_true h)).trans
      (execTxHandler_of_not_takeable h).symm

/-- While a multi-step command is in progress with the operands it latched, it takes the foreground's step. -/
theorem multiStep_of_inFlight {s : State} (first : Phase) (hbusy : s.fgPc ≠ .idle) :
    multiStep s.fgOp first s.operands s = fgStep s := by
  rw [multiStep, if_neg hbusy, if_pos ⟨rfl, rfl⟩]

theorem inFlight_some {s : State} {i : Instr} (h : s.inFlight = some i) :
    s.fgPc ≠ .idle ∧ isMultiStep s.fgOp = true ∧ commandOf s.fgOp s.operands = some i := by
  unfold State.inFlight at h
  split at h
  · cases h
  · split at h
    · exact ⟨‹_›, ‹_›, h⟩
    · cases h

/-- The command in progress means the foreground's step (10_state.md R32, R33). -/
theorem exec_of_inFlight {s : State} {i : Instr} (h : s.inFlight = some i) : exec i s = fgStep s := by
  obtain ⟨hbusy, hmulti, hop⟩ := inFlight_some h
  have hstep (op : BitVec 4) (first : Phase) (hop : s.fgOp = op) :
      multiStep op first s.operands s = fgStep s := hop ▸ multiStep_of_inFlight first hbusy
  unfold commandOf at hop
  split at hop <;> rename_i heq <;> cases hop
  · exact hstep 1 .bgGate heq
  · exact hstep 2 .flGate heq
  · exact hstep 3 .wrTry heq
  · simp [isMultiStep, heq] at hmulti
  · exact hstep 5 .flGate heq
  all_goals simp [isMultiStep, heq] at hmulti

/-- Settles O6: each event's step is the meaning of the instruction it stands for. -/
theorem stepRunsTheDrawnInstruction : Obligations.StepRunsTheDrawnInstruction := by
  refine ⟨fun s w i rest hs hi hw => ?_, fun s i rest hs hnone hi => ?_, fun s rest hs => ?_, fun s rest hs => ?_⟩
  all_goals rw [step_of_schedule_cons hs]
  · exact (runEvent_issue (s := { s with schedule := rest }) w hi).trans (issueWord_of_ok _ hw)
  · exact (runEvent_fg _).trans (exec_of_inFlight (s := { s with schedule := rest }) hi).symm
  · exact runEvent_intRx _
  · exact runEvent_intTx _

/-- The event of a code that decodes performs the meaning of its instruction. -/
theorem perform_eventOfCode {c : Code} {i : Instr} (s : State) (h : decode c = .ok i) :
    perform (eventOfCode c) s = exec i s := by
  cases c with
  | cmd w => exact issueWord_of_ok s h
  | irq v =>
    cases h
    obtain rfl | rfl := vector_cases v <;> rfl

/-- The event of a code finds the state made ready for it. -/
theorem enabled_readyFor_eventOfCode (c : Code) (s : State) :
    enabled (eventOfCode c) (readyFor (eventOfCode c) s) = true := by
  cases c with
  | cmd w => exact enabled_readyFor_issue s w
  | irq v =>
    obtain rfl | rfl := vector_cases v
    · exact enabled_readyFor_intRx s
    · exact enabled_readyFor_intTx s

theorem decode_of_decodeTableWord {nbits w : Nat} {i : Instr} (h : decodeTableWord nbits w = some i) :
    decode (tableCode nbits w) = .ok i := by
  unfold decodeTableWord at h
  split at h <;> cases h
  assumption

/-- Settles O7: the placed draw is enabled in the state made ready for it, and performs the decoded instruction. -/
theorem placedWordRunsNext : Obligations.PlacedWordRunsNext := by
  intro s nbits w i h
  have hready := enabled_readyFor_eventOfCode (tableCode nbits w) s
  refine ⟨?_, hready⟩
  rw [step, nextEvent_withFetchWord, takeDraw_withFetchWord, runEvent_of_enabled hready]
  exact perform_eventOfCode _ (decode_of_decodeTableWord h)

end Sys2Proof.Machine
end

section
/-! PROOFS. What a command does when it is accepted (30_encoding.md R91), and that no step reads an operand latch its
operation does not use (R99). -/

namespace Sys2Proof.Machine

open Sys2Proof

/-! ### Acceptance -/

/-- What a command does after it has latched, in the step that accepts it (30_encoding.md R91, R101). -/
def firstStep (op : BitVec 4) : State → Effect :=
  match op with
  | 1#4 => fun s => .done (s.goto .bgGate)
  | 2#4 => fun s => .done (s.goto .flGate)
  | 3#4 => fun s => .done (s.goto .wrTry)
  | 4#4 => availableForWriteBody
  | 5#4 => fun s => .done (s.goto .flGate)
  | 6#4 => availableBody
  | 7#4 => peekBody
  | 8#4 => readBody
  | 9#4 => pollBody
  | _ => .done

theorem hostIssue_of_canIssue {s : State} (op : BitVec 4) (o : Operands) (body : State → Effect)
    (hi : s.canIssue = true) : hostIssue op o body s = commit s (body (s.latch op o)) :=
  if_pos hi

/-- An idle block accepts a multi-step command: it latches and enters the first phase. -/
theorem multiStep_of_canIssue {s : State} (op : BitVec 4) (first : Phase) (o : Operands) (hi : s.canIssue = true) :
    multiStep op first o s = .next ((s.latch op o).goto first) := by
  rw [multiStep, if_pos (canIssue_idle hi), hostIssue_of_canIssue _ _ _ hi, commit]

/-- Settles O18: each of the four is a multi-step command with its number and first phase. -/
theorem multiStepCommandsAreAccepted : Obligations.MultiStepCommandsAreAccepted := by
  intro s o hidle hnone
  have hi : s.canIssue = true := (canIssue_iff s).mpr ⟨hidle, hnone⟩
  exact ⟨multiStep_of_canIssue 1 .bgGate o hi, multiStep_of_canIssue 2 .flGate o hi,
    multiStep_of_canIssue 3 .wrTry o hi, multiStep_of_canIssue 5 .flGate o hi⟩

/-- A command accepted by an idle block latches its operation and operands and does its first step. -/
theorem exec_of_canIssue {s : State} {op : BitVec 4} {o : Operands} {i : Instr} (hi : s.canIssue = true)
    (h : commandOf op o = some i) : exec i s = commit s (firstStep op (s.latch op o)) := by
  unfold commandOf at h
  split at h <;> cases h
  · exact multiStep_of_canIssue 1 .bgGate o hi
  · exact multiStep_of_canIssue 2 .flGate o hi
  · exact multiStep_of_canIssue 3 .wrTry o hi
  · exact hostIssue_of_canIssue 4 o _ hi
  · exact multiStep_of_canIssue 5 .flGate o hi
  · exact hostIssue_of_canIssue 6 o _ hi
  · exact hostIssue_of_canIssue 7 o _ hi
  · exact hostIssue_of_canIssue 8 o _ hi
  · exact hostIssue_of_canIssue 9 o _ hi

/-! ### Operations that do not read the latches -/

theorem respond_latch (v : BitVec 16) (op : BitVec 4) (o : Operands) (s : State) :
    (s.latch op o).respond v = (s.respond v).latch op o := rfl

theorem goto_latch (p : Phase) (op : BitVec 4) (o : Operands) (s : State) :
    (s.latch op o).goto p = (s.goto p).latch op o := rfl

/-- An effect that neither reads nor writes the latches: it does the same whatever they hold, and leaves them. -/
def LatchBlind (f : State → Effect) : Prop :=
  ∀ (op : BitVec 4) (o : Operands) (s : State), f (s.latch op o) = (f s).andThen (State.latch op o)

/-- A drain takes its byte from the transmit buffer, not from `fg_data` (44_interrupt_handlers.md R224). -/
theorem latchBlind_txDrainOne : LatchBlind txDrainOne := by
  intro op o s
  unfold txDrainOne
  rw [State.latch_cfg, State.latch_tx]
  rcases hpop : ringPop s.cfg.nTx s.tx with f | ⟨r, c⟩
  · rfl
  · obtain ⟨-, -, rfl⟩ | ⟨b, -, -, -, rfl, rfl⟩ := ringPop_ok hpop
    · rfl
    · refine congrArg Effect.done ((feedHardware_setTx b (s.latch op o)).trans ?_)
      exact (congrArg (State.latch op o) (feedHardware_setTx b s)).symm

theorem latchBlind_pollOnce : LatchBlind pollOnce := by
  intro op o s
  have hreq : (s.latch op o).txReq = s.txReq := rfl
  rw [pollOnce, pollOnce, hreq]
  split
  · exact latchBlind_txDrainOne op o s
  · rfl

/-- A change after a blind effect is blind when it leaves the latches. -/
theorem LatchBlind.andThen {f : State → Effect} {g : State → State} (hf : LatchBlind f)
    (hg : ∀ op o s, g (s.latch op o) = (g s).latch op o) : LatchBlind fun s => (f s).andThen g := by
  intro op o s
  simp only [hf op o s]
  cases f s with
  | done u => exact congrArg Effect.done (hg op o u)
  | raise c | stop x => rfl

theorem latchBlind_rxHandler : LatchBlind rxHandler := by
  intro op o s
  unfold rxHandler
  rw [State.latch_cfg, State.latch_rx, State.latch_hwRxdata]
  split <;> rfl

theorem latchBlind_peekBody : LatchBlind peekBody := by
  intro op o s
  unfold peekBody
  rw [State.latch_cfg, State.latch_rx]
  split <;> rfl

theorem latchBlind_readBody : LatchBlind readBody := by
  intro op o s
  unfold readBody
  rw [State.latch_cfg, State.latch_rx]
  split <;> rfl

theorem latchBlind_fgWrRoom : LatchBlind fgWrRoom := by
  intro op o s
  rw [fgWrRoom, fgWrRoom, State.latch_tx, State.latch_cfg]
  split <;> rfl

theorem latchBlind_fgBgGate : LatchBlind fgBgGate := by
  intro op o s
  rw [fgBgGate, fgBgGate, State.latch_configured]
  split <;> rfl

/-- No command reads its operands in the step that accepts it (30_encoding.md R91, R99). -/
theorem latchBlind_firstStep (op : BitVec 4) : LatchBlind (firstStep op) := by
  unfold firstStep
  split
  case h_7 => exact latchBlind_peekBody
  case h_8 => exact latchBlind_readBody
  case h_9 => exact latchBlind_pollOnce.andThen (respond_latch 0)
  all_goals exact fun _ _ _ => rfl

/-! ### Phases that read the latches of their own operation -/

/-- The operands agree where the operation `op` uses them (30_encoding.md R93, R99). -/
def usedAgree (op : BitVec 4) (o p : Operands) : Prop :=
  (op = 3 → o.data = p.data) ∧ (op = 1 → o.baud = p.baud ∧ o.frame = p.frame)

theorem usedAgree_refl (op : BitVec 4) (o : Operands) : usedAgree op o o := ⟨fun _ => rfl, fun _ => ⟨rfl, rfl⟩⟩

theorem flushReturn_latch (o : Operands) (s : State) :
    flushReturn (s.latch s.fgOp o) = (flushReturn s).andThen (State.latch s.fgOp o) := by
  unfold flushReturn
  rw [State.latch_fgOp]
  split <;> rfl

theorem fgFlGate_latch (o : Operands) (s : State) :
    fgFlGate (s.latch s.fgOp o) = (fgFlGate s).andThen (State.latch s.fgOp o) := by
  rw [fgFlGate, fgFlGate, State.latch_everWritten]
  split
  · rfl
  · exact flushReturn_latch o s

theorem fgFlTest_latch (o : Operands) (s : State) :
    fgFlTest (s.latch s.fgOp o) = (fgFlTest s).andThen (State.latch s.fgOp o) := by
  rw [fgFlTest, fgFlTest, State.latch_txeIe, State.latch_hwTxc]
  split
  · rfl
  · exact flushReturn_latch o s

theorem shutDown_latch (op : BitVec 4) (o : Operands) (s : State) :
    shutDown (s.latch op o) = (shutDown s).latch op o := by
  simp only [shutDown, State.hwSet, State.setRx, State.setConfigured, State.setEverWritten, State.latch]

theorem fgEndOff_latch (o : Operands) (s : State) :
    fgEndOff (s.latch s.fgOp o) = (fgEndOff s).andThen (State.latch s.fgOp o) := by
  rw [fgEndOff, fgEndOff, State.latch_fgOp, shutDown_latch]
  split
  · exact congrArg Effect.done (respond_latch 0 s.fgOp o (shutDown s))
  · exact congrArg Effect.done (goto_latch .bgCfg s.fgOp o (shutDown s))

/-- `WR_TRY` reads `fg_data` and no other operand. -/
theorem fgWrTry_latch {o : Operands} {s : State} (hdata : s.fgData = o.data) :
    fgWrTry (s.latch s.fgOp o) = (fgWrTry s).andThen (State.latch s.fgOp o) := by
  unfold fgWrTry
  rw [State.latch_txeIe, State.latch_hwDre, State.latch_cfg, State.latch_tx, State.latch_fgData, ← hdata]
  split
  · rfl
  · split <;> rfl

theorem fgBgCfg_of_eq_zero {s : State} (hb : s.fgBaud = 0) : fgBgCfg s = .raise .baudZero := if_pos hb

/-- `BG_CFG` reads `fg_baud` and `fg_frame` and not `fg_data`. -/
theorem fgBgCfg_latch {o : Operands} {s : State} (hbaud : s.fgBaud = o.baud) (hframe : s.fgFrame = o.frame) :
    fgBgCfg (s.latch s.fgOp o) = (fgBgCfg s).andThen (State.latch s.fgOp o) := by
  by_cases hzero : s.fgBaud = 0
  · rw [fgBgCfg_of_eq_zero hzero, fgBgCfg_of_eq_zero (hbaud.symm.trans hzero)]
    rfl
  · rw [fgBgCfg_of_ne hzero, fgBgCfg_of_ne (fun h => hzero (hbaud.trans h))]
    simp [Effect.andThen, begun, State.latch, hbaud, hframe]

/-- A phase does the same whatever the latches hold that the operation in progress does not use. -/
theorem fgPhase_latch {o : Operands} {s : State} (hfits : phaseFits s = true)
    (hused : usedAgree s.fgOp s.operands o) :
    fgPhase (s.latch s.fgOp o) = (fgPhase s).andThen (State.latch s.fgOp o) := by
  obtain ⟨hwrite, hbegin⟩ := hused
  simp only [fgPhase, State.latch_fgPc]
  cases hpc : s.fgPc with
  | idle => rfl
  | wrTry =>
    have hop : s.fgOp = 3 := by simpa [phaseFits, hpc] using hfits
    exact fgWrTry_latch (hwrite hop)
  | bgCfg =>
    have hop : s.fgOp = 1 := by simpa [phaseFits, hpc] using hfits
    exact fgBgCfg_latch (hbegin hop).1 (hbegin hop).2
  | wrPoll | flPoll => exact latchBlind_pollOnce.andThen (goto_latch _) s.fgOp o s
  | wrRoom => exact latchBlind_fgWrRoom s.fgOp o s
  | flGate => exact fgFlGate_latch o s
  | flTest => exact fgFlTest_latch o s
  | endOff => exact fgEndOff_latch o s
  | bgGate => exact latchBlind_fgBgGate s.fgOp o s

/-! ### Noninterference -/

/-- Two states agree but for unused latches when one is the other with operands latched that agree where they are
used. -/
theorem sameButUnused_iff (s t : State) :
    sameButUnused s t ↔ t = s.latch s.fgOp t.operands ∧ usedAgree s.fgOp s.operands t.operands :=
  and_congr eq_comm Iff.rfl

theorem sameButUnused_latch {op : BitVec 4} {o p : Operands} (s : State) (h : usedAgree op o p) :
    sameButUnused (s.latch op o) (s.latch op p) :=
  ⟨rfl, h⟩

/-- A total effect that neither reads nor writes the latches keeps related states related. -/
theorem sameButUnused_map {f : State → State} {s t : State}
    (hf : ∀ op o u, f (u.latch op o) = (f u).latch op o) (h : sameButUnused s t) : sameButUnused (f s) (f t) := by
  obtain ⟨heq, hused⟩ := (sameButUnused_iff s t).mp h
  have hs : f s = (f s).latch s.fgOp s.operands := hf s.fgOp s.operands s
  have ht : f t = (f s).latch s.fgOp t.operands := (congrArg f heq).trans (hf _ _ _)
  rw [hs, ht]
  exact sameButUnused_latch (f s) hused

/-- The same effect on related states, with operands latched that agree where they are used, gives related answers. -/
theorem answersAgree_commit {s t : State} {op : BitVec 4} {o p : Operands} (x : Effect) (h : sameButUnused s t)
    (hused : usedAgree op o p) :
    answersAgree sameButUnused (commit s (x.andThen (State.latch op o))) (commit t (x.andThen (State.latch op p))) := by
  cases x with
  | done u => exact sameButUnused_latch u hused
  | raise c => exact sameButUnused_map (f := raiseFault c) (fun _ _ _ => rfl) h
  | stop f => rfl

/-- An effect that commutes with related latches answers related states alike. -/
theorem answersAgree_of_latch {f : State → Effect} {s t : State} (h : sameButUnused s t)
    (hf : ∀ o, usedAgree s.fgOp s.operands o →
      f (s.latch s.fgOp o) = (f s).andThen (State.latch s.fgOp o)) :
    answersAgree sameButUnused (commit s (f s)) (commit t (f t)) := by
  obtain ⟨heq, hused⟩ := (sameButUnused_iff s t).mp h
  have hs : f s = (f s).andThen (State.latch s.fgOp s.operands) := hf s.operands (usedAgree_refl _ _)
  have ht : f t = (f s).andThen (State.latch s.fgOp t.operands) := (congrArg f heq).trans (hf t.operands hused)
  rw [hs, ht]
  exact answersAgree_commit (f s) h hused

/-- No enabling condition reads an operand latch (00_scope.md R11). -/
theorem enabled_of_sameButUnused {s t : State} (e : Event) (h : sameButUnused s t) : enabled e t = enabled e s := by
  rw [((sameButUnused_iff s t).mp h).1]
  cases e <;> rfl

/-- Of words with the same used fields the decoder refuses both or neither (30_encoding.md R98). -/
theorem decodeCmd_ok_of_sameUsedFields {v w : CmdWord} {i : Instr} (h : sameUsedFields v w)
    (hv : decodeCmd v = .ok i) : ∃ j, decodeCmd w = .ok j := by
  obtain ⟨hop, hrsv, -⟩ := h
  obtain ⟨hzero, hi⟩ := decodeCmd_ok hv
  obtain ⟨j, hj⟩ := commandOf_isSome _ _ (fieldOperands w) hi
  exact ⟨j, decodeCmd_of_fields (hrsv ▸ hzero) (hop ▸ hj)⟩

theorem sameUsedFields.symm {v w : CmdWord} (h : sameUsedFields v w) : sameUsedFields w v := by
  obtain ⟨hop, hrsv, hwrite, hbegin⟩ := h
  refine ⟨hop.symm, hrsv.symm, fun h3 => (hwrite (hop.trans h3)).symm, fun h1 => ?_⟩
  obtain ⟨hbaud, hframe⟩ := hbegin (hop.trans h1)
  exact ⟨hbaud.symm, hframe.symm⟩

/-- The answers to two accepted words with the same used fields are related. -/
theorem answersAgree_exec {s t : State} {v w : CmdWord} {i j : Instr} (h : sameButUnused s t)
    (hvw : sameUsedFields v w) (hi : s.canIssue = true) (hv : decodeCmd v = .ok i) (hw : decodeCmd w = .ok j) :
    answersAgree sameButUnused (exec i s) (exec j t) := by
  have ht : t.canIssue = true := (enabled_of_sameButUnused (.issue v) h).trans hi
  obtain ⟨hop, -, hused⟩ := hvw
  have hlatch : t.latch (fieldOp w) (fieldOperands w) = s.latch (fieldOp v) (fieldOperands w) := by
    rw [((sameButUnused_iff s t).mp h).1, hop]
    rfl
  rw [exec_of_canIssue hi (decodeCmd_ok hv).2, exec_of_canIssue ht (decodeCmd_ok hw).2, hlatch, ← hop,
    latchBlind_firstStep, latchBlind_firstStep]
  exact answersAgree_commit _ h hused

/-- Words with the same used fields are told apart by no acceptance and no refusal (30_encoding.md R98, R99). -/
theorem answersAgree_issueWord {s t : State} {v w : CmdWord} (h : sameButUnused s t) (hvw : sameUsedFields v w)
    (hi : s.canIssue = true) : answersAgree sameButUnused (issueWord v s) (issueWord w t) := by
  cases hv : decodeCmd v with
  | ok i =>
    obtain ⟨j, hw⟩ := decodeCmd_ok_of_sameUsedFields hvw hv
    rw [issueWord_of_ok s hv, issueWord_of_ok t hw]
    exact answersAgree_exec h hvw hi hv hw
  | error x =>
    cases hw : decodeCmd w with
    | ok j =>
      obtain ⟨i, hok⟩ := decodeCmd_ok_of_sameUsedFields hvw.symm hw
      cases hv.symm.trans hok
    | error y =>
      rw [issueWord_of_error s hv, issueWord_of_error t hw]
      exact sameButUnused_map (f := State.refuseCommand) (fun _ _ _ => rfl) h

theorem answersAgree_fgStep {s t : State} (h : sameButUnused s t) (hfits : phaseFits s = true) :
    answersAgree sameButUnused (fgStep s) (fgStep t) := by
  have henabled : t.fgEnabled = s.fgEnabled := enabled_of_sameButUnused .fg h
  rw [fgStep, fgStep, henabled]
  split
  · exact answersAgree_of_latch h fun o hused => fgPhase_latch hfits hused
  · exact h

/-- An interrupt whose handler does not read the latches answers related states alike. -/
theorem answersAgree_takeInterrupt {body : State → Effect} {s t : State} (hbody : LatchBlind body)
    (h : sameButUnused s t) : answersAgree sameButUnused (takeInterrupt body s) (takeInterrupt body t) :=
  answersAgree_of_latch (f := fun s => (body s).andThen interruptReturn) h
    fun o _ => (hbody.andThen fun _ _ _ => rfl) s.fgOp o s

theorem answersAgree_execRxHandler {s t : State} (h : sameButUnused s t) :
    answersAgree sameButUnused (execRxHandler s) (execRxHandler t) := by
  have htakeable : t.rxTakeable = s.rxTakeable := enabled_of_sameButUnused .intRx h
  rw [execRxHandler, execRxHandler, htakeable]
  split
  · exact answersAgree_takeInterrupt latchBlind_rxHandler h
  · exact h

theorem answersAgree_execTxHandler {s t : State} (h : sameButUnused s t) :
    answersAgree sameButUnused (execTxHandler s) (execTxHandler t) := by
  have htakeable : t.txTakeable = s.txTakeable := enabled_of_sameButUnused .intTx h
  rw [execTxHandler, execTxHandler, htakeable]
  split
  · exact answersAgree_takeInterrupt latchBlind_txDrainOne h
  · exact h

/-- A step that is total where it is enabled: the peripheral's steps and `HOST.SET_GIE`. -/
theorem answersAgree_total {e : Event} {f : State → State} {s t : State} (hperform : ∀ u, perform e u = .next (f u))
    (hf : ∀ op o u, f (u.latch op o) = (f u).latch op o) (h : sameButUnused s t) :
    answersAgree sameButUnused (runEvent e s) (runEvent e t) := by
  rw [runEvent, runEvent, enabled_of_sameButUnused e h, hperform, hperform]
  split
  · exact sameButUnused_map hf h
  · exact h

theorem runEvent_issue_agrees {s t : State} {v w : CmdWord} (h : sameButUnused s t) (hvw : sameUsedFields v w) :
    answersAgree sameButUnused (runEvent (.issue v) s) (runEvent (.issue w) t) := by
  have henabled : enabled (.issue w) t = enabled (.issue v) s := enabled_of_sameButUnused (.issue v) h
  rw [runEvent, runEvent, henabled]
  split
  · exact answersAgree_issueWord h hvw ‹_›
  · exact h

/-- Settles O5, by the event: an accepted word and a phase read only the latches their operation uses, and the
handlers, the peripheral and `HOST.SET_GIE` read none. -/
theorem unusedFieldsAreIgnored : Obligations.UnusedFieldsAreIgnored := by
  refine ⟨fun s t e h hfits => ?_, fun s t v w h _ hvw => runEvent_issue_agrees h hvw⟩
  cases e with
  | issue w => exact runEvent_issue_agrees h ⟨rfl, rfl, fun _ => rfl, fun _ => ⟨rfl, rfl⟩⟩
  | fg =>
    rw [runEvent_fg, runEvent_fg]
    exact answersAgree_fgStep h hfits
  | intRx =>
    rw [runEvent_intRx, runEvent_intRx]
    exact answersAgree_execRxHandler h
  | intTx =>
    rw [runEvent_intTx, runEvent_intTx]
    exact answersAgree_execTxHandler h
  | _ => exact answersAgree_total (fun _ => rfl) (fun _ _ _ => rfl) h

end Sys2Proof.Machine
end

section
/-! PROOFS. Each command that is accepted responds once, and a `WRITE` carries the byte of its word to its response
(30_encoding.md R91, R96; 10_state.md R34; 70_reset_and_hazards.md R337). -/

namespace Sys2Proof.Machine

open Sys2Proof

@[simp] theorem drained_fgPc (c : Byte) (s : State) : (drained c s).fgPc = s.fgPc := by simp only [drained]
@[simp] theorem drained_fgData (c : Byte) (s : State) : (drained c s).fgData = s.fgData := by simp only [drained]

/-! ### The bytes that a word carries -/

theorem bytesToWrite_singleton (w : CmdWord) :
    bytesToWrite [w] = if CmdWord.legal w = true ∧ fieldOp w = 3 then [fieldData w] else [] := by
  simp only [bytesToWrite, List.filter_cons, List.filter_nil, Bool.and_eq_true, beq_iff_eq]
  split <;> rfl

/-- A word that is no `WRITE` carries no byte to send (30_encoding.md R92, R93). -/
theorem bytesToWrite_of_other {w : CmdWord} {i : Instr} (hw : decodeCmd w = .ok i) (hi : ∀ o, i ≠ .write o) :
    bytesToWrite [w] = [] := by
  rw [bytesToWrite_singleton, if_neg]
  rintro ⟨-, h3⟩
  have hcommand := (decodeCmd_ok hw).2
  rw [h3] at hcommand
  exact hi _ (Option.some.inj hcommand).symm

theorem bytesToWrite_of_error {w : CmdWord} {x : DecodeError} (hw : decodeCmd w = .error x) :
    bytesToWrite [w] = [] := by
  have hillegal : CmdWord.legal w = false := (decodeCmd_error_iff_not_legal w).mp ⟨x, hw⟩
  rw [bytesToWrite_singleton, if_neg (by simp [hillegal])]

/-- A `WRITE` carries the byte that it latches (30_encoding.md R92). -/
theorem bytesToWrite_of_write {w : CmdWord} {o : Operands} (hw : decodeCmd w = .ok (.write o)) :
    bytesToWrite [w] = [o.data] := by
  have hlegal : CmdWord.legal w = true := by
    rw [← Bool.not_eq_false, ← decodeCmd_error_iff_not_legal, hw]
    simp
  obtain rfl : cmdWord 3 o = w := Code.cmd.inj (encodeOfDecodeIsIdentity (.cmd w) _ hw)
  rw [bytesToWrite_singleton, if_pos ⟨hlegal, fieldOp_cmdWord 3 o⟩, fieldData_cmdWord]

/-! ### The word that a step accepts -/

/-- The command word that the event `e` has accepted in the state `s`. -/
def accepted (e : Event) (s : State) : List CmdWord :=
  match e with
  | .issue w => if s.canIssue then [w] else []
  | _ => []

theorem issued_eq_accepted (s t : State) : issued s t = accepted (nextEvent s) (takeDraw s) := by
  have hissue : (takeDraw s).canIssue = s.canIssue := by simp [State.canIssue]
  unfold issued
  cases nextEvent s with
  | issue w => simp only [accepted, hissue]
  | _ => rfl

theorem accepted_issue {s : State} (w : CmdWord) (hi : s.canIssue = true) : accepted (.issue w) s = [w] := if_pos hi

theorem accepted_of_not_enabled {e : Event} {s : State} (h : enabled e s = false) : accepted e s = [] := by
  cases e with
  | issue w => exact if_neg (by simpa [enabled] using h)
  | _ => rfl

/-! ### What a step does to the command in progress -/

/-- What a step does to the command in progress and to the responses: it leaves both, or goes on with the command; it
completes the command with its response; it accepts a word and answers it at once; it accepts a word that is then in
progress. -/
inductive CommandMove (e : Event) (s t : State) : Prop where
  | goOn (hacc : accepted e s = []) (hrsp : t.rspLog = s.rspLog) (hout : outstanding t = outstanding s)
      (hbyte : writing t = writing s)
  | complete (hacc : accepted e s = []) (hbusy : s.fgPc ≠ .idle) (hidle : t.fgPc = .idle)
      (hrsp : ∃ r, t.rspLog = s.rspLog ++ [r]) (hbyte : s.fgPc = .wrTry ∨ writing s = [])
  | answer (w : CmdWord) (hacc : accepted e s = [w]) (hidle : s.fgPc = .idle) (hidle' : t.fgPc = .idle)
      (hrsp : ∃ r, t.rspLog = s.rspLog ++ [r]) (hbyte : bytesToWrite [w] = [])
  | accept (w : CmdWord) (hacc : accepted e s = [w]) (hidle : s.fgPc = .idle) (hbusy : t.fgPc ≠ .idle)
      (hrsp : t.rspLog = s.rspLog) (hbyte : writing t = bytesToWrite [w])

/-- A step that leaves the phase, the latched byte and the responses. -/
theorem CommandMove.of_eq {e : Event} {s t : State} (hacc : accepted e s = []) (hpc : t.fgPc = s.fgPc)
    (hdata : t.fgData = s.fgData) (hrsp : t.rspLog = s.rspLog) : CommandMove e s t :=
  .goOn hacc hrsp (by rw [outstanding, outstanding, hpc]) (by rw [writing, writing, hpc, hdata])

/-- The phases that poll go on with their command, a `WRITE` with its byte (42_write_flush_poll.md R164, R172). -/
theorem CommandMove.of_pollPhase {s t : State} {p : Phase} (hp : PollPhase s.fgPc p) (hpc : t.fgPc = p)
    (hdata : t.fgData = s.fgData) (hrsp : t.rspLog = s.rspLog) : CommandMove .fg s t := by
  generalize hq : s.fgPc = q at hp
  cases hp <;> exact .goOn rfl hrsp (by simp [outstanding, hq, hpc]) (by simp [writing, hq, hpc, hdata])

/-- Where the flush steps end, a command that is no `WRITE` is in progress (42_write_flush_poll.md R173). -/
theorem FlushEnds.busy {s : State} (h : FlushEnds s) : s.fgPc ≠ .idle ∧ writing s = [] := by
  cases h with
  | gate hp | test hp => simp [writing, hp]

/-- Every step is one of the four, as long as no `POLL` finds the transmit buffer empty (44_interrupt_handlers.md
R226). -/
theorem Move.commandMove {e : Event} {s t : State} (h : Move e s t) (hflow : ¬underflows s) : CommandMove e s t := by
  cases h with
  | skip h => exact .of_eq (accepted_of_not_enabled h) rfl rfl rfl
  | setGie | txLoad | txDone | rxArrive | rxFlush | receiveStore | receiveDrop | transmitUnderflow | beginZero
  | pollPhaseUnderflow => exact .of_eq rfl rfl rfl rfl
  | transmitDrain => exact .of_eq rfl (by simp) (by simp) (by simp)
  | refuse hi hw =>
    exact .answer _ (accepted_issue _ hi) (canIssue_idle hi) (canIssue_idle hi) ⟨_, rfl⟩ (bytesToWrite_of_error hw)
  | available hi hw | availableForWrite hi hw | peekNone hi hw | peekSome hi hw | readNone hi hw | readSome hi hw
  | pollIdle hi hw =>
    exact .answer _ (accepted_issue _ hi) (canIssue_idle hi) rfl ⟨_, rfl⟩ (bytesToWrite_of_other hw (by simp))
  | pollDrain hi hw =>
    exact .answer _ (accepted_issue _ hi) (canIssue_idle hi) rfl ⟨rspWord false 0, by simp⟩
      (bytesToWrite_of_other hw (by simp))
  | pollUnderflow hi hw hd => exact absurd hd hflow
  | acceptBegin hi hw | acceptEnd hi hw | acceptFlush hi hw =>
    exact .accept _ (accepted_issue _ hi) (canIssue_idle hi) (by simp) rfl
      ((bytesToWrite_of_other hw (by simp)).symm ▸ by simp [writing])
  | acceptWrite hi hw =>
    exact .accept _ (accepted_issue _ hi) (canIssue_idle hi) (by simp) rfl
      ((bytesToWrite_of_write hw).symm ▸ by simp [writing])
  | writeFast hf hp | writeSlow hf hp => exact .complete rfl (by simp [hp]) rfl ⟨_, rfl⟩ (.inl hp)
  | endRespond hf hp => exact .complete rfl (by simp [hp]) rfl ⟨rspWord false 0, by simp⟩ (.inr (by simp [writing, hp]))
  | beginConfigure hf hp => exact .complete rfl (by simp [hp]) rfl ⟨_, rfl⟩ (.inr (by simp [writing, hp]))
  | flushRespond hf he => exact .complete rfl he.busy.1 rfl ⟨_, rfl⟩ (.inr he.busy.2)
  | flushClose hf he => exact .goOn rfl rfl (by simp [outstanding, he.busy.1]) (by rw [he.busy.2]; simp [writing])
  | writeFull hf hp | flushGo hf hp | flushWait hf hp | endGoOn hf hp =>
    exact .goOn rfl (by simp) (by simp [outstanding, hp]) (by simp [writing, hp])
  | writeRoom hf hp | beginGate hf hp =>
    exact .goOn rfl rfl (by simp [outstanding, hp]; split <;> simp) (by simp [writing, hp]; split <;> simp)
  | pollPhaseIdle hf hp => exact .of_pollPhase hp rfl rfl rfl
  | pollPhaseDrain hf hp => exact .of_pollPhase hp rfl (by simp) (by simp)

/-- In the invariant an armed interrupt has a byte to send (70_reset_and_hazards.md R331). -/
theorem Invariant.not_underflows {s : State} (h : Invariant s) : ¬underflows s := by
  rintro ⟨hreq, hempty⟩
  have harmed : s.txeIe = true := by
    simp only [State.txReq, Bool.and_eq_true] at hreq
    exact hreq.1
  rw [h.armed, (Ring.isEmpty_iff s.tx).mpr hempty] at harmed
  cases harmed

theorem CommandMove.outstanding_eq {e : Event} {s t : State} (h : CommandMove e s t) :
    t.rspLog.length + outstanding t = s.rspLog.length + outstanding s + (accepted e s).length := by
  cases h with
  | goOn hacc hrsp hout => simp [hacc, hrsp, hout]
  | complete hacc hbusy hidle hrsp =>
    obtain ⟨r, hr⟩ := hrsp
    simp [hacc, hr, outstanding, hbusy, hidle]
  | answer w hacc hidle hidle' hrsp =>
    obtain ⟨r, hr⟩ := hrsp
    simp [hacc, hr, outstanding, hidle, hidle']
  | accept w hacc hidle hbusy hrsp => simp [hacc, hrsp, outstanding, hidle, hbusy]

theorem writing_of_idle {s : State} (h : s.fgPc = .idle) : writing s = [] := by simp [writing, h]

theorem written_of_rspLog_eq {s t : State} (h : t.rspLog = s.rspLog) : written s t = [] := by simp [written, h]

theorem written_of_idle {s : State} (t : State) (h : s.fgPc = .idle) : written s t = [] := by simp [written, h]

/-- The step that responds writes the byte in progress. -/
theorem written_of_response {s t : State} {r : RspWord} (hr : t.rspLog = s.rspLog ++ [r])
    (hbyte : s.fgPc = .wrTry ∨ writing s = []) : written s t = writing s := by
  obtain hp | hnone := hbyte
  · simp [written, writing, hp, hr]
  · rw [hnone, written, if_neg]
    rintro ⟨hp, -⟩
    simp [writing, hp] at hnone

theorem CommandMove.writing_eq {e : Event} {s t : State} (h : CommandMove e s t) :
    written s t ++ writing t = writing s ++ bytesToWrite (accepted e s) := by
  cases h with
  | goOn hacc hrsp hout hbyte =>
    rw [written_of_rspLog_eq hrsp, hacc, hbyte]
    simp [bytesToWrite]
  | complete hacc hbusy hidle hrsp hbyte =>
    obtain ⟨r, hr⟩ := hrsp
    rw [written_of_response hr hbyte, writing_of_idle hidle, hacc]
    rfl
  | answer w hacc hidle hidle' hrsp hbyte =>
    rw [written_of_idle t hidle, writing_of_idle hidle, writing_of_idle hidle', hacc, hbyte]
  | accept w hacc hidle hbusy hrsp hbyte =>
    rw [written_of_idle t hidle, writing_of_idle hidle, hacc, hbyte]

/-- Settles O44, by what the step does to the command in progress; the invariant keeps a `POLL` from raising
`TxUnderflow` in place of its response. -/
theorem eachCommandRespondsOnce : Obligations.EachCommandRespondsOnce := by
  intro s t hinv h
  have hflow : ¬underflows (takeDraw s) := by simpa [State.txReq] using hinv.not_underflows
  have hmove := (step_move h).commandMove hflow
  have hout := hmove.outstanding_eq
  have hbyte := hmove.writing_eq
  simp only [outstanding, writing, written, takeDraw_rspLog, takeDraw_fgPc, takeDraw_fgData] at hout hbyte
  rw [issued_eq_accepted]
  exact ⟨hout, hbyte⟩

end Sys2Proof.Machine
end

section
/-! PROOFS. What the ring buffer primitives answer, how the counts follow the cursors, and the first-in first-out law
(40_ring_buffer.md R121 to R127). -/

namespace Sys2Proof.Machine

open Sys2Proof

/-! ### What each primitive answers -/

theorem memRead_of_unwritten {n i : Nat} {m : Memory} (hi : i < n) (h : memGet m i = none) :
    memRead n i m = .error (.unwrittenSlot i) := by simp [memRead, hi, h]

theorem ringPush_of_full {n : Nat} (b : Byte) {r : Ring} (hfull : (r.head + 1) % n = r.tail) :
    ringPush n b r = .ok (r, false) := if_pos hfull

theorem ringPush_of_room {n : Nat} (b : Byte) {r : Ring} (hhead : r.head < n) (hroom : (r.head + 1) % n ≠ r.tail) :
    ringPush n b r = .ok (pushed n b r, true) := by
  simp [ringPush, memWrite, hroom, hhead, pushed]

theorem ringPop_of_empty (n : Nat) {r : Ring} (hempty : r.head = r.tail) : ringPop n r = .ok (r, none) := if_pos hempty

theorem ringPeek_of_empty (n : Nat) {r : Ring} (hempty : r.head = r.tail) : ringPeek n r = .ok none := if_pos hempty

theorem ringPop_of_oldest {n : Nat} {r : Ring} {c : Byte} (h : oldest n r c) :
    ringPop n r = .ok (popped n r, some c) := by
  obtain ⟨hbyte, htail, hget⟩ := h
  rw [ringPop, if_neg hbyte, memRead_of_get htail hget]
  rfl

theorem ringPop_of_unwritten {n : Nat} {r : Ring} (hbyte : r.head ≠ r.tail) (htail : r.tail < n)
    (hget : memGet r.mem r.tail = none) : ringPop n r = .error (.unwrittenSlot r.tail) := by
  rw [ringPop, if_neg hbyte, memRead_of_unwritten htail hget]

theorem ringPeek_of_unwritten {n : Nat} {r : Ring} (hbyte : r.head ≠ r.tail) (htail : r.tail < n)
    (hget : memGet r.mem r.tail = none) : ringPeek n r = .error (.unwrittenSlot r.tail) := by
  rw [ringPeek, if_neg hbyte, memRead_of_unwritten htail hget]

/-- Settles O9, by the answer of each primitive where its condition holds and where it does not. -/
theorem ringPrimitivesDoTheirEffect : Obligations.RingPrimitivesDoTheirEffect := by
  refine ⟨fun n b r hhead => ⟨ringPush_of_full b, fun hroom => ?_⟩, fun n r => ⟨fun hempty => ?_, fun c hc => ?_,
    fun hbyte htail hget => ?_⟩⟩
  · exact ⟨pushed n b r, ringPush_of_room b hhead hroom, rfl, rfl, memGet_memSet_same r.mem r.head b,
      fun j hj => memGet_memSet_ne r.mem b hj.symm⟩
  · exact ⟨ringPop_of_empty n hempty, ringPeek_of_empty n hempty⟩
  · exact ⟨ringPop_of_oldest hc, ringPeek_of_ringPop (ringPop_of_oldest hc)⟩
  · exact ⟨ringPop_of_unwritten hbyte htail hget, ringPeek_of_unwritten hbyte htail hget⟩

/-! ### The counts

`ringOccupied n r` is the one number below `n` that, added to the tail, gives the head modulo `n`. -/

theorem ringOccupied_lt {n : Nat} {r : Ring} (hhead : r.head < n) : ringOccupied n r < n :=
  Nat.mod_lt _ (Nat.zero_lt_of_lt hhead)

theorem tail_add_ringOccupied {n : Nat} {r : Ring} (hhead : r.head < n) (htail : r.tail < n) :
    (r.tail + ringOccupied n r) % n = r.head := by
  rw [ringOccupied, Nat.add_mod_mod, Nat.add_sub_cancel' (by omega), Nat.add_mod_left, Nat.mod_eq_of_lt hhead]

theorem eq_of_tail_add_mod_eq {n t j k : Nat} (hj : j < n) (hk : k < n) (h : (t + j) % n = (t + k) % n) : j = k :=
  (Nat.ModEq.add_left_cancel' t h).eq_of_lt_of_lt hj hk

theorem ringOccupied_eq {n k : Nat} {r : Ring} (hhead : r.head < n) (htail : r.tail < n) (hk : k < n)
    (h : (r.tail + k) % n = r.head) : ringOccupied n r = k :=
  eq_of_tail_add_mod_eq (ringOccupied_lt hhead) hk ((tail_add_ringOccupied hhead htail).trans h.symm)

theorem ringOccupied_add_ringFree {n : Nat} {r : Ring} (hhead : r.head < n) :
    ringOccupied n r + ringFree n r = n - 1 :=
  Nat.add_sub_cancel' (Nat.le_sub_one_of_lt (ringOccupied_lt hhead))

theorem head_eq_tail_iff {n : Nat} {r : Ring} (hhead : r.head < n) (htail : r.tail < n) :
    r.head = r.tail ↔ ringOccupied n r = 0 := by
  constructor
  · intro hempty
    exact ringOccupied_eq hhead htail (by omega) (by rw [Nat.add_zero, Nat.mod_eq_of_lt htail, hempty])
  · intro hzero
    rw [← tail_add_ringOccupied hhead htail, hzero, Nat.add_zero, Nat.mod_eq_of_lt htail]

/-- The slot after the head is one place farther from the tail than the head is. -/
theorem tail_add_succ_ringOccupied {n : Nat} {r : Ring} (hhead : r.head < n) (htail : r.tail < n) :
    (r.tail + (ringOccupied n r + 1)) % n = (r.head + 1) % n := by
  rw [← Nat.add_assoc, ← Nat.mod_add_mod, tail_add_ringOccupied hhead htail]

theorem succ_head_eq_tail_iff {n : Nat} {r : Ring} (hhead : r.head < n) (htail : r.tail < n) :
    (r.head + 1) % n = r.tail ↔ ringOccupied n r + 1 = n := by
  rw [← tail_add_succ_ringOccupied hhead htail]
  have hlt := ringOccupied_lt hhead
  constructor
  · intro hfull
    have hsame : (r.tail + (ringOccupied n r + 1)) % n = (r.tail + 0) % n := by
      rw [hfull, Nat.add_zero, Nat.mod_eq_of_lt htail]
    by_contra hne
    exact Nat.succ_ne_zero _ (eq_of_tail_add_mod_eq (by omega) (by omega) hsame)
  · intro hcount
    rw [hcount, Nat.add_mod_right, Nat.mod_eq_of_lt htail]

theorem ringOccupied_pushed {n : Nat} (b : Byte) {r : Ring} (hhead : r.head < n) (htail : r.tail < n)
    (hroom : (r.head + 1) % n ≠ r.tail) : ringOccupied n (pushed n b r) = ringOccupied n r + 1 := by
  have hlt := ringOccupied_lt hhead
  rw [Ne, succ_head_eq_tail_iff hhead htail] at hroom
  exact ringOccupied_eq (Nat.mod_lt _ (by omega)) htail (by omega) (tail_add_succ_ringOccupied hhead htail)

/-- Slot `k` counted from the tail after a pop is slot `k + 1` counted from the tail before it. -/
theorem succ_tail_add_mod (n t k : Nat) : ((t + 1) % n + k) % n = (t + (k + 1)) % n := by
  rw [Nat.mod_add_mod, Nat.add_assoc, Nat.add_comm 1 k]

theorem ringOccupied_popped {n : Nat} {r : Ring} (hhead : r.head < n) (htail : r.tail < n)
    (hbyte : r.head ≠ r.tail) : ringOccupied n (popped n r) + 1 = ringOccupied n r := by
  rw [Ne, head_eq_tail_iff hhead htail] at hbyte
  obtain ⟨k, hk⟩ := Nat.exists_eq_add_one_of_ne_zero hbyte
  have hlt := ringOccupied_lt hhead
  have hslot : ((r.tail + 1) % n + k) % n = r.head := by
    rw [succ_tail_add_mod, ← hk, tail_add_ringOccupied hhead htail]
  rw [hk, ringOccupied_eq (r := popped n r) hhead (Nat.mod_lt _ (by omega)) (by omega) hslot]

/-- Settles O10, by the count as the distance from the tail to the head. -/
theorem ringCountsAgree : Obligations.RingCountsAgree := by
  intro n r hn hhead htail
  have hlt := ringOccupied_lt hhead
  refine ⟨rfl, rfl, ringOccupied_add_ringFree hhead, head_eq_tail_iff hhead htail, ?_, fun b q h => ?_,
    fun q c h => ?_⟩
  · rw [succ_head_eq_tail_iff hhead htail, ringFree]
    omega
  · obtain ⟨-, -, hfalse⟩ | ⟨hroom, -, rfl, -⟩ := ringPush_ok h
    · cases hfalse
    · exact ringOccupied_pushed b hhead htail hroom
  · obtain ⟨-, -, hnone⟩ | ⟨_, hbyte, -, -, rfl, -⟩ := ringPop_ok h
    · cases hnone
    · exact ringOccupied_popped hhead htail hbyte

/-! ### The content -/

theorem length_content {n : Nat} {r : Ring} (hr : ringWf n r) : (content n r).length = ringOccupied n r := by
  obtain ⟨-, -, -, hwritten⟩ := hr
  rw [content, List.filterMap_length_eq_length.mpr fun k hk => hwritten k (List.mem_range.mp hk), List.length_range]

theorem content_of_empty {n : Nat} {r : Ring} (hr : ringWf n r) (hempty : r.head = r.tail) : content n r = [] := by
  obtain ⟨-, hhead, htail, -⟩ := hr
  rw [content, (head_eq_tail_iff hhead htail).mp hempty]
  rfl

/-- A push leaves the slots between tail and head, because the slot it stores in is not one of them. -/
theorem memGet_pushed_of_occupied {n k : Nat} (b : Byte) {r : Ring} (hhead : r.head < n) (htail : r.tail < n)
    (hk : k < ringOccupied n r) :
    memGet (pushed n b r).mem ((r.tail + k) % n) = memGet r.mem ((r.tail + k) % n) := by
  have hlt := ringOccupied_lt hhead
  refine memGet_memSet_ne r.mem b fun hslot => ?_
  exact hk.ne' (ringOccupied_eq hhead htail (by omega) hslot.symm)

theorem memGet_pushed_newest {n : Nat} (b : Byte) {r : Ring} (hhead : r.head < n) (htail : r.tail < n) :
    memGet (pushed n b r).mem ((r.tail + ringOccupied n r) % n) = some b := by
  rw [tail_add_ringOccupied hhead htail]
  exact memGet_memSet_same r.mem r.head b

theorem ringWf_pushed {n : Nat} (b : Byte) {r : Ring} (hr : ringWf n r) (hroom : (r.head + 1) % n ≠ r.tail) :
    ringWf n (pushed n b r) := by
  obtain ⟨hmem, hhead, htail, hwritten⟩ := hr
  refine ⟨memWf_memSet b hhead hmem, Nat.mod_lt _ (by omega), htail, fun k hk => ?_⟩
  rw [ringOccupied_pushed b hhead htail hroom] at hk
  obtain hold | rfl := Nat.lt_succ_iff_lt_or_eq.mp hk
  · rw [pushed_tail, memGet_pushed_of_occupied b hhead htail hold]
    exact hwritten k hold
  · rw [pushed_tail, memGet_pushed_newest b hhead htail]
    rfl

theorem content_pushed {n : Nat} (b : Byte) {r : Ring} (hr : ringWf n r) (hroom : (r.head + 1) % n ≠ r.tail) :
    content n (pushed n b r) = content n r ++ [b] := by
  obtain ⟨-, hhead, htail, -⟩ := hr
  rw [content, ringOccupied_pushed b hhead htail hroom, List.range_succ, List.filterMap_append, pushed_tail]
  congr 1
  · exact List.filterMap_congr fun k hk => memGet_pushed_of_occupied b hhead htail (List.mem_range.mp hk)
  · simp only [List.filterMap_cons, memGet_pushed_newest b hhead htail, List.filterMap_nil]

theorem ringWf_popped {n : Nat} {r : Ring} (hr : ringWf n r) (hbyte : r.head ≠ r.tail) : ringWf n (popped n r) := by
  obtain ⟨hmem, hhead, htail, hwritten⟩ := hr
  refine ⟨hmem, hhead, Nat.mod_lt _ (by omega), fun k hk => ?_⟩
  rw [popped_mem, popped_tail, succ_tail_add_mod]
  exact hwritten (k + 1) (by rw [← ringOccupied_popped hhead htail hbyte]; omega)

theorem content_eq_cons {n : Nat} {r : Ring} {c : Byte} (hr : ringWf n r) (hc : oldest n r c) :
    content n r = c :: content n (popped n r) := by
  obtain ⟨-, hhead, -, -⟩ := hr
  obtain ⟨hbyte, htail, hget⟩ := hc
  have hfirst : memGet r.mem ((r.tail + 0) % n) = some c := by rw [Nat.add_zero, Nat.mod_eq_of_lt htail, hget]
  rw [content, ← ringOccupied_popped hhead htail hbyte, List.range_succ_eq_map]
  simp only [List.filterMap_cons, hfirst, List.filterMap_map, content, popped_mem, popped_tail, succ_tail_add_mod]
  rfl

/-- Settles O11, by the effect of an accepted push and of a successful pop on the content. -/
theorem ringIsFirstInFirstOut : Obligations.RingIsFirstInFirstOut := by
  intro n r hn hr
  have ⟨_, hhead, _, _⟩ := hr
  refine ⟨length_content hr, ringOccupied_add_ringFree hhead, fun b q h => ?_, fun b q h => ?_, fun q c h => ?_,
    fun q h => ?_, fun c h => ?_⟩
  · obtain ⟨-, -, hfalse⟩ | ⟨hroom, -, rfl, -⟩ := ringPush_ok h
    · cases hfalse
    · exact ⟨ringWf_pushed b hr hroom, content_pushed b hr hroom⟩
  · obtain ⟨-, rfl, -⟩ | ⟨-, -, -, htrue⟩ := ringPush_ok h
    · rfl
    · cases htrue
  · obtain ⟨-, -, hnone⟩ | ⟨_, hbyte, htail, hget, rfl, hsome⟩ := ringPop_ok h
    · cases hnone
    · cases hsome
      exact ⟨ringWf_popped hr hbyte, content_eq_cons hr ⟨hbyte, htail, hget⟩⟩
  · obtain ⟨-, rfl, -⟩ | ⟨_, -, -, -, -, hsome⟩ := ringPop_ok h
    · rfl
    · cases hsome
  · obtain ⟨hempty, rfl⟩ | ⟨b, hbyte, htail, hget, rfl⟩ := ringPeek_ok h
    · rw [content_of_empty hr hempty, List.head?_nil]
    · rw [content_eq_cons hr ⟨hbyte, htail, hget⟩, List.head?_cons]

end Sys2Proof.Machine
end

section
/-! PROOFS. What the foreground queries answer (41_foreground_queries.md R141 to R144), and what they, `POLL` and the
two handlers leave unchanged (42_write_flush_poll.md R168, 44_interrupt_handlers.md R221 to R226). -/

namespace Sys2Proof.Machine

open Sys2Proof

/-! ### The answers -/

theorem ringPeek_of_oldest {n : Nat} {r : Ring} {c : Byte} (h : oldest n r c) : ringPeek n r = .ok (some c) :=
  ringPeek_of_ringPop (ringPop_of_oldest h)

theorem peekBody_of_empty {s : State} (h : s.rx.head = s.rx.tail) : peekBody s = .done (s.respond 0xFFFF) := by
  rw [peekBody, ringPeek_of_empty _ h]
  rfl

theorem peekBody_of_oldest {s : State} {c : Byte} (h : oldest s.cfg.nRx s.rx c) :
    peekBody s = .done (s.respond (c.setWidth 16)) := by
  rw [peekBody, ringPeek_of_oldest h]
  rfl

theorem readBody_of_empty {s : State} (h : s.rx.head = s.rx.tail) : readBody s = .done (s.respond 0xFFFF) := by
  rw [readBody, ringPop_of_empty _ h]
  rfl

theorem readBody_of_oldest {s : State} {c : Byte} (h : oldest s.cfg.nRx s.rx c) :
    readBody s = .done ((s.setRx (popped s.cfg.nRx s.rx)).respond (c.setWidth 16)) := by
  rw [readBody, ringPop_of_oldest h]
  rfl

/-- The sentinel of an empty receive buffer at the response port (30_encoding.md R97). -/
theorem rspWord_sentinel : rspWord false 0xFFFF = 0x0000FFFF#32 := by decide

/-- Where the foreground is idle already, a response changes the response log alone (30_encoding.md R96). -/
theorem respond_of_idle {s : State} (v : BitVec 16) (h : s.fgPc = .idle) :
    s.respond v = { s with rspLog := s.rspLog ++ [rspWord false v] } := by
  rw [State.respond, ← h]

/-- An idle block takes a single-step command that responds to the state `u` of its step, with the response logged. -/
theorem hostIssue_responds {s : State} (u : State) {op : BitVec 4} {o : Operands} {f : State → Effect} {v : BitVec 16}
    {r : RspWord} (hidle : s.fgPc = .idle) (hnone : s.faulted = none)
    (hbody : f (s.latch op o) = .done (u.respond v)) (hu : u.fgPc = .idle) (hr : rspWord false v = r) :
    hostIssue op o f s = .next { u with rspLog := u.rspLog ++ [r] } := by
  rw [hostIssue_of_canIssue op o f ((canIssue_iff s).mpr ⟨hidle, hnone⟩), hbody, respond_of_idle v hu, hr, commit]

/-- Settles O13: the count is below `N_RX`, so it fits in the response. -/
theorem availableAnswersOccupied : Obligations.AvailableAnswersOccupied := by
  intro s o hidle hnone
  have hcount : ringOccupied s.cfg.nRx s.rx < s.cfg.nRx := Nat.mod_lt _ (Nat.zero_lt_of_lt s.cfg.nRx_lo)
  exact hostIssue_responds (s.latch 6 o) hidle hnone rfl hidle (rspWord_countValue (hcount.trans_le s.cfg.nRx_hi))

/-- Settles O14: the count of free slots is below `N_TX`, so it fits in the response. -/
theorem availableForWriteAnswersFree : Obligations.AvailableForWriteAnswersFree := by
  intro s o hidle hnone
  have hcount : ringFree s.cfg.nTx s.tx < s.cfg.nTx := (Nat.sub_le _ _).trans_lt (Nat.sub_one_lt_of_lt s.cfg.nTx_lo)
  exact hostIssue_responds (s.latch 4 o) hidle hnone rfl hidle (rspWord_countValue (hcount.trans_le s.cfg.nTx_hi))

/-- Settles O15, by the answer of `PEEK` on an empty receive buffer and on one with an oldest byte. -/
theorem peekAnswersTheOldestByte : Obligations.PeekAnswersTheOldestByte := by
  intro s o hidle hnone
  refine ⟨fun hempty => ?_, fun c hc => ?_⟩
  · exact hostIssue_responds (s.latch 7 o) hidle hnone (peekBody_of_empty (s := s.latch 7 o) hempty) hidle
      rspWord_sentinel
  · exact hostIssue_responds (s.latch 7 o) hidle hnone (peekBody_of_oldest (s := s.latch 7 o) hc) hidle
      (rspWord_byte c)

/-- Settles O16, by the answer of `READ` on an empty receive buffer and on one with an oldest byte, which it pops. -/
theorem readTakesTheOldestByte : Obligations.ReadTakesTheOldestByte := by
  intro s o hidle hnone
  refine ⟨fun hempty => ?_, fun c hc => ?_⟩
  · exact hostIssue_responds (s.latch 8 o) hidle hnone (readBody_of_empty (s := s.latch 8 o) hempty) hidle
      rspWord_sentinel
  · exact hostIssue_responds ((s.latch 8 o).setRx (popped s.cfg.nRx s.rx)) hidle hnone
      (readBody_of_oldest (s := s.latch 8 o) hc) hidle (rspWord_byte c)

/-! ### What each instruction can leave

One lemma per instruction names every next state it can have; its frame is then read off each of them. -/

/-- A command that is not accepted leaves the state; one that is finds an idle block, latches and does its step. -/
theorem hostIssue_next_cases {op : BitVec 4} {o : Operands} {f : State → Effect} {s t : State}
    (h : hostIssue op o f s = .next t) : t = s ∨ s.fgPc = .idle ∧ commit s (f (s.latch op o)) = .next t := by
  by_cases hi : s.canIssue = true
  · rw [hostIssue_of_canIssue op o f hi] at h
    exact .inr ⟨canIssue_idle hi, h⟩
  · rw [hostIssue_of_not_canIssue op o f hi] at h
    cases h
    exact .inl rfl

theorem peekBody_cases (s : State) : (∃ v, peekBody s = .done (s.respond v)) ∨ ∃ f, peekBody s = .stop f := by
  unfold peekBody
  split
  · exact .inl ⟨_, rfl⟩
  · exact .inr ⟨_, rfl⟩

theorem readBody_cases (s : State) :
    (∃ v, readBody s = .done (s.respond v)) ∨
    (∃ v, readBody s = .done ((s.setRx (popped s.cfg.nRx s.rx)).respond v)) ∨ ∃ f, readBody s = .stop f := by
  unfold readBody
  rcases hpop : ringPop s.cfg.nRx s.rx with f | ⟨r, c⟩
  · exact .inr (.inr ⟨f, rfl⟩)
  · obtain ⟨-, rfl, -⟩ | ⟨_, -, -, -, rfl, -⟩ := ringPop_ok hpop
    · exact .inl ⟨_, rfl⟩
    · exact .inr (.inl ⟨_, rfl⟩)

/-- What a query that reads the state it finds can leave: that state, or it with the latches and a response. -/
def answeredOnly (op : BitVec 4) (o : Operands) (s t : State) : Prop :=
  t = s ∨ s.fgPc = .idle ∧ ∃ v, t = (s.latch op o).respond v

/-- A body that does nothing but respond, or stops, leaves a command no other next state. -/
theorem hostIssue_answers {op : BitVec 4} {o : Operands} {f : State → Effect} {s t : State}
    (hf : ∀ u, (∃ v, f u = .done (u.respond v)) ∨ ∃ g, f u = .stop g) (h : hostIssue op o f s = .next t) :
    answeredOnly op o s t := by
  obtain rfl | ⟨hidle, hstep⟩ := hostIssue_next_cases h
  · exact .inl rfl
  · obtain ⟨v, hbody⟩ | ⟨g, hbody⟩ := hf (s.latch op o) <;> rw [hbody] at hstep <;> cases hstep
    exact .inr ⟨hidle, v, rfl⟩

theorem execAvailable_next {o : Operands} {s t : State} (h : execAvailable o s = .next t) : answeredOnly 6 o s t :=
  hostIssue_answers (fun _ => .inl ⟨_, rfl⟩) h

theorem execAvailableForWrite_next {o : Operands} {s t : State} (h : execAvailableForWrite o s = .next t) :
    answeredOnly 4 o s t :=
  hostIssue_answers (fun _ => .inl ⟨_, rfl⟩) h

theorem execPeek_next {o : Operands} {s t : State} (h : execPeek o s = .next t) : answeredOnly 7 o s t :=
  hostIssue_answers peekBody_cases h

theorem execRead_next {o : Operands} {s t : State} (h : execRead o s = .next t) :
    answeredOnly 8 o s t ∨
    s.fgPc = .idle ∧ ∃ v, t = ((s.latch 8 o).setRx (popped s.cfg.nRx s.rx)).respond v := by
  obtain rfl | ⟨hidle, hstep⟩ := hostIssue_next_cases h
  · exact .inl (.inl rfl)
  · obtain ⟨v, hbody⟩ | ⟨v, hbody⟩ | ⟨f, hbody⟩ := readBody_cases (s.latch 8 o) <;> rw [hbody] at hstep <;>
      cases hstep
    · exact .inl (.inr ⟨hidle, v, rfl⟩)
    · exact .inr ⟨hidle, v, rfl⟩

theorem execPoll_next {o : Operands} {s t : State} (h : execPoll o s = .next t) :
    answeredOnly 9 o s t ∨ (s.fgPc = .idle ∧ ∃ c, t = (drained c (s.latch 9 o)).respond 0) ∨
    t = raiseFault .txUnderflow s := by
  obtain rfl | ⟨hidle, hstep⟩ := hostIssue_next_cases h
  · exact .inl (.inl rfl)
  · rw [pollBody] at hstep
    obtain ⟨-, hpoll⟩ | ⟨c, -, hpoll⟩ | ⟨-, hpoll⟩ | ⟨f, hpoll⟩ := pollOnce_cases (s.latch 9 o) <;>
      rw [hpoll] at hstep <;> cases hstep
    · exact .inl (.inr ⟨hidle, 0, rfl⟩)
    · exact .inr (.inl ⟨hidle, c, rfl⟩)
    · exact .inr (.inr rfl)

theorem execRxHandler_next {s t : State} (h : execRxHandler s = .next t) :
    t = s ∨ t = s.hwReadRx ∨ t = s.hwReadRx.setRx (pushed s.cfg.nRx s.hwRxdata s.rx) := by
  cases runEvent_move ((runEvent_intRx s).trans h) with
  | skip => exact .inl rfl
  | receiveDrop => exact .inr (.inl rfl)
  | receiveStore => exact .inr (.inr rfl)

theorem execTxHandler_next {s t : State} (h : execTxHandler s = .next t) :
    t = s ∨ (∃ c, t = drained c s) ∨ t = raiseFault .txUnderflow s := by
  cases runEvent_move ((runEvent_intTx s).trans h) with
  | skip => exact .inl rfl
  | transmitDrain => exact .inr (.inl ⟨_, rfl⟩)
  | transmitUnderflow => exact .inr (.inr rfl)

/-! ### The frames -/

theorem answeredOnly.frame {op : BitVec 4} {o : Operands} {s t : State} (h : answeredOnly op o s t) :
    t = { s with
      fgOp := t.fgOp, fgData := t.fgData, fgBaud := t.fgBaud, fgFrame := t.fgFrame, rspLog := t.rspLog } := by
  obtain rfl | ⟨hidle, v, rfl⟩ := h
  · rfl
  · exact respond_of_idle (s := s.latch op o) v hidle

/-- Settles O48: each next state an instruction can have differs from the old one in the fields named alone. -/
theorem frameOfSingleStepInstructions : Obligations.FrameOfSingleStepInstructions := by
  intro s t o
  refine ⟨fun h => ?_, fun h => ?_, fun h => ?_, fun h => ?_, fun h => ?_⟩
  · obtain h | h | h := h
    · exact (execAvailable_next h).frame
    · exact (execAvailableForWrite_next h).frame
    · exact (execPeek_next h).frame
  · obtain hans | ⟨hidle, v, rfl⟩ := execRead_next h
    · rw [hans.frame]
    · exact respond_of_idle (s := (s.latch 8 o).setRx (popped s.cfg.nRx s.rx)) v hidle
  · obtain hans | ⟨hidle, c, rfl⟩ | rfl := execPoll_next h
    · rw [hans.frame]
    · exact respond_of_idle (s := drained c (s.latch 9 o)) 0 hidle
    · rfl
  · obtain rfl | rfl | rfl := execRxHandler_next h
    · exact ⟨rfl, fun _ _ => rfl⟩
    · exact ⟨rfl, fun _ _ => rfl⟩
    · exact ⟨rfl, fun a ha => memGet_memSet_ne s.rx.mem s.hwRxdata ha.symm⟩
  · obtain rfl | ⟨c, rfl⟩ | rfl := execTxHandler_next h <;> rfl

end Sys2Proof.Machine
end

section
/-! PROOFS. What each step of `WRITE`, `FLUSH` and `POLL` does (42_write_flush_poll.md R160 to R173), and what the four
multi-step commands leave unchanged in each of their steps (R160, R169; 43_begin_end_baud.md R190, R194). -/

namespace Sys2Proof.Machine

open Sys2Proof

/-! ### `PollOnce` and the responses -/

theorem txReq_iff (s : State) : s.txReq = true ↔ s.txeIe = true ∧ s.hwDre = true := by
  rw [State.txReq, Bool.and_eq_true]

theorem pollOnce_of_no_request {s : State} (h : ¬(s.txeIe = true ∧ s.hwDre = true)) : pollOnce s = .done s :=
  if_neg (mt (txReq_iff s).mp h)

theorem pollOnce_of_request {s : State} (harmed : s.txeIe = true) (hready : s.hwDre = true) :
    pollOnce s = txDrainOne s :=
  if_pos ((txReq_iff s).mpr ⟨harmed, hready⟩)

theorem txDrainOne_of_oldest {s : State} {c : Byte} (h : oldest s.cfg.nTx s.tx c) :
    txDrainOne s = .done (drained c s) := by
  rw [← feedHardware_setTx, txDrainOne, ringPop_of_oldest h]

theorem txDrainOne_of_empty {s : State} (h : s.tx.head = s.tx.tail) : txDrainOne s = .raise .txUnderflow := by
  rw [txDrainOne, ringPop_of_empty _ h]

theorem rspWord_zero : rspWord false 0 = 0#32 := by decide

theorem rspWord_one : rspWord false 1 = 1#32 := by decide

theorem respond_zero (s : State) : s.respond 0 = { s with rspLog := s.rspLog ++ [0#32], fgPc := .idle } := by
  rw [State.respond, rspWord_zero]

theorem respond_one (s : State) : s.respond 1 = { s with rspLog := s.rspLog ++ [1#32], fgPc := .idle } := by
  rw [State.respond, rspWord_one]

/-- Settles O17, by the three answers of `PollOnce`; one that raises leaves the response and the latches undone. -/
theorem pollDrainsAtMostOneByte : Obligations.PollDrainsAtMostOneByte := by
  intro s o hidle hnone
  refine ⟨fun hquiet => ?_, fun c harmed hready hc => ?_, fun harmed hready hempty => ?_⟩
  · have hpoll : pollOnce (s.latch 9 o) = .done (s.latch 9 o) := pollOnce_of_no_request hquiet
    exact hostIssue_responds (s.latch 9 o) hidle hnone (by rw [pollBody, hpoll, Effect.andThen]) hidle rspWord_zero
  · have hpoll : pollOnce (s.latch 9 o) = .done (drained c (s.latch 9 o)) :=
      (pollOnce_of_request (s := s.latch 9 o) harmed hready).trans (txDrainOne_of_oldest hc)
    exact hostIssue_responds (drained c (s.latch 9 o)) hidle hnone (by rw [pollBody, hpoll, Effect.andThen]) hidle
      rspWord_zero
  · have hpoll : pollOnce (s.latch 9 o) = .raise .txUnderflow :=
      (pollOnce_of_request (s := s.latch 9 o) harmed hready).trans (txDrainOne_of_empty hempty)
    have hissue := hostIssue_of_canIssue 9 o pollBody ((canIssue_iff s).mpr ⟨hidle, hnone⟩)
    rw [pollBody, hpoll, Effect.andThen, commit] at hissue
    exact hissue

/-! ### The step of the phase that is due -/

theorem fgStep_of_busy {s : State} (hbusy : s.fgPc ≠ .idle) (hnone : s.faulted = none) :
    fgStep s = commit s (fgPhase s) :=
  if_pos ((fgEnabled_iff s).mpr ⟨hbusy, hnone⟩)

/-- The multi-step command in progress does the effect of its phase. -/
theorem multiStep_of_phase {s u : State} {op : BitVec 4} (first : Phase) (hbusy : s.fgPc ≠ .idle)
    (hnone : s.faulted = none) (hop : s.fgOp = op) (heffect : fgPhase s = .done u) :
    multiStep op first s.operands s = .next u := by
  rw [← hop, multiStep_of_inFlight first hbusy, fgStep_of_busy hbusy hnone, heffect, commit]

theorem fgPhase_of_wrTry {s : State} (hpc : s.fgPc = .wrTry) : fgPhase s = fgWrTry s := by simp only [fgPhase, hpc]
theorem fgPhase_of_wrRoom {s : State} (hpc : s.fgPc = .wrRoom) : fgPhase s = fgWrRoom s := by simp only [fgPhase, hpc]
theorem fgPhase_of_flGate {s : State} (hpc : s.fgPc = .flGate) : fgPhase s = fgFlGate s := by simp only [fgPhase, hpc]
theorem fgPhase_of_flTest {s : State} (hpc : s.fgPc = .flTest) : fgPhase s = fgFlTest s := by simp only [fgPhase, hpc]

/-! ### `WRITE` -/

theorem fgWrTry_of_ready {s : State} (hdisarmed : s.txeIe = false) (hready : s.hwDre = true) :
    fgWrTry s = .done ((((s.hwWriteTx s.fgData).hwClearTxc).setEverWritten true).respond 1) :=
  if_pos ⟨hdisarmed, hready⟩

theorem fgWrTry_of_room {s : State} (hslow : ¬(s.txeIe = false ∧ s.hwDre = true))
    (hroom : (s.tx.head + 1) % s.cfg.nTx ≠ s.tx.tail) (hhead : s.tx.head < s.cfg.nTx) :
    fgWrTry s =
      .done ((((s.setTx (pushed s.cfg.nTx s.fgData s.tx)).hwSet .txeIe true).setEverWritten true).respond 1) := by
  rw [fgWrTry, if_neg hslow, ringPush_of_room s.fgData hhead hroom]

theorem fgWrTry_of_full {s : State} (hslow : ¬(s.txeIe = false ∧ s.hwDre = true))
    (hfull : (s.tx.head + 1) % s.cfg.nTx = s.tx.tail) : fgWrTry s = .done (s.goto .wrPoll) := by
  rw [fgWrTry, if_neg hslow, ringPush_of_full s.fgData hfull]

/-- Settles O19, by the path of `WR_TRY` under each condition. -/
theorem writeAttemptTakesItsPath : Obligations.WriteAttemptTakesItsPath := by
  intro s hpc hop hnone
  have hbusy : s.fgPc ≠ .idle := by simp [hpc]
  have hstep {u : State} (h : fgWrTry s = .done u) : exec (.write s.operands) s = .next u :=
    multiStep_of_phase .wrTry hbusy hnone hop ((fgPhase_of_wrTry hpc).trans h)
  refine ⟨fun hdisarmed hready => ?_, fun hslow hroom hhead => ?_, fun hslow hfull => ?_⟩
  · rw [hstep (fgWrTry_of_ready hdisarmed hready), respond_one]
    rfl
  · rw [hstep (fgWrTry_of_room hslow hroom hhead), respond_one]
    rfl
  · exact hstep (fgWrTry_of_full hslow hfull)

theorem fgWrRoom_eq (s : State) :
    fgWrRoom s = .done (s.goto (if (s.tx.head + 1) % s.cfg.nTx = s.tx.tail then .wrPoll else .wrTry)) := by
  rw [fgWrRoom, apply_ite (fun p => s.goto p)]
  simp only [Ring.isFull_iff]

/-! ### The phases that poll -/

theorem fgPhase_of_pollPhase {s : State} {p : Phase} (hp : PollPhase s.fgPc p) :
    fgPhase s = (pollOnce s).andThen (State.goto p) := by
  unfold fgPhase
  generalize s.fgPc = q at hp
  cases hp <;> rfl

/-- A phase that polls: it goes on, with a byte drained where one can be, or raises and stays where it is
(42_write_flush_poll.md R164, R172; 44_interrupt_handlers.md R226). -/
theorem fgStep_of_pollPhase {s : State} {p : Phase} (hp : PollPhase s.fgPc p) (hnone : s.faulted = none) :
    (¬(s.txeIe = true ∧ s.hwDre = true) → fgStep s = .next (s.goto p)) ∧
    (∀ c, s.txeIe = true → s.hwDre = true → oldest s.cfg.nTx s.tx c → fgStep s = .next ((drained c s).goto p)) ∧
    (s.txeIe = true → s.hwDre = true → s.tx.head = s.tx.tail → fgStep s = .next (raiseFault .txUnderflow s)) := by
  have hbusy : s.fgPc ≠ .idle := by obtain h | h := hp.polls <;> simp [h]
  rw [fgStep_of_busy hbusy hnone, fgPhase_of_pollPhase hp]
  refine ⟨fun hquiet => ?_, fun c harmed hready hc => ?_, fun harmed hready hempty => ?_⟩
  · rw [pollOnce_of_no_request hquiet, Effect.andThen, commit]
  · rw [pollOnce_of_request harmed hready, txDrainOne_of_oldest hc, Effect.andThen, commit]
  · rw [pollOnce_of_request harmed hready, txDrainOne_of_empty hempty, Effect.andThen, commit]

/-- Settles O20: `WR_POLL` is a phase that polls, `WR_ROOM` tests the ring. -/
theorem writePollsThenTestsForRoom : Obligations.WritePollsThenTestsForRoom := by
  intro s hop hnone
  have hstep (hpc : s.fgPc = .wrPoll) : exec (.write s.operands) s = fgStep s :=
    exec_of_inFlight (by simp [State.inFlight, hpc, hop, isMultiStep, commandOf])
  have hpoll (hpc : s.fgPc = .wrPoll) := fgStep_of_pollPhase (hpc ▸ .write : PollPhase s.fgPc .wrRoom) hnone
  refine ⟨fun hpc hquiet => ?_, fun c hpc harmed hready hc => ?_, fun hpc harmed hready hempty => ?_, fun hpc => ?_⟩
  · obtain ⟨hgoOn, -, -⟩ := hpoll hpc
    exact (hstep hpc).trans (hgoOn hquiet)
  · obtain ⟨-, hdrain, -⟩ := hpoll hpc
    exact (hstep hpc).trans (hdrain c harmed hready hc)
  · obtain ⟨-, -, hraise⟩ := hpoll hpc
    exact (hstep hpc).trans (hraise harmed hready hempty)
  · exact multiStep_of_phase .wrTry (by simp [hpc]) hnone hop ((fgPhase_of_wrRoom hpc).trans (fgWrRoom_eq s))

/-- Settles O23: `FL_POLL` is a phase that polls, and the command in progress takes the foreground's step. -/
theorem flushPollsOncePerIteration : Obligations.FlushPollsOncePerIteration := by
  intro s i hpc hnone hi
  rw [exec_of_inFlight hi]
  exact fgStep_of_pollPhase (hpc ▸ .flush : PollPhase s.fgPc .flTest) hnone

/-! ### The gate and the test of a flush -/

theorem fgFlGate_of_unwritten {s : State} (h : s.everWritten = false) : fgFlGate s = flushReturn s := by
  simp [fgFlGate, h]

theorem fgFlGate_of_written {s : State} (h : s.everWritten = true) : fgFlGate s = .done (s.goto .flTest) := if_pos h

theorem fgFlTest_eq (s : State) :
    fgFlTest s = if s.txeIe = true ∨ s.hwTxc = false then .done (s.goto .flPoll) else flushReturn s := by
  simp only [fgFlTest, Bool.or_eq_true, Bool.not_eq_true']

/-- Where a flush step ends for `END` and for `BEGIN`, the next phase is `END_OFF` (42_write_flush_poll.md R173). -/
theorem flushReturn_of_close {s : State} (h : s.fgOp = 2 ∨ s.fgOp = 1) : flushReturn s = .done (s.goto .endOff) :=
  h.elim flushReturn_end flushReturn_begin

theorem fgFlGate_of_close {s : State} (h : s.fgOp = 2 ∨ s.fgOp = 1) :
    fgFlGate s = .done (s.goto (if s.everWritten then .flTest else .endOff)) := by
  rw [fgFlGate, flushReturn_of_close h]
  split <;> rfl

theorem fgFlTest_of_close {s : State} (h : s.fgOp = 2 ∨ s.fgOp = 1) :
    fgFlTest s = .done (s.goto (if s.txeIe = true ∨ s.hwTxc = false then .flPoll else .endOff)) := by
  rw [fgFlTest_eq, flushReturn_of_close h]
  split <;> rfl

/-- Settles O21: `FLUSH` by the value of `everWritten`; `END` and `BEGIN` by the gate of a command that closes. -/
theorem flushGateTestsEverWritten : Obligations.FlushGateTestsEverWritten := by
  intro s hpc hnone
  have hstep {u : State} {op : BitVec 4} (first : Phase) (hop : s.fgOp = op) (h : fgFlGate s = .done u) :
      multiStep op first s.operands s = .next u :=
    multiStep_of_phase first (by simp [hpc]) hnone hop ((fgPhase_of_flGate hpc).trans h)
  refine ⟨fun hop hnever => ?_, fun hop hever => ?_, fun hop => ?_, fun hop => ?_⟩
  · rw [← respond_zero]
    exact hstep .flGate hop ((fgFlGate_of_unwritten hnever).trans (flushReturn_flush hop))
  · exact hstep .flGate hop (fgFlGate_of_written hever)
  · exact hstep .flGate hop (fgFlGate_of_close (.inl hop))
  · exact hstep .bgGate hop (fgFlGate_of_close (.inr hop))

/-- Settles O22: `FLUSH` by the condition of the test; `END` and `BEGIN` by the test of a command that closes. -/
theorem flushTestWaitsForCompletion : Obligations.FlushTestWaitsForCompletion := by
  intro s hpc hnone
  have hstep {u : State} {op : BitVec 4} (first : Phase) (hop : s.fgOp = op) (h : fgFlTest s = .done u) :
      multiStep op first s.operands s = .next u :=
    multiStep_of_phase first (by simp [hpc]) hnone hop ((fgPhase_of_flTest hpc).trans h)
  refine ⟨fun hop hdisarmed hcomplete => ?_, fun hop hwait => ?_, fun hop => ?_, fun hop => ?_⟩
  · have hends : fgFlTest s = flushReturn s := by simp [fgFlTest_eq, hdisarmed, hcomplete]
    rw [← respond_zero]
    exact hstep .flGate hop (hends.trans (flushReturn_flush hop))
  · exact hstep .flGate hop ((fgFlTest_eq s).trans (if_pos hwait))
  · exact hstep .flGate hop (fgFlTest_of_close (.inl hop))
  · exact hstep .bgGate hop (fgFlTest_of_close (.inr hop))

/-! ### The frames of the multi-step commands

Every foreground step keeps to `waitFrame` but three: the two paths by which `WR_TRY` responds, `END_OFF` and `BG_CFG`.
The phase of each names its command (`phaseFits`), so a command's frame is `waitFrame` and what its own phases add. -/

/-- The state differs at most in what a step that tests, polls, waits or raises may write. -/
def waitFrame (s t : State) : Prop :=
  t = { s with
    fgPc := t.fgPc, rspLog := t.rspLog, tx := { s.tx with tail := t.tx.tail }, hwTxdata := t.hwTxdata
    hwDre := t.hwDre, hwTxc := t.hwTxc, txeIe := t.txeIe, faulted := t.faulted }

/-- What a foreground step may write, by the phase that it is in. -/
inductive FgFrame (s t : State) : Prop where
  | wait (h : waitFrame s t)
  | write (hpc : s.fgPc = .wrTry)
      (h : t = { s with
        fgPc := t.fgPc, rspLog := t.rspLog, tx := t.tx, everWritten := t.everWritten, hwTxdata := t.hwTxdata
        hwDre := t.hwDre, hwTxc := t.hwTxc, txeIe := t.txeIe })
  | shut (hpc : s.fgPc = .endOff)
      (h : t = { s with
        fgPc := t.fgPc, rspLog := t.rspLog, txeIe := t.txeIe, rx := { s.rx with tail := t.rx.tail }
        rxen := t.rxen, txen := t.txen, rxcIe := t.rxcIe, configured := t.configured
        everWritten := t.everWritten })
  | configure (hpc : s.fgPc = .bgCfg)
      (h : t = { s with
        fgPc := t.fgPc, rspLog := t.rspLog, rxen := t.rxen, txen := t.txen, rxcIe := t.rxcIe
        configured := t.configured, pinCfg := t.pinCfg, hwBaud := t.hwBaud, hwFrame := t.hwFrame })

/-- The writes of `END_OFF` as one record (43_begin_end_baud.md R196). -/
theorem shutDown_eq (s : State) :
    shutDown s = { s with
      rxen := false, txen := false, rxcIe := false, txeIe := false, rx := { s.rx with tail := s.rx.head }
      configured := false, everWritten := false } := by
  simp only [shutDown, State.hwSet, State.setRx, State.setConfigured, State.setEverWritten]

theorem Move.fgFrame {s t : State} (h : Move .fg s t) : FgFrame s t := by
  cases h with
  | writeFast hf hp | writeSlow hf hp => exact .write hp rfl
  | endRespond hf hp | endGoOn hf hp => exact .shut hp (by rw [shutDown_eq]; rfl)
  | beginConfigure hf hp => exact .configure hp rfl
  | skip | writeFull | writeRoom | pollPhaseIdle | pollPhaseDrain | pollPhaseUnderflow | flushGo | flushWait
  | flushRespond | flushClose | beginGate | beginZero => exact .wait rfl

/-- Every slot of the transmit buffer but the one at the head reads after a step as before it. -/
theorem Move.memGet_tx {e : Event} {s t : State} {a : Nat} (h : Move e s t) (ha : a ≠ s.tx.head) :
    memGet t.tx.mem a = memGet s.tx.mem a := by
  obtain hr | ⟨-, hr⟩ | ⟨-, hr⟩ := h.tx_cases <;> rw [hr]
  · exact memGet_memSet_ne s.tx.mem s.fgData ha.symm
  · rw [popped_mem]

/-- What a multi-step command can leave: the state as it was, the command accepted, or a foreground step of it. -/
theorem multiStep_next_cases {op : BitVec 4} {first : Phase} {o : Operands} {s t : State}
    (h : multiStep op first o s = .next t) :
    t = s ∨ t = (s.latch op o).goto first ∨ s.fgOp = op ∧ Move .fg s t := by
  unfold multiStep at h
  split at h
  · obtain rfl | ⟨-, hstep⟩ := hostIssue_next_cases h
    · exact .inl rfl
    · cases hstep
      exact .inr (.inl rfl)
  · split at h
    · rename_i hsame
      obtain ⟨hop, -⟩ := hsame
      exact .inr (.inr ⟨hop, runEvent_move ((runEvent_fg s).trans h)⟩)
    · cases h
      exact .inl rfl

theorem fgOp_of_wrTry {s : State} (hfits : phaseFits s = true) (hpc : s.fgPc = .wrTry) : s.fgOp = 3 := by
  simpa [phaseFits, hpc] using hfits

theorem fgOp_of_endOff {s : State} (hfits : phaseFits s = true) (hpc : s.fgPc = .endOff) :
    s.fgOp = 1 ∨ s.fgOp = 2 := by
  simpa [phaseFits, hpc] using hfits

theorem fgOp_of_bgCfg {s : State} (hfits : phaseFits s = true) (hpc : s.fgPc = .bgCfg) : s.fgOp = 1 := by
  simpa [phaseFits, hpc] using hfits

/-- Settles O49: each command's acceptance writes the latches and the phase, and each of its steps keeps to the frame
of a phase that it has. -/
theorem frameOfMultiStepInstructions : Obligations.FrameOfMultiStepInstructions := by
  intro s t o hfits
  have hwr := fgOp_of_wrTry hfits
  have hoff := fgOp_of_endOff hfits
  have hcfg := fgOp_of_bgCfg hfits
  refine ⟨fun h => ?_, fun h => ?_, fun h => ?_, fun h => ?_⟩
  · obtain rfl | rfl | ⟨hop, hmove⟩ := multiStep_next_cases h
    · exact ⟨rfl, fun _ _ => rfl⟩
    · exact ⟨rfl, fun _ _ => rfl⟩
    · refine ⟨?_, fun a ha => hmove.memGet_tx ha⟩
      cases hmove.fgFrame with
      | wait h | write _ h => rw [h]
      | shut hpc => exact absurd (hoff hpc) (by simp [hop])
      | configure hpc => exact absurd (hcfg hpc) (by simp [hop])
  · obtain rfl | rfl | ⟨hop, hmove⟩ := multiStep_next_cases h
    · rfl
    · rfl
    · cases hmove.fgFrame with
      | wait h => rw [h]
      | write hpc => exact absurd (hwr hpc) (by simp [hop])
      | shut hpc => exact absurd (hoff hpc) (by simp [hop])
      | configure hpc => exact absurd (hcfg hpc) (by simp [hop])
  · obtain rfl | rfl | ⟨hop, hmove⟩ := multiStep_next_cases h
    · rfl
    · rfl
    · cases hmove.fgFrame with
      | wait h | shut _ h => rw [h]
      | write hpc => exact absurd (hwr hpc) (by simp [hop])
      | configure hpc => exact absurd (hcfg hpc) (by simp [hop])
  · obtain rfl | rfl | ⟨hop, hmove⟩ := multiStep_next_cases h
    · rfl
    · rfl
    · cases hmove.fgFrame with
      | wait h | shut _ h | configure _ h => rw [h]
      | write hpc => exact absurd (hwr hpc) (by simp [hop])

end Sys2Proof.Machine
end

section
/-! PROOFS. What each phase of `BEGIN` and `END` does, and the arithmetic of the baud setting
(43_begin_end_baud.md R190 to R201). -/

namespace Sys2Proof.Machine

open Sys2Proof

/-! ### The baud setting -/

/-- Settles O27: both sides are the quotient `8 * clk / rate`, plus 1, halved and rounded down. -/
theorem baudRoundsHalfUp : Obligations.BaudRoundsHalfUp := by
  intro clk rate _
  have hquotient : ⌊(8 * clk : ℚ) / rate⌋ = ((8 * clk / rate : ℕ) : ℤ) := by
    exact_mod_cast Rat.floor_natCast_div_natCast (8 * clk) rate
  have hhalved : (4 * clk : ℚ) / rate + 1 / 2 = ((8 * clk : ℚ) / rate + 1) / (2 : ℕ) := by
    push_cast
    ring
  rw [hhalved, Int.floor_div_natCast, Int.floor_add_one, hquotient, baudRounded]
  rfl

/-- A quotient truncated toward zero has the sign of its dividend, or is 0. -/
theorem tdiv_mul_self_nonneg {d : ℤ} (hd : 0 ≤ d) (p : ℤ) : 0 ≤ p.tdiv d * p := by
  have hnonneg {n : ℤ} (hn : 0 ≤ n) : 0 ≤ n.tdiv d * n := mul_nonneg (Int.tdiv_nonneg hn hd) hn
  obtain hp | hp := le_total 0 p
  · exact hnonneg hp
  · simpa [Int.neg_tdiv] using hnonneg (neg_nonneg.mpr hp)

/-- Settles O28: the correction's magnitude is the quotient of the product's magnitude. -/
theorem baudCorrectionTruncatesTowardZero : Obligations.BaudCorrectionTruncatesTowardZero := by
  intro clk rate corr _
  refine ⟨(baudRounded clk rate * corr).tdiv 1024, rfl, ?_, ?_, tdiv_mul_self_nonneg (by decide) _⟩
  · rw [Int.natAbs_tdiv]
    exact Nat.div_mul_le_self _ 1024
  · rw [Int.natAbs_tdiv]
    exact Nat.lt_mul_of_div_lt (Nat.lt_succ_self _) (by decide)

/-! ### The phases of `END` and `BEGIN` -/

theorem fgPhase_of_endOff {s : State} (hpc : s.fgPc = .endOff) : fgPhase s = fgEndOff s := by simp only [fgPhase, hpc]
theorem fgPhase_of_bgGate {s : State} (hpc : s.fgPc = .bgGate) : fgPhase s = fgBgGate s := by simp only [fgPhase, hpc]
theorem fgPhase_of_bgCfg {s : State} (hpc : s.fgPc = .bgCfg) : fgPhase s = fgBgCfg s := by simp only [fgPhase, hpc]

theorem fgEndOff_of_end {s : State} (hop : s.fgOp = 2) : fgEndOff s = .done ((shutDown s).respond 0) := by
  rw [fgEndOff, if_pos hop]

theorem fgEndOff_of_begin {s : State} (hop : s.fgOp = 1) : fgEndOff s = .done ((shutDown s).goto .bgCfg) := by
  rw [fgEndOff, if_neg (by simp [hop])]

theorem fgBgGate_eq (s : State) : fgBgGate s = .done (s.goto (if s.configured then .flGate else .bgCfg)) := by
  rw [fgBgGate, apply_ite (fun p => s.goto p)]

/-- The multi-step command in progress raises where its phase raises, and keeps its place (60_exceptions.md R285). -/
theorem multiStep_of_phase_raise {s : State} {op : BitVec 4} {c : FaultCode} (first : Phase) (hbusy : s.fgPc ≠ .idle)
    (hnone : s.faulted = none) (hop : s.fgOp = op) (heffect : fgPhase s = .raise c) :
    multiStep op first s.operands s = .next (raiseFault c s) := by
  rw [← hop, multiStep_of_inFlight first hbusy, fgStep_of_busy hbusy hnone, heffect, commit]

/-- Settles O24: the writes of `shutDown`, then the response of `END` or the next phase of `BEGIN`. -/
theorem endDisablesAndDiscards : Obligations.EndDisablesAndDiscards := by
  intro s hpc hnone
  have hstep {u : State} {op : BitVec 4} (first : Phase) (hop : s.fgOp = op) (h : fgEndOff s = .done u) :
      multiStep op first s.operands s = .next u :=
    multiStep_of_phase first (by simp [hpc]) hnone hop ((fgPhase_of_endOff hpc).trans h)
  refine ⟨fun hop => ?_, fun hop => ?_⟩
  · refine (hstep .flGate hop (fgEndOff_of_end hop)).trans ?_
    rw [respond_zero, shutDown_eq]
  · refine (hstep .bgGate hop (fgEndOff_of_begin hop)).trans ?_
    rw [State.goto, shutDown_eq]

/-- Settles O25: `BG_GATE` tests `configured` and goes on. -/
theorem beginEndsFirstWhenConfigured : Obligations.BeginEndsFirstWhenConfigured := by
  intro s hpc hop hnone
  exact multiStep_of_phase .bgGate (by simp [hpc]) hnone hop ((fgPhase_of_bgGate hpc).trans (fgBgGate_eq s))

/-- Settles O26: the setup of a rate that is not 0, and the fault of the rate 0. -/
theorem beginConfiguresOrFaults : Obligations.BeginConfiguresOrFaults := by
  intro s hpc hop hnone
  have hbusy : s.fgPc ≠ .idle := by simp [hpc]
  refine ⟨fun hrate => ?_, fun hzero => ?_⟩
  · refine (multiStep_of_phase .bgGate hbusy hnone hop ((fgPhase_of_bgCfg hpc).trans (fgBgCfg_of_ne hrate))).trans ?_
    rw [begun, rspWord_zero, baudSetting, baudRounded]
  · exact multiStep_of_phase_raise .bgGate hbusy hnone hop ((fgPhase_of_bgCfg hpc).trans (fgBgCfg_of_eq_zero hzero))

end Sys2Proof.Machine
end

section
/-! PROOFS. What each interrupt handler does once it is taken (44_interrupt_handlers.md R221 to R226). -/

namespace Sys2Proof.Machine

open Sys2Proof

/-! ### The receive handler -/

theorem rxHandler_of_room {s : State} (hhead : s.rx.head < s.cfg.nRx)
    (hroom : (s.rx.head + 1) % s.cfg.nRx ≠ s.rx.tail) :
    rxHandler s = .done (s.hwReadRx.setRx (pushed s.cfg.nRx s.hwRxdata s.rx)) := by
  rw [rxHandler, ringPush_of_room s.hwRxdata hhead hroom]

theorem rxHandler_of_full {s : State} (hfull : (s.rx.head + 1) % s.cfg.nRx = s.rx.tail) :
    rxHandler s = .done s.hwReadRx := by
  rw [rxHandler, ringPush_of_full s.hwRxdata hfull]
  rfl

theorem execRxHandler_of_done {s u : State} (htakeable : s.rxTakeable = true) (hbody : rxHandler s = .done u) :
    execRxHandler s = .next u := by
  rw [execRxHandler, if_pos htakeable, takeInterrupt, interruptEntry_eq, hbody]
  rfl

/-- Settles O29: the handler is taken, and its push finds room or a full buffer. -/
theorem receiveHandlerStoresOrDrops : Obligations.ReceiveHandlerStoresOrDrops := by
  intro s hgie harmed hpending hnone
  have htakeable : s.rxTakeable = true := (rxTakeable_iff s).mpr ⟨hgie, harmed, hpending, hnone⟩
  exact ⟨fun hroom hhead => execRxHandler_of_done htakeable (rxHandler_of_room hhead hroom),
    fun hfull => execRxHandler_of_done htakeable (rxHandler_of_full hfull)⟩

/-! ### The transmit handler -/

theorem execTxHandler_of_takeable {s : State} (htakeable : s.txTakeable = true) :
    execTxHandler s = commit s ((txDrainOne s).andThen interruptReturn) := by
  rw [execTxHandler, if_pos htakeable, takeInterrupt, interruptEntry_eq, txHandler]

/-- The handler disarms itself exactly where the drain logic does: when the buffer is empty after its pop
(44_interrupt_handlers.md R224). -/
theorem drained_of_armed (c : Byte) {s : State} (harmed : s.txeIe = true) :
    drained c s = { s with
      tx := { s.tx with tail := (s.tx.tail + 1) % s.cfg.nTx }
      hwTxdata := c, hwDre := false, hwTxc := false
      txeIe := !(s.tx.head == (s.tx.tail + 1) % s.cfg.nTx) } := by
  by_cases hlast : s.tx.head = (s.tx.tail + 1) % s.cfg.nTx
  · simp [drained, hlast]
  · simp [drained, hlast, harmed]

/-- Settles O30: the handler is taken, and the drain logic finds an oldest byte or raises. -/
theorem transmitHandlerDrainsOneByte : Obligations.TransmitHandlerDrainsOneByte := by
  intro s hgie harmed hready hnone
  have hexec := execTxHandler_of_takeable ((txTakeable_iff s).mpr ⟨hgie, harmed, hready, hnone⟩)
  refine ⟨fun c hc => ?_, fun hempty => ?_⟩
  · rw [txDrainOne_of_oldest hc] at hexec
    rw [← drained_of_armed c harmed]
    exact hexec
  · rw [txDrainOne_of_empty hempty] at hexec
    exact hexec

end Sys2Proof.Machine
end

section
/-! PROOFS. The peripheral: the effect of its four steps, and what any step can do to its transmitter and to its
receiver (45_hardware_interface.md R250 to R255). -/

namespace Sys2Proof.Machine

open Sys2Proof

/-! ### The four steps of the peripheral -/

theorem enabled_txLoad_iff (s : State) :
    enabled .txLoad s = true ↔ s.txen = true ∧ s.hwDre = false ∧ s.hwShiftBusy = false := by
  simp only [enabled, Bool.and_eq_true, Bool.not_eq_true', and_assoc]

theorem enabled_txDone_iff (s : State) : enabled .txDone s = true ↔ s.txen = true ∧ s.hwShiftBusy = true := by
  simp only [enabled, Bool.and_eq_true]

theorem enabled_rxArrive_iff (b : Byte) (x : Nat) (s : State) :
    enabled (.rxArrive b x) s = true ↔ s.rxen = true ∧ s.hwRxc = false := by
  simp only [enabled, Bool.and_eq_true, Bool.not_eq_true']

theorem enabled_rxFlush_iff (s : State) : enabled .rxFlush s = true ↔ s.rxen = false ∧ s.hwRxc = true := by
  simp only [enabled, Bool.and_eq_true, Bool.not_eq_true']

/-- A step whose effect is one state does it where it is enabled, and nothing elsewhere (00_scope.md R11). -/
theorem runEvent_of_perform {e : Event} {s t : State} {c : Prop} [Decidable c] (he : enabled e s = true ↔ c)
    (hp : perform e s = .next t) : runEvent e s = .next (if c then t else s) := by
  by_cases hc : c
  · rw [runEvent, if_pos (he.mpr hc), if_pos hc, hp]
  · rw [runEvent, if_neg (mt he.mp hc), if_neg hc]

theorem runEvent_txLoad (s : State) : runEvent .txLoad s =
    .next (if s.txen = true ∧ s.hwDre = false ∧ s.hwShiftBusy = false then envTxLoad s else s) :=
  runEvent_of_perform (enabled_txLoad_iff s) rfl

theorem runEvent_txDone (s : State) :
    runEvent .txDone s = .next (if s.txen = true ∧ s.hwShiftBusy = true then envTxDone s else s) :=
  runEvent_of_perform (enabled_txDone_iff s) rfl

theorem runEvent_rxArrive (b : Byte) (x : Nat) (s : State) :
    runEvent (.rxArrive b x) s = .next (if s.rxen = true ∧ s.hwRxc = false then envRxArrive b x s else s) :=
  runEvent_of_perform (enabled_rxArrive_iff b x s) rfl

theorem runEvent_rxFlush (s : State) :
    runEvent .rxFlush s = .next (if s.rxen = false ∧ s.hwRxc = true then envRxFlush s else s) :=
  runEvent_of_perform (enabled_rxFlush_iff s) rfl

/-- `ENV.TX_DONE` reports completion where the data register is empty (45_hardware_interface.md R251). -/
theorem envTxDone_eq (s : State) : envTxDone s =
    { s with txLine := s.txLine ++ [s.hwShift], hwShiftBusy := false, hwTxc := s.hwDre || s.hwTxc } := by
  simp [envTxDone]

/-- Settles O33, by the enabling condition and the effect of each step. -/
theorem peripheralStepsDoTheirEffect : Obligations.PeripheralStepsDoTheirEffect := by
  intro s
  refine ⟨runEvent_txLoad s, ?_, fun b x => runEvent_rxArrive b x s, runEvent_rxFlush s⟩
  rw [← envTxDone_eq]
  exact runEvent_txDone s

/-- The steps of the peripheral (45_hardware_interface.md R250 to R253). -/
def isPeripheral (e : Event) : Prop := e = .txLoad ∨ e = .txDone ∨ e = .rxFlush ∨ ∃ b x, e = .rxArrive b x

/-- What a step of the peripheral leaves unchanged: everything but the registers behind the Hardware Interface
(45_hardware_interface.md R255). -/
theorem runEvent_peripheral_frame {e : Event} {s t : State} (hp : isPeripheral e) (h : runEvent e s = .next t) :
    t = { s with
      hwDre := t.hwDre, hwTxc := t.hwTxc, hwRxc := t.hwRxc, hwRxdata := t.hwRxdata, hwRxerr := t.hwRxerr
      hwShiftBusy := t.hwShiftBusy, hwShift := t.hwShift, txLine := t.txLine } := by
  obtain rfl | rfl | rfl | ⟨b, x, rfl⟩ := hp
  · rw [runEvent_txLoad] at h; cases h; split <;> rfl
  · rw [runEvent_txDone] at h; cases h; split <;> rfl
  · rw [runEvent_rxFlush] at h; cases h; split <;> rfl
  · rw [runEvent_rxArrive] at h; cases h; split <;> rfl

/-! ### The transmitter -/

/-- The registers of the peripheral's transmitter and its line (10_state.md R41, R46, R47). -/
structure Transmitter where
  dre : Bool
  txc : Bool
  data : Byte
  busy : Bool
  shift : Byte
  line : List Byte

/-- The transmitter of a state. -/
@[simps] def State.transmitter (s : State) : Transmitter :=
  ⟨s.hwDre, s.hwTxc, s.hwTxdata, s.hwShiftBusy, s.hwShift, s.txLine⟩

/-- A byte is handed over: `HwWriteTx` with `HwClearTxc` (45_hardware_interface.md R242, R243). -/
@[simps] def Transmitter.handOver (c : Byte) (u : Transmitter) : Transmitter :=
  { u with data := c, dre := false, txc := false }

/-- `ENV.TX_LOAD` (45_hardware_interface.md R250). -/
@[simps] def Transmitter.load (u : Transmitter) : Transmitter := { u with shift := u.data, busy := true, dre := true }

/-- `ENV.TX_DONE` (45_hardware_interface.md R251). -/
@[simps] def Transmitter.finish (u : Transmitter) : Transmitter :=
  { u with line := u.line ++ [u.shift], busy := false, txc := if u.dre then true else u.txc }

@[simp] theorem takeDraw_transmitter (s : State) : (takeDraw s).transmitter = s.transmitter := by
  simp [State.transmitter]

/-- The agents that hand a byte over: the transmit handler, a phase of the foreground, and the host with a `POLL`. -/
def handsOver (e : Event) : Prop := e = .intTx ∨ e = .fg ∨ ∃ w, e = .issue w

/-- What a step can do to the transmitter: nothing, a byte handed over where the data register is empty, `ENV.TX_LOAD`
or `ENV.TX_DONE` (45_hardware_interface.md R255). -/
inductive TransmitMove (e : Event) (txen : Bool) (u v : Transmitter) : Prop where
  | keep (hv : v = u)
  | handOver (c : Byte) (he : handsOver e) (hready : u.dre = true) (hv : v = u.handOver c)
  | load (he : e = .txLoad) (hen : txen = true) (hfull : u.dre = false) (hidle : u.busy = false) (hv : v = u.load)
  | finish (he : e = .txDone) (hen : txen = true) (hbusy : u.busy = true) (hv : v = u.finish)

theorem drained_transmitter (c : Byte) (s : State) : (drained c s).transmitter = s.transmitter.handOver c := by
  simp only [drained, State.transmitter, Transmitter.handOver]

theorem hwDre_of_drains {c : Byte} {s : State} (h : drains c s) : s.hwDre = true := by
  obtain ⟨hreq, -⟩ := h
  simp only [State.txReq, Bool.and_eq_true] at hreq
  exact hreq.2

theorem Move.transmitMove {e : Event} {s t : State} (h : Move e s t) :
    TransmitMove e s.txen s.transmitter t.transmitter := by
  cases h with
  | writeFast hf hp ht hd => exact .handOver s.fgData (.inr (.inl rfl)) hd rfl
  | @transmitDrain _ c ht _ =>
    obtain ⟨-, -, hd, -⟩ := (txTakeable_iff s).mp ht
    exact .handOver c (.inl rfl) hd (drained_transmitter c s)
  | @pollPhaseDrain _ _ c hf hp hd =>
    exact .handOver c (.inr (.inl rfl)) (hwDre_of_drains hd) (drained_transmitter c s)
  | @pollDrain _ o _ c hi hw hd =>
    exact .handOver c (.inr (.inr ⟨_, rfl⟩)) (hwDre_of_drains hd) (drained_transmitter c (s.latch 9 o))
  | txLoad h =>
    obtain ⟨hen, hfull, hidle⟩ := (enabled_txLoad_iff s).mp h
    exact .load rfl hen hfull hidle rfl
  | txDone h =>
    obtain ⟨hen, hbusy⟩ := (enabled_txDone_iff s).mp h
    exact .finish rfl hen hbusy rfl
  | _ => exact .keep (by simp [State.transmitter, shutDown, begun])

theorem TransmitMove.load_of_dre_rises {e : Event} {txen : Bool} {u v : Transmitter} (h : TransmitMove e txen u v)
    (hu : u.dre = false) (hv : v.dre = true) : e = .txLoad ∧ txen = true := by
  cases h with
  | load he hen => exact ⟨he, hen⟩
  | keep h | handOver _ _ _ h | finish _ _ _ h => simp [h, hu, Transmitter.handOver, Transmitter.finish] at hv

theorem TransmitMove.finish_of_txc_rises {e : Event} {txen : Bool} {u v : Transmitter} (h : TransmitMove e txen u v)
    (hu : u.txc = false) (hv : v.txc = true) : e = .txDone ∧ txen = true ∧ u.dre = true ∧ v.busy = false := by
  cases h with
  | finish he hen _ h =>
    subst h
    exact ⟨he, hen, by simpa [Transmitter.finish, hu] using hv, rfl⟩
  | keep h | handOver _ _ _ h | load _ _ _ _ h => simp [h, hu, Transmitter.handOver, Transmitter.load] at hv

theorem TransmitMove.handOver_of_dre_falls {e : Event} {txen : Bool} {u v : Transmitter} (h : TransmitMove e txen u v)
    (hu : u.dre = true) (hv : v.dre = false) : v.txc = false ∧ handsOver e := by
  cases h with
  | handOver _ he _ h => exact ⟨by rw [h, Transmitter.handOver], he⟩
  | keep h | load _ _ _ _ h | finish _ _ _ h => simp [h, hu, Transmitter.load, Transmitter.finish] at hv

theorem TransmitMove.handOver_of_txc_falls {e : Event} {txen : Bool} {u v : Transmitter} (h : TransmitMove e txen u v)
    (hu : u.txc = true) (hv : v.txc = false) : v.dre = false ∧ handsOver e := by
  cases h with
  | handOver _ he _ h => exact ⟨by rw [h, Transmitter.handOver], he⟩
  | keep h | load _ _ _ _ h | finish _ _ _ h => simp [h, hu, Transmitter.load, Transmitter.finish] at hv

/-- With the transmitter disabled only its data register can be written (45_hardware_interface.md R254). -/
theorem TransmitMove.of_disabled {e : Event} {u v : Transmitter} (h : TransmitMove e false u v) :
    v = u ∨ ∃ c, v = u.handOver c := by
  cases h with
  | keep h => exact .inl h
  | handOver c _ _ h => exact .inr ⟨c, h⟩
  | load _ hen | finish _ hen => cases hen

/-- A byte that waits at an idle shifter stays until `ENV.TX_LOAD`. -/
theorem TransmitMove.keep_of_not_load {e : Event} {txen : Bool} {u v : Transmitter} (h : TransmitMove e txen u v)
    (hfull : u.dre = false) (hidle : u.busy = false) (hne : e ≠ .txLoad) : v = u := by
  cases h with
  | keep hv => exact hv
  | handOver _ _ hready => simp [hfull] at hready
  | load he => exact absurd he hne
  | finish _ _ hbusy => simp [hidle] at hbusy

/-- A busy shifter stays until `ENV.TX_DONE`, and so does the data register where nothing is handed over. -/
theorem TransmitMove.keep_of_not_finish {e : Event} {txen : Bool} {u v : Transmitter} (h : TransmitMove e txen u v)
    (hbusy : u.busy = true) (hno : u.dre = true → v.dre = true) (hne : e ≠ .txDone) : v = u := by
  cases h with
  | keep hv => exact hv
  | handOver _ _ hready hv =>
    have hlost : u.dre = false := by simpa [hv] using hno
    simp [hlost] at hready
  | load _ _ _ hidle => simp [hbusy] at hidle
  | finish he => exact absurd he hne

/-- The byte that `u` shifts out is still in the shift register of `v`. -/
def Transmitter.stillShifting (u v : Transmitter) : Prop := v.busy = true ∧ v.shift = u.shift ∧ v.line = u.line

/-- A busy shifter stays until `ENV.TX_DONE`, whatever is handed over. -/
theorem TransmitMove.stillShifting_of_not_finish {e : Event} {txen : Bool} {u v w : Transmitter}
    (h : TransmitMove e txen v w) (hs : u.stillShifting v) (hne : e ≠ .txDone) : u.stillShifting w := by
  cases h with
  | keep hw | handOver _ _ _ hw => rw [hw]; exact hs
  | load _ _ _ hidle => simp [hs.1] at hidle
  | finish he => exact absurd he hne

/-! ### The receiver -/

/-- The registers of the peripheral's receiver (10_state.md R41, R42). -/
structure Receiver where
  rxc : Bool
  data : Byte
  err : Nat

/-- The receiver of a state. -/
@[simps] def State.receiver (s : State) : Receiver := ⟨s.hwRxc, s.hwRxdata, s.hwRxerr⟩

@[simp] theorem takeDraw_receiver (s : State) : (takeDraw s).receiver = s.receiver := by
  simp [State.receiver]

/-- What a step can do to the receiver: nothing, `ENV.RX_ARRIVE` where nothing is pending, `HwReadRx` by `INT.RX`, or
`ENV.RX_FLUSH` (45_hardware_interface.md R244, R252, R253). -/
inductive ReceiveMove (e : Event) (rxen : Bool) (u v : Receiver) : Prop where
  | keep (hv : v = u)
  | arrive (b : Byte) (x : Nat) (he : e = .rxArrive b x) (hen : rxen = true) (hfree : u.rxc = false)
      (hv : v = ⟨true, b, x⟩)
  | read (he : e = .intRx) (hv : v = { u with rxc := false })
  | flush (he : e = .rxFlush) (hoff : rxen = false) (hv : v = { u with rxc := false })

theorem Move.receiveMove {e : Event} {s t : State} (h : Move e s t) :
    ReceiveMove e s.rxen s.receiver t.receiver := by
  cases h with
  | receiveStore | receiveDrop => exact .read rfl rfl
  | @rxArrive b x _ h =>
    obtain ⟨hen, hfree⟩ := (enabled_rxArrive_iff b x s).mp h
    exact .arrive b x rfl hen hfree rfl
  | rxFlush h =>
    obtain ⟨hoff, -⟩ := (enabled_rxFlush_iff s).mp h
    exact .flush rfl hoff rfl
  | _ => exact .keep (by simp [State.receiver, drained, shutDown, begun])

theorem ReceiveMove.arrive_of_rxc_rises {e : Event} {rxen : Bool} {u v : Receiver} (h : ReceiveMove e rxen u v)
    (hu : u.rxc = false) (hv : v.rxc = true) :
    rxen = true ∧ ∃ b x, e = .rxArrive b x ∧ v.data = b ∧ v.err = x := by
  cases h with
  | arrive b x he hen _ h => exact ⟨hen, b, x, he, by rw [h], by rw [h]⟩
  | keep h | read _ h | flush _ _ h => simp [h, hu] at hv

theorem ReceiveMove.read_or_flush_of_rxc_falls {e : Event} {rxen : Bool} {u v : Receiver} (h : ReceiveMove e rxen u v)
    (hu : u.rxc = true) (hv : v.rxc = false) : e = .intRx ∨ (e = .rxFlush ∧ rxen = false) := by
  cases h with
  | read he => exact .inl he
  | flush he hoff => exact .inr ⟨he, hoff⟩
  | keep h | arrive _ _ _ _ _ h => simp [h, hu] at hv

/-- The received data stays as it is but for an arrival, which needs the receiver enabled and nothing pending
(45_hardware_interface.md R252). -/
theorem ReceiveMove.data_eq {e : Event} {rxen : Bool} {u v : Receiver} (h : ReceiveMove e rxen u v)
    (hno : rxen = false ∨ u.rxc = true) : v.data = u.data ∧ v.err = u.err := by
  cases h with
  | arrive _ _ _ hen hfree => simp [hen, hfree] at hno
  | keep h | read _ h | flush _ _ h => simp [h]

/-! ### The contract of the peripheral -/

theorem step_transmitMove {s t : State} (h : step s = .next t) :
    TransmitMove (nextEvent s) s.txen s.transmitter t.transmitter := by
  simpa using (step_move h).transmitMove

theorem step_receiveMove {s t : State} (h : step s = .next t) :
    ReceiveMove (nextEvent s) s.rxen s.receiver t.receiver := by
  simpa using (step_move h).receiveMove

/-- Settles O34: the two steps that need the transmitter enabled are the only ones that shift, send or raise a status
bit of it, and an arrival needs the receiver enabled. -/
theorem disabledDirectionDoesNothing : Obligations.DisabledDirectionDoesNothing := by
  intro s t h
  have htx := step_transmitMove h
  have hrx := step_receiveMove h
  refine ⟨fun hoff => ?_, fun hoff => ?_⟩
  · rw [hoff] at htx
    obtain hkeep | ⟨c, hc⟩ := htx.of_disabled
    · simp only [State.transmitter, Transmitter.mk.injEq] at hkeep
      simp [hkeep]
    · simp only [State.transmitter, Transmitter.handOver, Transmitter.mk.injEq] at hc
      simp [hc]
  · obtain ⟨hdata, herr⟩ := hrx.data_eq (.inl hoff)
    refine ⟨hdata, herr, fun ht => Bool.of_not_eq_false fun hs => ?_⟩
    obtain ⟨hen, -⟩ := hrx.arrive_of_rxc_rises hs ht
    simp [hoff] at hen

/-- Settles O35, by what a step can do to the transmitter and to the receiver, and the frame of the peripheral's own
steps. -/
theorem peripheralKeepsItsContract : Obligations.PeripheralKeepsItsContract := by
  intro s t h
  have htx := step_transmitMove h
  have hrx := step_receiveMove h
  refine ⟨htx.load_of_dre_rises, fun hs ht => ?_, htx.handOver_of_dre_falls, htx.handOver_of_txc_falls,
    hrx.arrive_of_rxc_rises, hrx.read_or_flush_of_rxc_falls, fun hs => hrx.data_eq (.inr hs),
    fun hp => runEvent_peripheral_frame hp h⟩
  obtain ⟨he, -, hready, hidle⟩ := htx.finish_of_txc_rises hs ht
  exact ⟨he, hready, hidle⟩

end Sys2Proof.Machine
end

section
/-! PROOFS. In a fair run an enabled transmitter empties its data register, sends what it holds and reports completion
(45_hardware_interface.md R255, R257). -/

namespace Sys2Proof.Machine

open Sys2Proof

/-! ### The transmitter along a run -/

theorem isRun_transmitMove {ε : Nat → Event} {σ : Nat → State} (h : isRun ε σ) (n : Nat) :
    TransmitMove (ε n) (σ n).txen (σ n).transmitter (σ (n + 1)).transmitter := by
  obtain ⟨l, d, hmove⟩ := isRun_move h n
  exact hmove.transmitMove

theorem isRun_load {ε : Nat → Event} {σ : Nat → State} (h : isRun ε σ) {n : Nat} (he : ε n = .txLoad)
    (hen : enabled .txLoad (σ n) = true) : (σ (n + 1)).transmitter = (σ n).transmitter.load := by
  obtain ⟨l, d, hrun⟩ := h n
  rw [he, runEvent, if_pos ((enabled_withDraws _ _ l d).trans hen)] at hrun
  rw [← Host.Outcome.next.inj hrun]
  rfl

theorem isRun_finish {ε : Nat → Event} {σ : Nat → State} (h : isRun ε σ) {n : Nat} (he : ε n = .txDone)
    (hen : enabled .txDone (σ n) = true) : (σ (n + 1)).transmitter = (σ n).transmitter.finish := by
  obtain ⟨l, d, hrun⟩ := h n
  rw [he, runEvent, if_pos ((enabled_withDraws _ _ l d).trans hen)] at hrun
  rw [← Host.Outcome.next.inj hrun]
  rfl

section FairRun

variable {ε : Nat → Event} {σ : Nat → State} {n : Nat}

/-- Where the transmitter stands still until the step `e` is taken and `e` stays enabled, a moment comes with the
effect of `e`. -/
theorem weaklyFair.transmitter_eq {e : Event} {f : Transmitter → Transmitter} (hfair : weaklyFair e ε σ)
    (hen : ∀ m, n ≤ m → (σ m).transmitter = (σ n).transmitter → enabled e (σ m) = true)
    (hkeep : ∀ m, n ≤ m → (σ m).transmitter = (σ n).transmitter → ε m ≠ e →
      (σ (m + 1)).transmitter = (σ m).transmitter)
    (htake : ∀ m, ε m = e → enabled e (σ m) = true → (σ (m + 1)).transmitter = f (σ m).transmitter) :
    ∃ m, n ≤ m ∧ (σ m).transmitter = f (σ n).transmitter := by
  obtain ⟨m, hm, hu, he⟩ := hfair.taken (P := fun m => (σ m).transmitter = (σ n).transmitter) rfl hen
    fun m hm hu hne => (hkeep m hm hu hne).trans hu
  exact ⟨m + 1, Nat.le_succ_of_le hm, hu ▸ htake m he (hen m hm hu)⟩

/-- A byte that waits while the shifter is idle is loaded. -/
theorem fairRun.loads (hf : fairRun ε σ) (hen : ∀ m, n ≤ m → (σ m).txen = true) (hfull : (σ n).hwDre = false)
    (hidle : (σ n).hwShiftBusy = false) : ∃ m, n ≤ m ∧ (σ m).transmitter = (σ n).transmitter.load := by
  obtain ⟨hrun, hload, -⟩ := hf
  refine hload.transmitter_eq (fun m hm hu => ?_) (fun m hm hu hne => ?_) fun m => isRun_load hrun
  · exact (enabled_txLoad_iff _).mpr
      ⟨hen m hm, (congrArg Transmitter.dre hu).trans hfull, (congrArg Transmitter.busy hu).trans hidle⟩
  · exact (isRun_transmitMove hrun m).keep_of_not_load ((congrArg Transmitter.dre hu).trans hfull)
      ((congrArg Transmitter.busy hu).trans hidle) hne

/-- A busy shifter finishes, where no byte is handed over to an empty data register meanwhile. -/
theorem fairRun.finishes (hf : fairRun ε σ) (hen : ∀ m, n ≤ m → (σ m).txen = true) (hbusy : (σ n).hwShiftBusy = true)
    (hno : (σ n).hwDre = true → ∀ m, n ≤ m → (σ m).hwDre = true → (σ (m + 1)).hwDre = true) :
    ∃ m, n ≤ m ∧ (σ m).transmitter = (σ n).transmitter.finish := by
  obtain ⟨hrun, -, hdone⟩ := hf
  refine hdone.transmitter_eq (fun m hm hu => ?_) (fun m hm hu hne => ?_) fun m => isRun_finish hrun
  · exact (enabled_txDone_iff _).mpr ⟨hen m hm, (congrArg Transmitter.busy hu).trans hbusy⟩
  · exact (isRun_transmitMove hrun m).keep_of_not_finish ((congrArg Transmitter.busy hu).trans hbusy)
      (fun hready => hno ((congrArg Transmitter.dre hu).symm.trans hready) m hm hready) hne

/-- The shifting byte leaves, whatever is handed over meanwhile. -/
theorem fairRun.sendsShifting (hf : fairRun ε σ) (hen : ∀ m, n ≤ m → (σ m).txen = true)
    (hbusy : (σ n).hwShiftBusy = true) : ∃ m, n ≤ m ∧ (σ m).txLine = (σ n).txLine ++ [(σ n).hwShift] := by
  obtain ⟨hrun, -, hdone⟩ := hf
  have enabled_of (m : Nat) (hm : n ≤ m) (hb : (σ m).hwShiftBusy = true) : enabled .txDone (σ m) = true :=
    (enabled_txDone_iff _).mpr ⟨hen m hm, hb⟩
  obtain ⟨m, hm, ⟨hb, hshift, hline⟩, he⟩ := hdone.taken
    (P := fun m => (σ n).transmitter.stillShifting (σ m).transmitter) ⟨hbusy, rfl, rfl⟩
    (fun m hm hs => enabled_of m hm hs.1)
    fun m hm hs hne => (isRun_transmitMove hrun m).stillShifting_of_not_finish hs hne
  have hfinish := congrArg Transmitter.line (isRun_finish hrun he (enabled_of m hm hb))
  exact ⟨m + 1, Nat.le_succ_of_le hm, hfinish.trans (congrArg₂ (· ++ [·]) hline hshift)⟩

/-- A byte that waits gets into the shift register, with what was shifting before it on the line; the data register is
then ready. -/
theorem fairRun.loadsWaiting (hf : fairRun ε σ) (hen : ∀ m, n ≤ m → (σ m).txen = true) (hfull : (σ n).hwDre = false) :
    ∃ m, n ≤ m ∧ (σ m).hwDre = true ∧ (σ m).hwShiftBusy = true ∧ (σ m).hwShift = (σ n).hwTxdata ∧
      (σ m).txLine = (σ n).txLine ++ shifting (σ n) := by
  cases hbusy : (σ n).hwShiftBusy with
  | false =>
    obtain ⟨m, hm, hu⟩ := hf.loads hen hfull hbusy
    refine ⟨m, hm, congrArg Transmitter.dre hu, congrArg Transmitter.busy hu, congrArg Transmitter.shift hu, ?_⟩
    simpa [shifting, hbusy] using congrArg Transmitter.line hu
  | true =>
    obtain ⟨k, hk, hu⟩ := hf.finishes hen hbusy (by simp [hfull])
    have hidle : (σ k).hwShiftBusy = false := congrArg Transmitter.busy hu
    have hfull' : (σ k).hwDre = false := (congrArg Transmitter.dre hu).trans hfull
    obtain ⟨m, hm, hv⟩ := hf.loads (fun i hi => hen i (hk.trans hi)) hfull' hidle
    rw [hu] at hv
    refine ⟨m, hk.trans hm, congrArg Transmitter.dre hv, congrArg Transmitter.busy hv, congrArg Transmitter.shift hv, ?_⟩
    simpa [shifting, hbusy] using congrArg Transmitter.line hv

/-! ### What fairness gives -/

theorem fairRun.becomesReady (hf : fairRun ε σ) (hen : ∀ m, n ≤ m → (σ m).txen = true) :
    ∃ m, n ≤ m ∧ (σ m).hwDre = true := by
  cases hdre : (σ n).hwDre with
  | true => exact ⟨n, le_rfl, hdre⟩
  | false =>
    obtain ⟨m, hm, hready, -⟩ := hf.loadsWaiting hen hdre
    exact ⟨m, hm, hready⟩

theorem fairRun.sends (hf : fairRun ε σ) (hen : ∀ m, n ≤ m → (σ m).txen = true) :
    ∃ m, n ≤ m ∧ (σ m).txLine = (σ n).txLine ++ shifting (σ n) ++ waiting (σ n) := by
  cases hdre : (σ n).hwDre with
  | false =>
    obtain ⟨k, hk, -, hbusy, hshift, hline⟩ := hf.loadsWaiting hen hdre
    obtain ⟨m, hm, hsent⟩ := hf.sendsShifting (fun i hi => hen i (hk.trans hi)) hbusy
    exact ⟨m, hk.trans hm, by simp [hsent, hline, hshift, waiting, hdre]⟩
  | true =>
    cases hbusy : (σ n).hwShiftBusy with
    | false => exact ⟨n, le_rfl, by simp [shifting, waiting, hbusy, hdre]⟩
    | true =>
      obtain ⟨m, hm, hsent⟩ := hf.sendsShifting hen hbusy
      exact ⟨m, hm, by simp [hsent, shifting, waiting, hbusy, hdre]⟩

/-- The last byte reports completion when it leaves: the data register has stayed empty. -/
theorem fairRun.reportsLast (hf : fairRun ε σ) (hen : ∀ m, n ≤ m → (σ m).txen = true) (hready : (σ n).hwDre = true)
    (hbusy : (σ n).hwShiftBusy = true) (hno : ∀ m, n ≤ m → (σ m).hwDre = true → (σ (m + 1)).hwDre = true) :
    ∃ m, n ≤ m ∧ (σ m).hwTxc = true ∧ (σ m).hwDre = true ∧ (σ m).hwShiftBusy = false := by
  obtain ⟨m, hm, hu⟩ := hf.finishes hen hbusy fun _ => hno
  refine ⟨m, hm, ?_, (congrArg Transmitter.dre hu).trans hready, congrArg Transmitter.busy hu⟩
  exact (congrArg Transmitter.txc hu).trans (if_pos hready)

theorem fairRun.reports (hf : fairRun ε σ) (hen : ∀ m, n ≤ m → (σ m).txen = true)
    (hholds : (σ n).hwDre = false ∨ (σ n).hwShiftBusy = true)
    (hno : ∀ m, n ≤ m → (σ m).hwDre = true → (σ (m + 1)).hwDre = true) :
    ∃ m, n ≤ m ∧ (σ m).hwTxc = true ∧ (σ m).hwDre = true ∧ (σ m).hwShiftBusy = false := by
  cases hdre : (σ n).hwDre with
  | true => exact hf.reportsLast hen hdre (hholds.resolve_left (by simp [hdre])) hno
  | false =>
    obtain ⟨k, hk, hready, hbusy, -⟩ := hf.loadsWaiting hen hdre
    obtain ⟨m, hm, hreport⟩ :=
      hf.reportsLast (fun i hi => hen i (hk.trans hi)) hready hbusy fun i hi => hno i (hk.trans hi)
    exact ⟨m, hk.trans hm, hreport⟩

end FairRun

/-- Settles O36: a waiting byte is loaded once the shifter is idle, a busy shifter finishes, and the last byte reports
completion. -/
theorem fairTransmitterSendsAndReports : Obligations.FairTransmitterSendsAndReports := by
  intro ε σ n hf hen
  exact ⟨hf.becomesReady hen, hf.sends hen, hf.reports hen⟩

end Sys2Proof.Machine
end

section
/-! PROOFS. The interrupt handlers commute and leave the foreground alone (60_exceptions.md R278 to R280,
44_interrupt_handlers.md R220). -/

namespace Sys2Proof.Machine

open Sys2Proof

/-! ### The order of the two handlers -/

/-- What the receive handler leaves, room or not (44_interrupt_handlers.md R221, R222). -/
def received (s : State) : State :=
  { s with
    hwRxc := false
    rx := if (s.rx.head + 1) % s.cfg.nRx = s.rx.tail then s.rx else pushed s.cfg.nRx s.hwRxdata s.rx }

theorem rxHandler_of_inRange {s : State} (hhead : s.rx.head < s.cfg.nRx) : rxHandler s = .done (received s) := by
  by_cases hfull : (s.rx.head + 1) % s.cfg.nRx = s.rx.tail
  · rw [rxHandler_of_full hfull, received, if_pos hfull, State.hwReadRx]
  · rw [rxHandler_of_room hhead hfull, received, if_neg hfull, State.hwReadRx, State.setRx]

theorem execTxHandler_of_oldest {s : State} {c : Byte} (htakeable : s.txTakeable = true)
    (hc : oldest s.cfg.nTx s.tx c) : execTxHandler s = .next (drained c s) := by
  rw [execTxHandler_of_takeable htakeable, txDrainOne_of_oldest hc, Effect.andThen, interruptReturn_eq, commit]

/-- The handlers write disjoint registers, and neither reads what the other writes. -/
theorem received_drained (c : Byte) (s : State) : received (drained c s) = drained c (received s) := rfl

/-- A buffer in order that is not empty has an oldest byte. -/
theorem exists_oldest {n : Nat} {r : Ring} (hr : ringWf n r) (hbyte : r.head ≠ r.tail) : ∃ c, oldest n r c := by
  obtain ⟨-, hhead, htail, hslots⟩ := hr
  have hpos : 0 < ringOccupied n r := Nat.pos_of_ne_zero (mt (head_eq_tail_iff hhead htail).mpr hbyte)
  obtain ⟨c, hc⟩ := Option.isSome_iff_exists.mp (hslots 0 hpos)
  rw [Nat.add_zero, Nat.mod_eq_of_lt htail] at hc
  exact ⟨c, hbyte, htail, hc⟩

/-- While the transmit interrupt is armed there is a byte to send (70_reset_and_hazards.md R331). -/
theorem Invariant.exists_oldest_of_armed {s : State} (h : Invariant s) (harmed : s.txeIe = true) :
    ∃ c, oldest s.cfg.nTx s.tx c := by
  have hempty : s.tx.isEmpty = false := by simpa [harmed] using h.armed
  exact exists_oldest h.txWf fun heq => by simp [(Ring.isEmpty_iff s.tx).mpr heq] at hempty

/-- Settles O31: either order finds its second handler still enabled, with the operands it had, and the two effects
commute. -/
theorem handlersCommute : Obligations.HandlersCommute := by
  intro s hinv hrx htx
  obtain ⟨-, harmed, -, -⟩ := (txTakeable_iff s).mp htx
  obtain ⟨c, hc⟩ := hinv.exists_oldest_of_armed harmed
  obtain ⟨-, hhead, -, -⟩ := hinv.rxWf
  refine ⟨received s, drained c (received s), drained c s, ?_, ?_, ?_, ?_⟩
  · exact execRxHandler_of_done hrx (rxHandler_of_inRange hhead)
  · exact execTxHandler_of_oldest (s := received s) htx hc
  · exact execTxHandler_of_oldest htx hc
  · rw [← received_drained]
    exact execRxHandler_of_done (s := drained c s) hrx (rxHandler_of_inRange (s := drained c s) hhead)

/-! ### The foreground under an interrupt -/

/-- Settles O32, by the next states of each handler. -/
theorem interruptLeavesTheForeground : Obligations.InterruptLeavesTheForeground := by
  intro s t h he
  rw [step] at h
  obtain he | he := he <;> rw [he] at h
  · rw [runEvent_intRx] at h
    obtain rfl | rfl | rfl := execRxHandler_next h <;> simp
  · rw [runEvent_intTx] at h
    obtain rfl | ⟨c, rfl⟩ | rfl := execTxHandler_next h <;> simp [drained]

end Sys2Proof.Machine
end

section
/-! PROOFS. The global interrupt enable: its one writer, and that neither the foreground nor a command reads it
(60_exceptions.md R276, 10_state.md R49, 70_reset_and_hazards.md R321). -/

namespace Sys2Proof.Machine

open Sys2Proof

/-! ### Its writer -/

theorem enabled_setGie_iff (v : Bool) (s : State) : enabled (.setGie v) s = true ↔ s.fgPc = .idle := beq_iff_eq

/-- `gie` after a step: as before, or set by `HOST.SET_GIE` over an idle foreground (10_state.md R49). -/
theorem Move.gie_cases {e : Event} {s t : State} (h : Move e s t) :
    t.gie = s.gie ∨ (s.fgPc = .idle ∧ e = .setGie t.gie) := by
  cases h with
  | setGie hp => exact .inr ⟨hp, rfl⟩
  | pollDrain | pollPhaseDrain | transmitDrain => simp [drained]
  | beginConfigure => exact .inl rfl
  | endRespond | endGoOn => simp [shutDown]
  | _ => simp

/-- Settles O41, by the enabling condition of `HOST.SET_GIE`, and by the writers of the parameters (none) and of
`gie`. -/
theorem setGieSetsGieAndNothingElseDoes : Obligations.SetGieSetsGieAndNothingElseDoes := by
  refine ⟨fun s v => runEvent_of_perform (enabled_setGie_iff v s) rfl, fun s t h => ?_⟩
  have hcfg := (step_move h).cfg_eq
  have hgie := (step_move h).gie_cases
  simp only [takeDraw_cfg, takeDraw_gie, takeDraw_fgPc] at hcfg hgie
  exact ⟨hcfg, hgie.resolve_left⟩

/-! ### Effects that do not read it -/

/-- An effect that neither reads nor writes `gie`: it does the same whatever `gie` is, and leaves it. -/
def GieBlind (f : State → Effect) : Prop :=
  ∀ (v : Bool) (s : State), f (hostSetGie v s) = (f s).andThen (hostSetGie v)

/-- A change after a blind effect is blind when it leaves `gie`. -/
theorem GieBlind.andThen {f : State → Effect} {g : State → State} (hf : GieBlind f)
    (hg : ∀ v s, g (hostSetGie v s) = hostSetGie v (g s)) : GieBlind fun s => (f s).andThen g := by
  intro v s
  simp only [hf v s]
  cases f s with
  | done u => exact congrArg Effect.done (hg v u)
  | raise c | stop x => rfl

theorem feedHardware_hostSetGie (c : Byte) (v : Bool) (s : State) :
    feedHardware c (hostSetGie v s) = hostSetGie v (feedHardware c s) := by
  rw [feedHardware, feedHardware, apply_ite (hostSetGie v)]
  rfl

theorem gieBlind_txDrainOne : GieBlind txDrainOne := by
  intro v s
  unfold txDrainOne
  rw [hostSetGie_cfg, hostSetGie_tx]
  split
  · rfl
  · next r c _ => exact congrArg Effect.done (feedHardware_hostSetGie c v (s.setTx r))
  · rfl

/-- `PollOnce` "does not read `gie`" (42_write_flush_poll.md R167): it tests `TxReq`, not what `INT.TX` tests. -/
theorem gieBlind_pollOnce : GieBlind pollOnce := by
  intro v s
  have hreq : (hostSetGie v s).txReq = s.txReq := rfl
  rw [pollOnce, pollOnce, hreq]
  split
  · exact gieBlind_txDrainOne v s
  · rfl

theorem gieBlind_peekBody : GieBlind peekBody := by
  intro v s
  unfold peekBody
  rw [hostSetGie_cfg, hostSetGie_rx]
  split <;> rfl

theorem gieBlind_readBody : GieBlind readBody := by
  intro v s
  unfold readBody
  rw [hostSetGie_cfg, hostSetGie_rx]
  split <;> rfl

theorem gieBlind_fgWrTry : GieBlind fgWrTry := by
  intro v s
  unfold fgWrTry
  rw [hostSetGie_txeIe, hostSetGie_hwDre, hostSetGie_cfg, hostSetGie_tx, hostSetGie_fgData]
  split
  · rfl
  · split <;> rfl

theorem gieBlind_fgWrRoom : GieBlind fgWrRoom := by
  intro v s
  rw [fgWrRoom, fgWrRoom, hostSetGie_tx, hostSetGie_cfg]
  split <;> rfl

theorem gieBlind_flushReturn : GieBlind flushReturn := by
  intro v s
  unfold flushReturn
  rw [hostSetGie_fgOp]
  split <;> rfl

theorem gieBlind_fgFlGate : GieBlind fgFlGate := by
  intro v s
  rw [fgFlGate, fgFlGate, hostSetGie_everWritten]
  split
  · rfl
  · exact gieBlind_flushReturn v s

theorem gieBlind_fgFlTest : GieBlind fgFlTest := by
  intro v s
  rw [fgFlTest, fgFlTest, hostSetGie_txeIe, hostSetGie_hwTxc]
  split
  · rfl
  · exact gieBlind_flushReturn v s

theorem gieBlind_fgEndOff : GieBlind fgEndOff := by
  intro v s
  rw [fgEndOff, fgEndOff, hostSetGie_fgOp]
  split <;> rfl

theorem gieBlind_fgBgGate : GieBlind fgBgGate := by
  intro v s
  rw [fgBgGate, fgBgGate, hostSetGie_configured]
  split <;> rfl

theorem gieBlind_fgBgCfg : GieBlind fgBgCfg := by
  intro v s
  unfold fgBgCfg
  rw [hostSetGie_fgBaud]
  split <;> rfl

/-- No foreground step reads or writes `gie`, whatever its phase (10_state.md R32). -/
theorem gieBlind_fgPhase : GieBlind fgPhase := by
  intro v s
  simp only [fgPhase, hostSetGie_fgPc]
  cases s.fgPc with
  | idle => rfl
  | wrTry => exact gieBlind_fgWrTry v s
  | wrPoll | flPoll => exact gieBlind_pollOnce.andThen (fun _ _ => rfl) v s
  | wrRoom => exact gieBlind_fgWrRoom v s
  | flGate => exact gieBlind_fgFlGate v s
  | flTest => exact gieBlind_fgFlTest v s
  | endOff => exact gieBlind_fgEndOff v s
  | bgGate => exact gieBlind_fgBgGate v s
  | bgCfg => exact gieBlind_fgBgCfg v s

/-- Nor does any command in the step that accepts it (30_encoding.md R91). -/
theorem gieBlind_firstStep (op : BitVec 4) : GieBlind (firstStep op) := by
  unfold firstStep
  split
  case h_7 => exact gieBlind_peekBody
  case h_8 => exact gieBlind_readBody
  case h_9 => exact gieBlind_pollOnce.andThen fun _ _ => rfl
  all_goals exact fun _ _ => rfl

/-! ### Noninterference -/

/-- The second state is the first but for `gie`, which is `v`. -/
def sameWithGie (v : Bool) (s t : State) : Prop := t = hostSetGie v s

/-- A blind effect answers alike for both values of `gie`. -/
theorem GieBlind.answersAgree {f : State → Effect} (hf : GieBlind f) (v : Bool) (s : State) :
    answersAgree (sameWithGie v) (commit s (f s)) (commit (hostSetGie v s) (f (hostSetGie v s))) := by
  rw [hf v s]
  cases f s with
  | done u | raise c | stop x => exact rfl

theorem answersAgree_fgStep_hostSetGie (v : Bool) (s : State) :
    answersAgree (sameWithGie v) (fgStep s) (fgStep (hostSetGie v s)) := by
  have henabled : (hostSetGie v s).fgEnabled = s.fgEnabled := rfl
  rw [fgStep, fgStep, henabled]
  split
  · exact gieBlind_fgPhase.answersAgree v s
  · exact rfl

theorem answersAgree_issueWord_hostSetGie (w : CmdWord) (v : Bool) {s : State} (hi : s.canIssue = true) :
    answersAgree (sameWithGie v) (issueWord w s) (issueWord w (hostSetGie v s)) := by
  cases hw : decodeCmd w with
  | error x =>
    rw [issueWord_of_error s hw, issueWord_of_error _ hw]
    exact rfl
  | ok i =>
    have hop := (decodeCmd_ok hw).2
    rw [issueWord_of_ok s hw, issueWord_of_ok _ hw, exec_of_canIssue hi hop,
      exec_of_canIssue (s := hostSetGie v s) hi hop]
    have hblind : GieBlind fun u => firstStep (fieldOp w) (u.latch (fieldOp w) (fieldOperands w)) :=
      fun v u => gieBlind_firstStep (fieldOp w) v (u.latch (fieldOp w) (fieldOperands w))
    exact hblind.answersAgree v s

theorem answersAgree_issue_hostSetGie (w : CmdWord) (v : Bool) (s : State) :
    answersAgree (sameWithGie v) (runEvent (.issue w) s) (runEvent (.issue w) (hostSetGie v s)) := by
  have henabled : enabled (.issue w) (hostSetGie v s) = enabled (.issue w) s := rfl
  rw [runEvent, runEvent, henabled]
  split
  · exact answersAgree_issueWord_hostSetGie w v ‹_›
  · exact rfl

/-- Settles O46: neither the phase that is due nor the first step of a command reads or writes `gie`, and no enabling
condition of theirs does. -/
theorem foregroundIgnoresGie : Obligations.ForegroundIgnoresGie := by
  intro s v e he
  obtain rfl | ⟨w, rfl⟩ := he
  · rw [runEvent_fg, runEvent_fg]
    exact answersAgree_fgStep_hostSetGie v s
  · exact answersAgree_issue_hostSetGie w v s

end Sys2Proof.Machine
end

section
/-! PROOFS. `Move` says exactly what a step does: each of its cases is what the step answers, so the next state is the
only one (00_scope.md R11). -/

namespace Sys2Proof.Machine

open Sys2Proof

/-- Taking a draw changes the model's own fields alone. -/
theorem takeDraw_eq (s : State) : ∃ l d, takeDraw s = { s with schedule := l, draws := d } := by
  unfold takeDraw
  split
  · exact ⟨s.schedule, s.draws + 1, rfl⟩
  · exact ⟨_, s.draws, rfl⟩

theorem runEvent_accept {w : CmdWord} {i : Instr} {s : State} (hi : s.canIssue = true) (hw : decodeCmd w = .ok i) :
    runEvent (.issue w) s = exec i s :=
  (runEvent_issue w hi).trans (issueWord_of_ok s hw)

/-- A command with the body `f`, accepted: its effect on the latched state is committed. -/
theorem hostIssue_of_body {op : BitVec 4} {o : Operands} {f : State → Effect} {s : State} {x : Effect}
    (hi : s.canIssue = true) (hx : f (s.latch op o) = x) : hostIssue op o f s = commit s x :=
  hx ▸ hostIssue_of_canIssue op o f hi

theorem runEvent_fg_of_phase {s : State} {x : Effect} (hf : s.fgEnabled = true) (hx : fgPhase s = x) :
    runEvent .fg s = commit s x :=
  hx ▸ (runEvent_fg s).trans (if_pos hf)

theorem pollOnce_of_quiet {s : State} (h : s.txReq = false) : pollOnce s = .done s := by simp [pollOnce, h]

theorem pollOnce_of_drains {s : State} {c : Byte} (h : drains c s) : pollOnce s = .done (drained c s) := by
  obtain ⟨hreq, hc⟩ := h
  exact (if_pos hreq).trans (txDrainOne_of_oldest hc)

theorem pollOnce_of_underflows {s : State} (h : underflows s) : pollOnce s = .raise .txUnderflow := by
  obtain ⟨hreq, hempty⟩ := h
  exact (if_pos hreq).trans (txDrainOne_of_empty hempty)

/-- A phase that polls commits what its poll answers, with the phase after it (42_write_flush_poll.md R164, R172). -/
theorem runEvent_pollPhase {s : State} {p : Phase} {x : Effect} (hf : s.fgEnabled = true) (hp : PollPhase s.fgPc p)
    (hx : pollOnce s = x) : runEvent .fg s = commit s (x.andThen (State.goto p)) :=
  runEvent_fg_of_phase hf ((fgPhase_of_pollPhase hp).trans (congrArg _ hx))

theorem pollBody_of_poll {s : State} {x : Effect} (hx : pollOnce s = x) : pollBody s = x.andThen (State.respond 0) :=
  hx ▸ rfl

/-- Where the flush steps end the phase does `FlushReturn` (42_write_flush_poll.md R170, R171). -/
theorem FlushEnds.fgPhase_eq {s : State} (h : FlushEnds s) : fgPhase s = flushReturn s := by
  cases h with
  | gate hp hw => exact (fgPhase_of_flGate hp).trans (fgFlGate_of_unwritten hw)
  | test hp ht hc => rw [fgPhase_of_flTest hp, fgFlTest_eq, if_neg (by simp [ht, hc])]

/-- Each case of `Move` is what the step answers: the converse of `runEvent_move`. -/
theorem Move.runEvent_eq {e : Event} {s t : State} (h : Move e s t) : runEvent e s = .next t := by
  cases h with
  | skip h => exact runEvent_of_not_enabled h
  | refuse hi hw => exact (runEvent_issue _ hi).trans (issueWord_of_error s hw)
  | available hi hw | availableForWrite hi hw => exact (runEvent_accept hi hw).trans (hostIssue_of_canIssue _ _ _ hi)
  | @peekNone _ o _ hi hw he =>
    exact (runEvent_accept hi hw).trans (hostIssue_of_body hi (peekBody_of_empty (s := s.latch 7 o) he))
  | @peekSome _ o _ c hi hw ho =>
    exact (runEvent_accept hi hw).trans (hostIssue_of_body hi (peekBody_of_oldest (s := s.latch 7 o) ho))
  | @readNone _ o _ hi hw he =>
    exact (runEvent_accept hi hw).trans (hostIssue_of_body hi (readBody_of_empty (s := s.latch 8 o) he))
  | @readSome _ o _ c hi hw ho =>
    exact (runEvent_accept hi hw).trans (hostIssue_of_body hi (readBody_of_oldest (s := s.latch 8 o) ho))
  | @pollIdle _ o _ hi hw hq =>
    exact (runEvent_accept hi hw).trans
      (hostIssue_of_body hi (pollBody_of_poll (pollOnce_of_quiet (s := s.latch 9 o) hq)))
  | @pollDrain _ o _ c hi hw hd =>
    exact (runEvent_accept hi hw).trans
      (hostIssue_of_body hi (pollBody_of_poll (pollOnce_of_drains (s := s.latch 9 o) hd)))
  | @pollUnderflow _ o _ hi hw hd =>
    exact (runEvent_accept hi hw).trans
      (hostIssue_of_body hi (pollBody_of_poll (pollOnce_of_underflows (s := s.latch 9 o) hd)))
  | acceptBegin hi hw | acceptEnd hi hw | acceptWrite hi hw | acceptFlush hi hw =>
    exact (runEvent_accept hi hw).trans (multiStep_of_canIssue _ _ _ hi)
  | setGie hp => exact runEvent_of_enabled ((enabled_setGie_iff _ s).mpr hp)
  | writeFast hf hp ht hd => exact runEvent_fg_of_phase hf ((fgPhase_of_wrTry hp).trans (fgWrTry_of_ready ht hd))
  | writeSlow hf hp hs hn hl =>
    exact runEvent_fg_of_phase hf ((fgPhase_of_wrTry hp).trans (fgWrTry_of_room hs hn hl))
  | writeFull hf hp hs hn => exact runEvent_fg_of_phase hf ((fgPhase_of_wrTry hp).trans (fgWrTry_of_full hs hn))
  | writeRoom hf hp =>
    rw [runEvent_fg_of_phase hf (fgPhase_of_wrRoom hp), fgWrRoom, apply_ite (State.goto · s)]
    rfl
  | pollPhaseIdle hf hp hq => exact runEvent_pollPhase hf hp (pollOnce_of_quiet hq)
  | pollPhaseDrain hf hp hd => exact runEvent_pollPhase hf hp (pollOnce_of_drains hd)
  | pollPhaseUnderflow hf hp hd => exact runEvent_pollPhase hf hp (pollOnce_of_underflows hd)
  | flushGo hf hp hw => exact runEvent_fg_of_phase hf ((fgPhase_of_flGate hp).trans (fgFlGate_of_written hw))
  | flushWait hf hp hw =>
    exact runEvent_fg_of_phase hf ((fgPhase_of_flTest hp).trans ((fgFlTest_eq s).trans (if_pos hw)))
  | flushRespond hf he ho => exact runEvent_fg_of_phase hf (he.fgPhase_eq.trans (flushReturn_flush ho))
  | flushClose hf he ho => exact runEvent_fg_of_phase hf (he.fgPhase_eq.trans (flushReturn_of_close ho))
  | endRespond hf hp ho => exact runEvent_fg_of_phase hf ((fgPhase_of_endOff hp).trans (fgEndOff_of_end ho))
  | endGoOn hf hp ho =>
    exact runEvent_fg_of_phase hf ((fgPhase_of_endOff hp).trans (congrArg Effect.done (if_neg ho)))
  | beginGate hf hp => exact runEvent_fg_of_phase hf ((fgPhase_of_bgGate hp).trans (fgBgGate_eq s))
  | beginConfigure hf hp hb => exact runEvent_fg_of_phase hf ((fgPhase_of_bgCfg hp).trans (fgBgCfg_of_ne hb))
  | beginZero hf hp hb => exact runEvent_fg_of_phase hf ((fgPhase_of_bgCfg hp).trans (fgBgCfg_of_eq_zero hb))
  | receiveStore ht hn hl => exact (runEvent_intRx s).trans (execRxHandler_of_done ht (rxHandler_of_room hl hn))
  | receiveDrop ht hn => exact (runEvent_intRx s).trans (execRxHandler_of_done ht (rxHandler_of_full hn))
  | transmitDrain ht ho => exact (runEvent_intTx s).trans (execTxHandler_of_oldest ht ho)
  | transmitUnderflow ht he =>
    refine (runEvent_intTx s).trans ((execTxHandler_of_takeable ht).trans ?_)
    rw [txDrainOne_of_empty he]
    rfl
  | txLoad h | txDone h | rxArrive h | rxFlush h => exact runEvent_of_enabled h

/-- A step has one outcome. -/
theorem Move.unique {e : Event} {s t u : State} (ht : Move e s t) (hu : Move e s u) : t = u :=
  Host.Outcome.next.inj (ht.runEvent_eq.symm.trans hu.runEvent_eq)

end Sys2Proof.Machine
end

section
/-! PROOFS. Every step keeps the invariant, clause by clause, and where it holds no step stops
(70_reset_and_hazards.md R330 to R333). -/

namespace Sys2Proof.Machine

open Sys2Proof

/-! ### The model's own fields -/

/-- No clause of the invariant reads the model's own fields. -/
theorem Invariant.withDraws {s : State} (h : Invariant s) (l : List Event) (d : Nat) :
    Invariant { s with schedule := l, draws := d } :=
  ⟨h.rxWf, h.txWf, h.armed, h.unwritten, h.complete, h.reported, h.phase, h.flushing, h.closing, h.setup, h.enables,
    h.noUnderflow⟩

theorem Invariant.takeDraw {s : State} (h : Invariant s) : Invariant (takeDraw s) := by
  obtain ⟨l, d, hd⟩ := takeDraw_eq s
  exact hd ▸ h.withDraws l d

/-! ### The ring buffers (R330, R333) -/

theorem ringWf_discard {n : Nat} {r : Ring} (hr : ringWf n r) : ringWf n { r with tail := r.head } := by
  obtain ⟨hmem, hhead, -, -⟩ := hr
  have hnone : ringOccupied n { r with tail := r.head } = 0 := (head_eq_tail_iff (r := ⟨r.mem, r.head, r.head⟩) hhead hhead).mp rfl
  exact ⟨hmem, hhead, hhead, fun k hk => absurd hk (by simp [hnone])⟩

theorem RingMove.ringWf {n : Nat} {r q : Ring} (h : RingMove n r q) (hr : ringWf n r) : ringWf n q := by
  cases h with
  | keep => exact hr
  | push b hroom => exact ringWf_pushed b hr hroom
  | pop hbyte => exact ringWf_popped hr hbyte
  | discard => exact ringWf_discard hr

/-! ### Arming (R331) -/

theorem txeIe_of_txReq {s : State} (h : s.txReq = true) : s.txeIe = true := by
  obtain ⟨harmed, -⟩ := (txReq_iff s).mp h
  exact harmed

theorem txReq_of_txTakeable {s : State} (h : s.txTakeable = true) : s.txReq = true := by
  obtain ⟨-, harmed, hready, -⟩ := (txTakeable_iff s).mp h
  exact (txReq_iff s).mpr ⟨harmed, hready⟩

/-- A drain disarms exactly where it empties the buffer (44_interrupt_handlers.md R224). -/
theorem drained_armed (c : Byte) {s : State} (h : s.txReq = true) :
    (drained c s).txeIe = !(drained c s).tx.isEmpty := by
  rw [drained_of_armed c (txeIe_of_txReq h)]
  rfl

theorem Move.armed {e : Event} {s t : State} (h : Move e s t) (hinv : Invariant s) : t.txeIe = !t.tx.isEmpty := by
  cases h with
  | writeSlow hf hp hs hn => simp [Ring.isEmpty, hn]
  | transmitDrain ht => exact drained_armed _ (txReq_of_txTakeable ht)
  | @pollPhaseDrain _ _ c hf hp hd => exact drained_armed c hd.1
  | @pollDrain _ o _ c hi hw hd => exact drained_armed c (s := s.latch 9 o) hd.1
  | endRespond hf hp | endGoOn hf hp =>
    obtain ⟨hempty, -⟩ := hinv.closing hp
    simp [hempty]
  | _ => simpa using hinv.armed

/-! ### The transmit path before a byte is written, and where a flush ends (R332, R335) -/

theorem not_txReq_of_transmitIdle {s : State} (h : transmitIdle s) : s.txReq ≠ true := by
  obtain ⟨-, hdisarmed, -⟩ := h
  simp [State.txReq, hdisarmed]

/-- From an idle transmit path the only step that puts a byte into it is the fast path of `WRITE`. -/
theorem Move.of_transmitIdle {e : Event} {s t : State} (h : Move e s t) (hidle : transmitIdle s) :
    (transmitIdle t ∧ (t.everWritten = true → s.everWritten = true)) ∨
    (t.fgPc = .idle ∧ t.everWritten = true ∧ t.hwDre = false ∧ t.hwTxc = false) := by
  have ⟨hempty, hdisarmed, hready, hfree⟩ := hidle
  have hquiet := not_txReq_of_transmitIdle hidle
  cases h with
  | writeFast => exact .inr ⟨rfl, rfl, rfl, rfl⟩
  | writeSlow hf hp hs => exact absurd ⟨hdisarmed, hready⟩ hs
  | transmitDrain ht => exact absurd (txReq_of_txTakeable ht) hquiet
  | pollPhaseDrain hf hp hd | pollDrain hi hw hd => exact absurd hd.1 hquiet
  | txLoad h => simp [enabled, hready] at h
  | txDone h => simp [enabled, hfree] at h
  | endRespond | endGoOn => exact .inl (by simp [transmitIdle, shutDown, hempty, hready, hfree])
  | _ => exact .inl (by simpa [transmitIdle, begun] using hidle)

/-- `everWritten` after a step: set by a `WRITE`, cleared by `END_OFF`, or as before (10_state.md R26). -/
theorem Move.everWritten_cases {e : Event} {s t : State} (h : Move e s t) :
    t.everWritten = s.everWritten ∨ (s.fgPc = .wrTry ∧ t.everWritten = true) ∨
    (s.fgPc = .endOff ∧ t.everWritten = false) := by
  cases h with
  | writeFast hf hp | writeSlow hf hp => exact .inr (.inl ⟨hp, rfl⟩)
  | endRespond hf hp | endGoOn hf hp => exact .inr (.inr ⟨hp, by simp [shutDown]⟩)
  | _ => exact .inl (by simp [drained, begun])

/-- Where nothing has been written after a step, the transmit path was idle before it. -/
theorem Move.unwritten {e : Event} {s t : State} (h : Move e s t) (hinv : Invariant s) (ht : t.everWritten = false) :
    transmitIdle t := by
  have hidle : transmitIdle s := by
    obtain heq | ⟨-, hset⟩ | ⟨hp, -⟩ := h.everWritten_cases
    · exact hinv.unwritten (heq ▸ ht)
    · simp [ht] at hset
    · exact hinv.closing hp
  obtain ⟨hidle', -⟩ | ⟨-, hset, -⟩ := h.of_transmitIdle hidle
  · exact hidle'
  · simp [ht] at hset

/-- Where the flush steps end nothing is in the transmit path (70_reset_and_hazards.md R335). -/
theorem Invariant.transmitIdle_of_flushEnds {s : State} (h : Invariant s) (he : FlushEnds s) : transmitIdle s := by
  cases he with
  | gate hp hw => exact h.unwritten hw
  | test hp ht hc =>
    have hempty : s.tx.isEmpty = true := by simpa [ht] using h.armed
    exact ⟨hempty, ht, h.complete (h.flushing (.inl hp)) hc⟩

/-- The phases after a poll are `WR_ROOM` and `FL_TEST`. -/
theorem PollPhase.next {q p : Phase} (h : PollPhase q p) : p = .wrRoom ∨ p = .flTest := by
  cases h with
  | write => exact .inl rfl
  | flush => exact .inr rfl

theorem Move.closing {e : Event} {s t : State} (h : Move e s t) (hinv : Invariant s) (ht : t.fgPc = .endOff) :
    transmitIdle t := by
  have hidle : transmitIdle s := by
    cases h with
    | flushClose hf he => exact hinv.transmitIdle_of_flushEnds he
    | skip | refuse | pollUnderflow | pollPhaseUnderflow | beginZero | setGie | receiveStore | receiveDrop
    | transmitDrain | transmitUnderflow | txLoad | txDone | rxArrive | rxFlush => exact hinv.closing ht
    | pollPhaseIdle hf hp | pollPhaseDrain hf hp => exact absurd ht (by obtain h | h := hp.next <;> simp [h])
    | writeRoom | beginGate => simp at ht; split at ht <;> cases ht
    | _ => simp at ht
  obtain ⟨hidle', -⟩ | ⟨hpc, -⟩ := h.of_transmitIdle hidle
  · exact hidle'
  · simp [hpc] at ht

/-! ### Completion (R332, second sentence; 45_hardware_interface.md R255 c) -/

/-- Completion is reported exactly while nothing is in the data and the shift register. -/
def reportsExactly (u : Transmitter) : Prop := u.txc = true ↔ u.dre = true ∧ u.busy = false

theorem TransmitMove.reports {e : Event} {txen : Bool} {u v : Transmitter} (h : TransmitMove e txen u v)
    (hu : reportsExactly u) : reportsExactly v := by
  unfold reportsExactly at hu ⊢
  cases h with
  | keep hv => rwa [hv]
  | handOver c _ _ hv => simp [hv]
  | load _ _ hfull _ hv => simpa [hv, hfull] using hu
  | finish _ _ hbusy hv => cases hd : u.dre <;> simp_all

theorem Invariant.reports {s : State} (h : Invariant s) (hw : s.everWritten = true) :
    reportsExactly s.transmitter :=
  ⟨h.complete hw, fun ⟨hready, hfree⟩ => h.reported hw hready hfree⟩

theorem Move.reports {e : Event} {s t : State} (h : Move e s t) (hinv : Invariant s)
    (ht : t.everWritten = true) : reportsExactly t.transmitter := by
  cases hs : s.everWritten with
  | true => exact h.transmitMove.reports (hinv.reports hs)
  | false =>
    obtain ⟨-, hkeep⟩ | ⟨-, -, hfull, hcleared⟩ := h.of_transmitIdle (hinv.unwritten hs)
    · simp [hkeep ht] at hs
    · simp [reportsExactly, hfull, hcleared]

/-! ### The foreground (10_state.md R32, 42_write_flush_poll.md R173, 43_begin_end_baud.md R192, R196) -/

theorem Move.phase {e : Event} {s t : State} (h : Move e s t) (hinv : Invariant s) : phaseFits t = true := by
  have hfits := hinv.phase
  cases h with
  | skip | refuse | pollUnderflow | pollPhaseUnderflow | beginZero | setGie | receiveStore | receiveDrop
  | transmitDrain | transmitUnderflow | txLoad | txDone | rxArrive | rxFlush => exact hfits
  | available | availableForWrite | peekNone | peekSome | readNone | readSome | pollIdle | pollDrain | writeFast
  | writeSlow | flushRespond | endRespond | beginConfigure => rfl
  | acceptBegin | acceptEnd | acceptWrite | acceptFlush => rfl
  | writeFull hf hp | flushGo hf hp | flushWait hf hp => simpa [phaseFits, hp] using hfits
  | writeRoom hf hp => split <;> simpa [phaseFits, hp] using hfits
  | beginGate hf hp =>
    have hop : s.fgOp = 1 := by simpa [phaseFits, hp] using hfits
    split <;> simp [phaseFits, hop]
  | pollPhaseIdle hf hp | pollPhaseDrain hf hp =>
    generalize hq : s.fgPc = q at hp
    cases hp <;> simpa [phaseFits, hq, drained] using hfits
  | flushClose hf he ho => simpa [phaseFits] using ho.symm
  | endGoOn hf hp ho =>
    obtain hop | hop := fgOp_of_endOff hfits hp
    · simp [phaseFits, shutDown, hop]
    · exact absurd hop ho

theorem Move.flushing {e : Event} {s t : State} (h : Move e s t) (hinv : Invariant s)
    (ht : t.fgPc = .flTest ∨ t.fgPc = .flPoll) : t.everWritten = true := by
  cases h with
  | skip | refuse | pollUnderflow | pollPhaseUnderflow | beginZero | setGie | receiveStore | receiveDrop
  | transmitDrain | transmitUnderflow | txLoad | txDone | rxArrive | rxFlush => exact hinv.flushing ht
  | flushGo hf hp hw => exact hw
  | flushWait hf hp => exact hinv.flushing (.inl hp)
  | pollPhaseIdle hf hp | pollPhaseDrain hf hp =>
    generalize hq : s.fgPc = q at hp
    cases hp with
    | write => simp at ht
    | flush => exact hinv.flushing (.inr hq)
  | writeRoom | beginGate => simp at ht; split at ht <;> simp at ht
  | _ => simp at ht

theorem Move.setup {e : Event} {s t : State} (h : Move e s t) (hinv : Invariant s) (ht : t.fgPc = .bgCfg) :
    t.configured = false := by
  cases h with
  | skip | refuse | pollUnderflow | pollPhaseUnderflow | beginZero | setGie | receiveStore | receiveDrop
  | transmitDrain | transmitUnderflow | txLoad | txDone | rxArrive | rxFlush => exact hinv.setup ht
  | endGoOn => simp [shutDown]
  | beginGate hf hp =>
    cases hc : s.configured with
    | false => simpa using hc
    | true => simp [hc] at ht
  | pollPhaseIdle hf hp | pollPhaseDrain hf hp => exact absurd ht (by obtain h | h := hp.next <;> simp [h])
  | writeRoom => simp at ht; split at ht <;> cases ht
  | _ => simp at ht

theorem Move.enables {e : Event} {s t : State} (h : Move e s t) (hinv : Invariant s) :
    t.rxen = t.configured ∧ t.txen = t.configured ∧ t.rxcIe = t.configured := by
  cases h with
  | beginConfigure => exact ⟨rfl, rfl, rfl⟩
  | endRespond | endGoOn => simp [shutDown]
  | _ => simpa [drained] using hinv.enables

theorem Move.noUnderflow {e : Event} {s t : State} (h : Move e s t) (hinv : Invariant s) :
    t.faulted ≠ some .txUnderflow := by
  cases h with
  | pollUnderflow hi hw hd | pollPhaseUnderflow hf hp hd => exact absurd hd hinv.not_underflows
  | transmitUnderflow ht he => exact absurd ⟨txReq_of_txTakeable ht, he⟩ hinv.not_underflows
  | beginZero => simp [raiseFault]
  | _ => simpa [drained, shutDown, begun] using hinv.noUnderflow

/-- Every step keeps the invariant. -/
theorem Move.invariant {e : Event} {s t : State} (h : Move e s t) (hinv : Invariant s) : Invariant t where
  rxWf := h.cfg_eq.symm ▸ h.rx_ringMove.ringWf hinv.rxWf
  txWf := h.cfg_eq.symm ▸ h.tx_ringMove.ringWf hinv.txWf
  armed := h.armed hinv
  unwritten := h.unwritten hinv
  complete hw := (h.reports hinv hw).mp
  reported hw hready hfree := (h.reports hinv hw).mpr ⟨hready, hfree⟩
  phase := h.phase hinv
  flushing := h.flushing hinv
  closing := h.closing hinv
  setup := h.setup hinv
  enables := h.enables hinv
  noUnderflow := h.noUnderflow hinv

/-- Settles O52, clause by clause over the cases of a step. -/
theorem everyStepKeepsTheInvariant : Obligations.EveryStepKeepsTheInvariant :=
  fun _ _ hinv h => (step_move h).invariant hinv.takeDraw

end Sys2Proof.Machine
end

section
/-! PROOFS. Where the invariant holds every step has a next state, so the model never stops
(70_reset_and_hazards.md R330, R333). -/

namespace Sys2Proof.Machine

open Sys2Proof

theorem Invariant.exists_oldest_of_txReq {s : State} (h : Invariant s) (hreq : s.txReq = true) :
    ∃ c, drains c s := by
  obtain ⟨c, hc⟩ := h.exists_oldest_of_armed (txeIe_of_txReq hreq)
  exact ⟨c, hreq, hc⟩

/-- The buffers of an accepted `PEEK`, `READ` or `POLL` are empty or have an oldest byte. -/
theorem Invariant.exists_move_issue {s : State} (h : Invariant s) (w : CmdWord) (hi : s.canIssue = true) :
    ∃ t, Move (.issue w) s t := by
  cases hw : decodeCmd w with
  | error x => exact ⟨_, .refuse hi hw⟩
  | ok i =>
    cases i with
    | beginCmd o => exact ⟨_, .acceptBegin hi hw⟩
    | endCmd o => exact ⟨_, .acceptEnd hi hw⟩
    | write o => exact ⟨_, .acceptWrite hi hw⟩
    | flush o => exact ⟨_, .acceptFlush hi hw⟩
    | available o => exact ⟨_, .available hi hw⟩
    | availableForWrite o => exact ⟨_, .availableForWrite hi hw⟩
    | peek o =>
      by_cases he : s.rx.head = s.rx.tail
      · exact ⟨_, .peekNone hi hw he⟩
      · obtain ⟨c, hc⟩ := exists_oldest h.rxWf he
        exact ⟨_, .peekSome hi hw hc⟩
    | read o =>
      by_cases he : s.rx.head = s.rx.tail
      · exact ⟨_, .readNone hi hw he⟩
      · obtain ⟨c, hc⟩ := exists_oldest h.rxWf he
        exact ⟨_, .readSome hi hw hc⟩
    | poll o =>
      by_cases hq : s.txReq = true
      · obtain ⟨c, hc⟩ := h.exists_oldest_of_txReq hq
        exact ⟨_, .pollDrain hi hw hc⟩
      · exact ⟨_, .pollIdle hi hw (Bool.eq_false_of_not_eq_true hq)⟩
    | rxHandler | txHandler => exact absurd (decodeCmd_ok hw).2 (by unfold commandOf; split <;> simp)

theorem Invariant.exists_move_pollPhase {s : State} {p : Phase} (h : Invariant s) (hf : s.fgEnabled = true)
    (hp : PollPhase s.fgPc p) : ∃ t, Move .fg s t := by
  by_cases hq : s.txReq = true
  · obtain ⟨c, hc⟩ := h.exists_oldest_of_txReq hq
    exact ⟨_, .pollPhaseDrain hf hp hc⟩
  · exact ⟨_, .pollPhaseIdle hf hp (Bool.eq_false_of_not_eq_true hq)⟩

/-- `FL_GATE` goes on where a byte has been written, and ends the flush steps elsewhere (42_write_flush_poll.md R170). -/
theorem flGate_cases {s : State} (hp : s.fgPc = .flGate) : s.everWritten = true ∨ FlushEnds s := by
  cases hw : s.everWritten with
  | true => exact .inl rfl
  | false => exact .inr (.gate hp hw)

/-- `FL_TEST` waits, or ends the flush steps (42_write_flush_poll.md R171). -/
theorem flTest_cases {s : State} (hp : s.fgPc = .flTest) : (s.txeIe = true ∨ s.hwTxc = false) ∨ FlushEnds s := by
  by_cases hw : s.txeIe = true ∨ s.hwTxc = false
  · exact .inl hw
  · simp only [not_or, Bool.not_eq_true, Bool.not_eq_false] at hw
    obtain ⟨hdisarmed, hcomplete⟩ := hw
    exact .inr (.test hp hdisarmed hcomplete)

/-- The flush steps belong to `FLUSH`, `END` and `BEGIN` (42_write_flush_poll.md R173). -/
theorem FlushEnds.fgOp_cases {s : State} (h : FlushEnds s) (hfits : phaseFits s = true) :
    s.fgOp = 1 ∨ s.fgOp = 2 ∨ s.fgOp = 5 := by
  cases h with
  | gate hp | test hp => simpa [phaseFits, hp, or_assoc] using hfits

theorem Invariant.exists_move_flushEnds {s : State} (h : Invariant s) (hf : s.fgEnabled = true) (he : FlushEnds s) :
    ∃ t, Move .fg s t := by
  obtain hop | hop | hop := he.fgOp_cases h.phase
  · exact ⟨_, .flushClose hf he (.inr hop)⟩
  · exact ⟨_, .flushClose hf he (.inl hop)⟩
  · exact ⟨_, .flushRespond hf he hop⟩

theorem Invariant.exists_move_fg {s : State} (h : Invariant s) (hf : s.fgEnabled = true) : ∃ t, Move .fg s t := by
  cases hp : s.fgPc with
  | idle =>
    obtain ⟨hbusy, -⟩ := (fgEnabled_iff s).mp hf
    exact absurd hp hbusy
  | wrTry =>
    obtain ⟨-, hhead, -, -⟩ := h.txWf
    by_cases hfast : s.txeIe = false ∧ s.hwDre = true
    · obtain ⟨ht, hd⟩ := hfast
      exact ⟨_, .writeFast hf hp ht hd⟩
    · by_cases hfull : (s.tx.head + 1) % s.cfg.nTx = s.tx.tail
      · exact ⟨_, .writeFull hf hp hfast hfull⟩
      · exact ⟨_, .writeSlow hf hp hfast hfull hhead⟩
  | wrPoll => exact h.exists_move_pollPhase (p := .wrRoom) hf (hp ▸ .write)
  | wrRoom => exact ⟨_, .writeRoom hf hp⟩
  | flGate =>
    obtain hw | he := flGate_cases hp
    · exact ⟨_, .flushGo hf hp hw⟩
    · exact h.exists_move_flushEnds hf he
  | flTest =>
    obtain hw | he := flTest_cases hp
    · exact ⟨_, .flushWait hf hp hw⟩
    · exact h.exists_move_flushEnds hf he
  | flPoll => exact h.exists_move_pollPhase (p := .flTest) hf (hp ▸ .flush)
  | endOff =>
    by_cases hop : s.fgOp = 2
    · exact ⟨_, .endRespond hf hp hop⟩
    · exact ⟨_, .endGoOn hf hp hop⟩
  | bgGate => exact ⟨_, .beginGate hf hp⟩
  | bgCfg =>
    by_cases hb : s.fgBaud = 0
    · exact ⟨_, .beginZero hf hp hb⟩
    · exact ⟨_, .beginConfigure hf hp hb⟩

theorem Invariant.exists_move_enabled {s : State} {e : Event} (h : Invariant s) (he : enabled e s = true) :
    ∃ t, Move e s t := by
  cases e with
  | issue w => exact h.exists_move_issue w he
  | setGie v => exact ⟨_, .setGie ((enabled_setGie_iff v s).mp he)⟩
  | fg => exact h.exists_move_fg he
  | intRx =>
    obtain ⟨-, hhead, -, -⟩ := h.rxWf
    by_cases hfull : (s.rx.head + 1) % s.cfg.nRx = s.rx.tail
    · exact ⟨_, .receiveDrop he hfull⟩
    · exact ⟨_, .receiveStore he hfull hhead⟩
  | intTx =>
    obtain ⟨c, -, hc⟩ := h.exists_oldest_of_txReq (txReq_of_txTakeable he)
    exact ⟨_, .transmitDrain he hc⟩
  | txLoad => exact ⟨_, .txLoad he⟩
  | txDone => exact ⟨_, .txDone he⟩
  | rxArrive b x => exact ⟨_, .rxArrive he⟩
  | rxFlush => exact ⟨_, .rxFlush he⟩

theorem Invariant.exists_move {s : State} (h : Invariant s) (e : Event) : ∃ t, Move e s t := by
  by_cases he : enabled e s = true
  · exact h.exists_move_enabled he
  · exact ⟨s, .skip (Bool.eq_false_of_not_eq_true he)⟩

theorem Move.step_eq {s t : State} (h : Move (nextEvent s) (takeDraw s) t) : step s = .next t := h.runEvent_eq

/-- Settles O53: the ring operations find a byte or find the buffer empty, and the flush steps a command that has
them. -/
theorem invariantStatesNeverStop : Obligations.InvariantStatesNeverStop := by
  intro s hinv
  obtain ⟨t, ht⟩ := hinv.takeDraw.exists_move (nextEvent s)
  exact ⟨t, ht.step_eq⟩

end Sys2Proof.Machine
end

section
/-! PROOFS. No step reads a value before something has written it (70_reset_and_hazards.md R333). -/

namespace Sys2Proof.Machine

open Sys2Proof

/-- The registers whose value no rule reads before something writes it. -/
structure Unread where
  txc : Bool
  rxdata : Byte
  rxerr : Nat
  txdata : Byte
  shift : Byte
  data : Byte
  baud : BitVec 32
  frame : BitVec 16
  setting : Int
  format : BitVec 16

/-- Those registers of a state. -/
def State.unread (s : State) : Unread where
  txc := s.hwTxc
  rxdata := s.hwRxdata
  rxerr := s.hwRxerr
  txdata := s.hwTxdata
  shift := s.hwShift
  data := s.fgData
  baud := s.fgBaud
  frame := s.fgFrame
  setting := s.hwBaud
  format := s.hwFrame

/-- The state with other values in those registers. -/
def State.withUnread (s : State) (u : Unread) : State :=
  { s with
    hwTxc := u.txc, hwRxdata := u.rxdata, hwRxerr := u.rxerr, hwTxdata := u.txdata, hwShift := u.shift
    fgData := u.data, fgBaud := u.baud, fgFrame := u.frame, hwBaud := u.setting, hwFrame := u.format }

/-- The registers `u` hold what those of `s` hold where a rule may read them. -/
structure readAlike (s : State) (u : Unread) : Prop where
  txc : s.everWritten = true → s.hwTxc = u.txc
  rx : s.hwRxc = true → s.hwRxdata = u.rxdata ∧ s.hwRxerr = u.rxerr
  txdata : s.hwDre = false → s.hwTxdata = u.txdata
  shift : s.hwShiftBusy = true → s.hwShift = u.shift
  write : s.fgPc ≠ .idle → s.fgOp = 3 → s.fgData = u.data
  begin : s.fgPc ≠ .idle → s.fgOp = 1 → s.fgBaud = u.baud ∧ s.fgFrame = u.frame

theorem sameButUnread_withUnread {s : State} {u : Unread} (h : readAlike s u) : sameButUnread s (s.withUnread u) :=
  ⟨rfl, h.txc, h.rx, h.txdata, h.shift, h.write, h.begin⟩

theorem sameButUnread.exists_withUnread {s t : State} (h : sameButUnread s t) :
    ∃ u, t = s.withUnread u ∧ readAlike s u := by
  obtain ⟨heq, htxc, hrx, htxdata, hshift, hwrite, hbegin⟩ := h
  exact ⟨t.unread, heq.symm, htxc, hrx, htxdata, hshift, hwrite, hbegin⟩

/-! ### What a step does to them -/

/-- A byte handed over is the same byte (45_hardware_interface.md R242, R243). -/
def Unread.handOver (c : Byte) (u : Unread) : Unread := { u with txdata := c, txc := false }

theorem readAlike.drained {s : State} {u : Unread} (h : readAlike s u) (c : Byte) :
    readAlike (drained c s) (u.handOver c) :=
  ⟨fun _ => rfl, h.rx, fun _ => rfl, h.shift, h.write, h.begin⟩

theorem readAlike.writeFast {s : State} {u : Unread} (h : readAlike s u) :
    readAlike (((s.hwWriteTx s.fgData).hwClearTxc).setEverWritten true) (u.handOver s.fgData) :=
  ⟨fun _ => rfl, h.rx, fun _ => rfl, h.shift, h.write, h.begin⟩

/-- A byte that joins the buffer leaves `hw_txc`, which has been cleared before (R333). -/
theorem readAlike.writeSlow {s : State} {u : Unread} (h : readAlike s u) (r : Ring) (hw : s.everWritten = true) :
    readAlike (((s.setTx r).hwSet .txeIe true).setEverWritten true) u :=
  ⟨fun _ => h.txc hw, h.rx, h.txdata, h.shift, h.write, h.begin⟩

/-- A change of the phase keeps what is read by the command in progress. -/
theorem readAlike.goto {s : State} {u : Unread} (h : readAlike s u) (hbusy : s.fgPc ≠ .idle) (p : Phase) :
    readAlike (s.goto p) u :=
  ⟨h.txc, h.rx, h.txdata, h.shift, fun _ => h.write hbusy, fun _ => h.begin hbusy⟩

/-- A response ends the command that reads the latches. -/
theorem readAlike.respond {s : State} {u : Unread} (h : readAlike s u) (v : BitVec 16) : readAlike (s.respond v) u :=
  ⟨h.txc, h.rx, h.txdata, h.shift, fun hbusy => absurd rfl hbusy, fun hbusy => absurd rfl hbusy⟩

/-- The registers after a command has latched. -/
def Unread.latch (o : Operands) (u : Unread) : Unread := { u with data := o.data, baud := o.baud, frame := o.frame }

theorem readAlike.latch {s : State} {u : Unread} (h : readAlike s u) (op : BitVec 4) (o : Operands) :
    readAlike (s.latch op o) (u.latch o) :=
  ⟨h.txc, h.rx, h.txdata, h.shift, fun _ _ => rfl, fun _ _ => ⟨rfl, rfl⟩⟩

/-- A command that is accepted reads what it has latched. -/
theorem readAlike.accept {s : State} {u : Unread} (h : readAlike s u) (op : BitVec 4) (o : Operands) (p : Phase) :
    readAlike ((s.latch op o).goto p) (u.latch o) :=
  ⟨h.txc, h.rx, h.txdata, h.shift, fun _ _ => rfl, fun _ _ => ⟨rfl, rfl⟩⟩

theorem readAlike.setRx {s : State} {u : Unread} (h : readAlike s u) (r : Ring) : readAlike (s.setRx r) u := { h with }

theorem readAlike.shutDown {s : State} {u : Unread} (h : readAlike s u) : readAlike (shutDown s) u := by
  rw [shutDown_eq]
  exact ⟨fun hw => (by cases hw), h.rx, h.txdata, h.shift, h.write, h.begin⟩

theorem busy_of_fgEnabled {s : State} (hf : s.fgEnabled = true) : s.fgPc ≠ .idle := by
  obtain ⟨hbusy, -⟩ := (fgEnabled_iff s).mp hf
  exact hbusy

theorem hwRxc_of_rxTakeable {s : State} (h : s.rxTakeable = true) : s.hwRxc = true := by
  obtain ⟨-, -, hpending, -⟩ := (rxTakeable_iff s).mp h
  exact hpending

/-! ### Two states that read alike take the same step -/

/-- No enabling condition reads one of these registers. -/
theorem enabled_withUnread (e : Event) (s : State) (u : Unread) : enabled e (s.withUnread u) = enabled e s := by
  cases e <;> rfl

/-- `hw_txc` is read where the flush steps test it, and there a byte has been written (R333). -/
theorem Invariant.hwTxc_eq {s : State} {u : Unread} (h : Invariant s) (hu : readAlike s u) (hp : s.fgPc = .flTest) :
    s.hwTxc = u.txc :=
  hu.txc (h.flushing (.inl hp))

theorem FlushEnds.withUnread {s : State} {u : Unread} (h : FlushEnds s) (hinv : Invariant s) (hu : readAlike s u) :
    FlushEnds (s.withUnread u) := by
  cases h with
  | gate hp hw => exact .gate hp hw
  | test hp ht hc => exact .test hp ht ((hinv.hwTxc_eq hu hp).symm.trans hc)

/-- The slow path of `WRITE` is taken only after a byte has been written. -/
theorem Invariant.everWritten_of_slow {s : State} (h : Invariant s) (hs : ¬(s.txeIe = false ∧ s.hwDre = true)) :
    s.everWritten = true := by
  by_contra hw
  obtain ⟨-, hdisarmed, hready, -⟩ := h.unwritten (Bool.eq_false_of_not_eq_true hw)
  exact hs ⟨hdisarmed, hready⟩

/-- A step does the same to a state whose unread registers hold other values, and leaves such a state again. -/
theorem Move.withUnread {e : Event} {s t : State} {u : Unread} (h : Move e s t) (hinv : Invariant s)
    (hu : readAlike s u) : ∃ v, Move e (s.withUnread u) (t.withUnread v) ∧ readAlike t v := by
  cases h with
  | skip h => exact ⟨u, .skip ((enabled_withUnread e s u).trans h), hu⟩
  | refuse hi hw => exact ⟨u, .refuse hi hw, { hu with }⟩
  | @available _ o _ hi hw => exact ⟨u.latch o, .available hi hw, (hu.latch 6 o).respond _⟩
  | @availableForWrite _ o _ hi hw => exact ⟨u.latch o, .availableForWrite hi hw, (hu.latch 4 o).respond _⟩
  | @peekNone _ o _ hi hw he => exact ⟨u.latch o, .peekNone hi hw he, (hu.latch 7 o).respond _⟩
  | @peekSome _ o _ c hi hw ho => exact ⟨u.latch o, .peekSome hi hw ho, (hu.latch 7 o).respond _⟩
  | @readNone _ o _ hi hw he => exact ⟨u.latch o, .readNone hi hw he, (hu.latch 8 o).respond _⟩
  | @readSome _ o _ c hi hw ho =>
    exact ⟨u.latch o, .readSome hi hw ho, ((hu.latch 8 o).setRx _).respond _⟩
  | @pollIdle _ o _ hi hw hq => exact ⟨u.latch o, .pollIdle hi hw hq, (hu.latch 9 o).respond _⟩
  | @pollDrain _ o _ c hi hw hd =>
    exact ⟨(u.latch o).handOver c, .pollDrain hi hw hd, ((hu.latch 9 o).drained c).respond _⟩
  | pollUnderflow hi hw hd => exact ⟨u, .pollUnderflow hi hw hd, { hu with }⟩
  | @acceptBegin _ o _ hi hw => exact ⟨u.latch o, .acceptBegin hi hw, hu.accept 1 o _⟩
  | @acceptEnd _ o _ hi hw => exact ⟨u.latch o, .acceptEnd hi hw, hu.accept 2 o _⟩
  | @acceptWrite _ o _ hi hw => exact ⟨u.latch o, .acceptWrite hi hw, hu.accept 3 o _⟩
  | @acceptFlush _ o _ hi hw => exact ⟨u.latch o, .acceptFlush hi hw, hu.accept 5 o _⟩
  | setGie hp => exact ⟨u, .setGie hp, { hu with }⟩
  | writeFast hf hp ht hd =>
    have hdata : s.fgData = u.data := hu.write (busy_of_fgEnabled hf) (fgOp_of_wrTry hinv.phase hp)
    have hmove : Move .fg (s.withUnread u) _ := .writeFast hf hp ht hd
    rw [show (s.withUnread u).fgData = s.fgData from hdata.symm] at hmove
    exact ⟨u.handOver s.fgData, hmove, hu.writeFast.respond 1⟩
  | writeSlow hf hp hs hn hl =>
    have hdata : s.fgData = u.data := hu.write (busy_of_fgEnabled hf) (fgOp_of_wrTry hinv.phase hp)
    have hmove : Move .fg (s.withUnread u) _ := .writeSlow hf hp hs hn hl
    rw [show (s.withUnread u).fgData = s.fgData from hdata.symm] at hmove
    exact ⟨u, hmove, (hu.writeSlow _ (hinv.everWritten_of_slow hs)).respond 1⟩
  | writeFull hf hp hs hn => exact ⟨u, .writeFull hf hp hs hn, hu.goto (busy_of_fgEnabled hf) _⟩
  | writeRoom hf hp => exact ⟨u, .writeRoom hf hp, hu.goto (busy_of_fgEnabled hf) _⟩
  | pollPhaseIdle hf hp hq => exact ⟨u, .pollPhaseIdle hf hp hq, hu.goto (busy_of_fgEnabled hf) _⟩
  | @pollPhaseDrain _ _ c hf hp hd =>
    exact ⟨u.handOver c, .pollPhaseDrain hf hp hd, (hu.drained c).goto (busy_of_fgEnabled hf) _⟩
  | pollPhaseUnderflow hf hp hd => exact ⟨u, .pollPhaseUnderflow hf hp hd, { hu with }⟩
  | flushGo hf hp hw => exact ⟨u, .flushGo hf hp hw, hu.goto (busy_of_fgEnabled hf) _⟩
  | flushWait hf hp hw =>
    exact ⟨u, .flushWait hf hp (hw.imp_right (hinv.hwTxc_eq hu hp).symm.trans), hu.goto (busy_of_fgEnabled hf) _⟩
  | flushRespond hf he ho => exact ⟨u, .flushRespond hf (he.withUnread hinv hu) ho, hu.respond 0⟩
  | flushClose hf he ho =>
    exact ⟨u, .flushClose hf (he.withUnread hinv hu) ho, hu.goto (busy_of_fgEnabled hf) _⟩
  | endRespond hf hp ho => exact ⟨u, .endRespond hf hp ho, hu.shutDown.respond 0⟩
  | endGoOn hf hp ho => exact ⟨u, .endGoOn hf hp ho, hu.shutDown.goto (busy_of_fgEnabled hf) _⟩
  | beginGate hf hp => exact ⟨u, .beginGate hf hp, hu.goto (busy_of_fgEnabled hf) _⟩
  | beginConfigure hf hp hb =>
    obtain ⟨hbaud, hframe⟩ := hu.begin (busy_of_fgEnabled hf) (fgOp_of_bgCfg hinv.phase hp)
    refine ⟨{ u with setting := baudSetting s.cfg.clkHz s.cfg.baudCorr u.baud.toNat, format := u.frame },
      .beginConfigure hf hp (fun hzero => hb (hbaud.trans hzero)), ?_⟩
    exact ⟨hu.txc, hu.rx, hu.txdata, hu.shift, fun hbusy => absurd rfl hbusy, fun hbusy => absurd rfl hbusy⟩
  | beginZero hf hp hb =>
    obtain ⟨hbaud, -⟩ := hu.begin (busy_of_fgEnabled hf) (fgOp_of_bgCfg hinv.phase hp)
    exact ⟨u, .beginZero hf hp (hbaud.symm.trans hb), { hu with }⟩
  | receiveStore ht hn hl =>
    obtain ⟨hdata, -⟩ := hu.rx (hwRxc_of_rxTakeable ht)
    have hmove : Move .intRx (s.withUnread u) _ := .receiveStore ht hn hl
    rw [show (s.withUnread u).hwRxdata = s.hwRxdata from hdata.symm] at hmove
    exact ⟨u, hmove, ⟨hu.txc, fun hrxc => (by cases hrxc), hu.txdata, hu.shift, hu.write, hu.begin⟩⟩
  | receiveDrop ht hn =>
    exact ⟨u, .receiveDrop ht hn, ⟨hu.txc, fun hrxc => (by cases hrxc), hu.txdata, hu.shift, hu.write, hu.begin⟩⟩
  | @transmitDrain _ c ht ho => exact ⟨u.handOver c, .transmitDrain ht ho, hu.drained c⟩
  | transmitUnderflow ht he => exact ⟨u, .transmitUnderflow ht he, { hu with }⟩
  | txLoad h =>
    obtain ⟨-, hfull, -⟩ := (enabled_txLoad_iff s).mp h
    exact ⟨{ u with shift := u.txdata }, .txLoad h,
      ⟨hu.txc, hu.rx, fun hready => (by cases hready), fun _ => hu.txdata hfull, hu.write, hu.begin⟩⟩
  | txDone h =>
    obtain ⟨-, hbusy⟩ := (enabled_txDone_iff s).mp h
    have hmove : Move .txDone (s.withUnread u) _ := .txDone h
    rw [envTxDone, show (s.withUnread u).hwShift = s.hwShift from (hu.shift hbusy).symm] at hmove
    refine ⟨{ u with shift := s.hwShift, txc := if s.hwDre then true else u.txc }, hmove, ?_⟩
    exact ⟨fun hw => congrArg (if s.hwDre then true else ·) (hu.txc hw), hu.rx, hu.txdata,
      fun hfree => (by cases hfree), hu.write, hu.begin⟩
  | @rxArrive b x _ h =>
    exact ⟨{ u with rxdata := b, rxerr := x }, .rxArrive h,
      ⟨hu.txc, fun _ => ⟨rfl, rfl⟩, hu.txdata, hu.shift, hu.write, hu.begin⟩⟩
  | rxFlush h =>
    exact ⟨u, .rxFlush h, ⟨hu.txc, fun hrxc => (by cases hrxc), hu.txdata, hu.shift, hu.write, hu.begin⟩⟩

/-- The draw of the next step reads none of these registers. -/
theorem nextEvent_withUnread (s : State) (u : Unread) : nextEvent (s.withUnread u) = nextEvent s := rfl

theorem takeDraw_withUnread (s : State) (u : Unread) : takeDraw (s.withUnread u) = (takeDraw s).withUnread u := by
  unfold takeDraw
  rw [show (s.withUnread u).schedule = s.schedule from rfl]
  split <;> rfl

theorem readAlike.takeDraw {s : State} {u : Unread} (h : readAlike s u) : readAlike (takeDraw s) u := by
  obtain ⟨l, d, hd⟩ := takeDraw_eq s
  exact hd ▸ { h with }

/-- After two resets the registers that hold unspecified values may differ, and none of them may be read yet. -/
theorem sameButUnread_reset (p : Params) {d e : ResetDraw} (l : List Event) (hgie : d.gie = e.gie) :
    sameButUnread (State.resetWith p d l) (State.resetWith p e l) := by
  simp [sameButUnread, State.resetWith, hgie]

/-- Settles O54: a step of a state of the invariant never stops, and is the step of every state that reads alike. -/
theorem unspecifiedValuesChangeNothing : Obligations.UnspecifiedValuesChangeNothing := by
  refine ⟨fun s t hinv h => ?_, fun p d e l hgie => sameButUnread_reset p l hgie⟩
  obtain ⟨u, rfl, hu⟩ := h.exists_withUnread
  obtain ⟨t, ht⟩ := hinv.takeDraw.exists_move (nextEvent s)
  obtain ⟨v, hv, hread⟩ := ht.withUnread hinv.takeDraw hu.takeDraw
  have hstep : step (s.withUnread u) = .next (t.withUnread v) := by
    rw [step, nextEvent_withUnread, takeDraw_withUnread, hv.runEvent_eq]
  rw [ht.step_eq, hstep]
  exact sameButUnread_withUnread hread

end Sys2Proof.Machine
end

section
/-! PROOFS. Step by step, the transmit pipeline changes only by the byte of a `WRITE` that responds (R334), and the
receive path loses bytes but never reorders or invents them (R336; 70_reset_and_hazards.md). -/

namespace Sys2Proof.Machine

open Sys2Proof

/-! ### The transmit pipeline -/

/-- What the transmitter has sent and what it holds, in order. -/
def Transmitter.stream (u : Transmitter) : List Byte :=
  u.line ++ (if u.busy then [u.shift] else []) ++ (if u.dre then [] else [u.data])

theorem transmitStream_eq (s : State) : transmitStream s = s.transmitter.stream ++ content s.cfg.nTx s.tx := rfl

theorem Transmitter.stream_handOver (c : Byte) {u : Transmitter} (hready : u.dre = true) :
    (u.handOver c).stream = u.stream ++ [c] := by
  simp [stream, hready]

theorem Transmitter.stream_load {u : Transmitter} (hfull : u.dre = false) (hfree : u.busy = false) :
    u.load.stream = u.stream := by
  simp [stream, hfull, hfree]

theorem Transmitter.stream_finish {u : Transmitter} (hbusy : u.busy = true) : u.finish.stream = u.stream := by
  simp [stream, hbusy]

/-- A drain moves the oldest byte of the buffer to the end of what the transmitter holds. -/
theorem transmitStream_drained {s : State} {c : Byte} (hwf : ringWf s.cfg.nTx s.tx) (hd : drains c s) :
    transmitStream (drained c s) = transmitStream s := by
  obtain ⟨hreq, hc⟩ := hd
  obtain ⟨-, hready⟩ := (txReq_iff s).mp hreq
  calc transmitStream (drained c s)
    _ = (s.transmitter.handOver c).stream ++ content s.cfg.nTx (popped s.cfg.nTx s.tx) := rfl
    _ = s.transmitter.stream ++ (c :: content s.cfg.nTx (popped s.cfg.nTx s.tx)) := by
      rw [Transmitter.stream_handOver c hready, List.append_assoc, List.singleton_append]
    _ = transmitStream s := by rw [transmitStream_eq, content_eq_cons hwf hc]

/-- The fast path finds the buffer empty, because the interrupt is disarmed (70_reset_and_hazards.md R331). -/
theorem Invariant.content_tx_of_disarmed {s : State} (h : Invariant s) (ht : s.txeIe = false) :
    content s.cfg.nTx s.tx = [] := by
  have hempty : s.tx.isEmpty = true := by simpa [ht] using h.armed
  exact content_of_empty h.txWf ((Ring.isEmpty_iff s.tx).mp hempty)

theorem written_of_wrTry {s t : State} {r : RspWord} (hp : s.fgPc = .wrTry) (hr : t.rspLog = s.rspLog ++ [r]) :
    written s t = [s.fgData] := by
  simp [written, hp, hr]

theorem written_of_ne_wrTry {s : State} (t : State) (hp : s.fgPc ≠ .wrTry) : written s t = [] := by
  simp [written, hp]

theorem FlushEnds.ne_wrTry {s : State} (h : FlushEnds s) : s.fgPc ≠ .wrTry := by
  cases h with
  | gate hp | test hp => simp [hp]

theorem transmitStream_shutDown (s : State) : transmitStream (shutDown s) = transmitStream s := by
  rw [shutDown_eq]
  rfl

/-- A step that writes no byte and leaves the transmit pipeline. -/
theorem transmits_of_keep {s t : State} (hw : written s t = []) (hkeep : transmitStream t = transmitStream s) :
    transmitStream t = transmitStream s ++ written s t := by
  rw [hw, hkeep, List.append_nil]

theorem Move.transmits {e : Event} {s t : State} (h : Move e s t) (hinv : Invariant s) :
    transmitStream t = transmitStream s ++ written s t := by
  cases h with
  | writeFast hf hp ht hd =>
    have hempty := hinv.content_tx_of_disarmed ht
    rw [written_of_wrTry (r := rspWord false 1) hp rfl]
    change (s.transmitter.handOver s.fgData).stream ++ content s.cfg.nTx s.tx = transmitStream s ++ [s.fgData]
    rw [Transmitter.stream_handOver s.fgData hd, transmitStream_eq, hempty, List.append_nil, List.append_nil]
  | writeSlow hf hp hs hn =>
    rw [written_of_wrTry (r := rspWord false 1) hp rfl]
    change s.transmitter.stream ++ content s.cfg.nTx (pushed s.cfg.nTx s.fgData s.tx) = transmitStream s ++ [s.fgData]
    rw [content_pushed s.fgData hinv.txWf hn, transmitStream_eq, List.append_assoc]
  | @transmitDrain _ c ht ho =>
    exact transmits_of_keep (written_of_rspLog_eq (drained_rspLog c s))
      (transmitStream_drained hinv.txWf ⟨txReq_of_txTakeable ht, ho⟩)
  | @pollPhaseDrain _ _ c hf hp hd =>
    exact transmits_of_keep (written_of_rspLog_eq (drained_rspLog c s)) (transmitStream_drained hinv.txWf hd)
  | @pollDrain _ o _ c hi hw hd =>
    exact transmits_of_keep (written_of_idle _ (canIssue_idle hi))
      (transmitStream_drained (s := s.latch 9 o) hinv.txWf hd)
  | txLoad h =>
    obtain ⟨-, hfull, hfree⟩ := (enabled_txLoad_iff s).mp h
    exact transmits_of_keep (written_of_rspLog_eq (by simp))
      (congrArg (· ++ content s.cfg.nTx s.tx) (Transmitter.stream_load (u := s.transmitter) hfull hfree))
  | txDone h =>
    obtain ⟨-, hbusy⟩ := (enabled_txDone_iff s).mp h
    exact transmits_of_keep (written_of_rspLog_eq (by simp))
      (congrArg (· ++ content s.cfg.nTx s.tx) (Transmitter.stream_finish (u := s.transmitter) hbusy))
  | refuse hi | available hi | availableForWrite hi | peekNone hi | peekSome hi | readNone hi | readSome hi
  | pollIdle hi | pollUnderflow hi | acceptBegin hi | acceptEnd hi | acceptWrite hi | acceptFlush hi =>
    exact transmits_of_keep (written_of_idle _ (canIssue_idle hi)) rfl
  | flushRespond hf he => exact transmits_of_keep (written_of_ne_wrTry _ he.ne_wrTry) rfl
  | beginConfigure hf hp => exact transmits_of_keep (written_of_ne_wrTry _ (by simp [hp])) rfl
  | endRespond hf hp | endGoOn hf hp =>
    exact transmits_of_keep (written_of_ne_wrTry _ (by simp [hp])) (transmitStream_shutDown s)
  | skip | setGie | writeFull | writeRoom | pollPhaseIdle | pollPhaseUnderflow | flushGo | flushWait | flushClose
  | beginGate | beginZero | receiveStore | receiveDrop | transmitUnderflow | rxArrive | rxFlush =>
    exact transmits_of_keep (written_of_rspLog_eq (by simp)) rfl

/-- No part of the transmit pipeline is one of the model's own fields. -/
theorem transmitStream_takeDraw (s : State) : transmitStream (takeDraw s) = transmitStream s := by
  simp [transmitStream_eq]

/-- Settles O55, by what the step does to the buffer and to the transmitter. -/
theorem transmitStreamGrowsByWrites : Obligations.TransmitStreamGrowsByWrites := by
  intro s t hinv h
  have hstream := (step_move h).transmits hinv.takeDraw
  rw [transmitStream_takeDraw] at hstream
  simpa [written] using hstream

/-! ### The receive path -/

/-- The byte the hardware holds, if it holds one. -/
def pending (s : State) : List Byte := if s.hwRxc then [s.hwRxdata] else []

theorem receiveStream_eq (s : State) : receiveStream s = content s.cfg.nRx s.rx ++ pending s := rfl

/-- The byte that the event `e`, a `READ` accepted in the state `s`, has returned in the state `t`. -/
def returnedBy (e : Event) (s t : State) : List Byte :=
  match e with
  | .issue w =>
    if s.canIssue = true ∧ CmdWord.legal w = true ∧ fieldOp w = 8 then
      match t.rspLog.getLast? with
      | some r => if r = 0xFFFF then [] else [r.setWidth 8]
      | none => []
    else []
  | _ => []

/-- The byte of the event `e`, where it is an `ENV.RX_ARRIVE` that is taken in the state `s`. -/
def arrivedBy (e : Event) (s : State) : List Byte :=
  match e with
  | .rxArrive b _ => if s.rxen && !s.hwRxc then [b] else []
  | _ => []

theorem returned_eq (s t : State) : returned s t = returnedBy (nextEvent s) (takeDraw s) t := by
  have hissue : (takeDraw s).canIssue = s.canIssue := by simp [State.canIssue]
  unfold returned
  cases nextEvent s with
  | issue w => exact if_congr (by rw [hissue]) rfl rfl
  | _ => rfl

theorem arrived_eq (s t : State) : arrived s t = arrivedBy (nextEvent s) (takeDraw s) := by
  unfold arrived
  cases nextEvent s with
  | rxArrive b x => simp only [arrivedBy, takeDraw_rxen, takeDraw_hwRxc]
  | _ => rfl

/-- A word that decodes to `READ` is legal and names operation 8 (30_encoding.md R93, R98). -/
theorem legal_of_read {w : CmdWord} {o : Operands} (hw : decodeCmd w = .ok (.read o)) :
    CmdWord.legal w = true ∧ fieldOp w = 8 := by
  have hlegal : CmdWord.legal w = true := by
    rw [← Bool.not_eq_false, ← decodeCmd_error_iff_not_legal, hw]
    simp
  obtain rfl : cmdWord 8 o = w := Code.cmd.inj (encodeOfDecodeIsIdentity (.cmd w) _ hw)
  exact ⟨hlegal, fieldOp_cmdWord 8 o⟩

theorem returnedBy_of_read {w : CmdWord} {o : Operands} {s t : State} {r : RspWord} (hi : s.canIssue = true)
    (hw : decodeCmd w = .ok (.read o)) (hr : t.rspLog = s.rspLog ++ [r]) :
    returnedBy (.issue w) s t = if r = 0xFFFF then [] else [r.setWidth 8] := by
  simp only [returnedBy, hi, legal_of_read hw, hr, and_self, if_true, List.getLast?_concat]

theorem returnedBy_of_other {w : CmdWord} {i : Instr} (s t : State) (hw : decodeCmd w = .ok i)
    (hne : ∀ o, i ≠ .read o) : returnedBy (.issue w) s t = [] := by
  rw [returnedBy, if_neg]
  rintro ⟨-, -, h8⟩
  have hcommand := (decodeCmd_ok hw).2
  rw [h8] at hcommand
  exact hne _ (Option.some.inj hcommand).symm

theorem returnedBy_of_error {w : CmdWord} {x : DecodeError} (s t : State) (hw : decodeCmd w = .error x) :
    returnedBy (.issue w) s t = [] := by
  have hillegal : CmdWord.legal w = false := (decodeCmd_error_iff_not_legal w).mp ⟨x, hw⟩
  rw [returnedBy, if_neg (by simp [hillegal])]

theorem returnedBy_of_not_enabled {e : Event} {s : State} (t : State) (h : enabled e s = false) :
    returnedBy e s t = [] := by
  cases e with
  | issue w => exact if_neg fun ⟨hi, _⟩ => by simp [enabled, hi] at h
  | _ => rfl

/-- A byte at the response port is not the sentinel, and the port's low bits are the byte (30_encoding.md R97). -/
theorem rspWord_byte_ne_sentinel (c : Byte) : rspWord false (c.setWidth 16) ≠ 0xFFFF := by
  have hlt := c.isLt
  intro h
  have hnat := congrArg BitVec.toNat h
  rw [rspWord_byte, BitVec.toNat_setWidth] at hnat
  simp at hnat
  omega

theorem setWidth_rspWord_byte (c : Byte) : (rspWord false (c.setWidth 16)).setWidth 8 = c := by
  rw [rspWord_byte]
  simp

/-- A step that returns no byte and leaves the receive path. -/
theorem receives_of_keep {e : Event} {s t : State} (hret : returnedBy e s t = [])
    (hkeep : receiveStream t = receiveStream s) :
    (returnedBy e s t ++ receiveStream t).Sublist (receiveStream s ++ arrivedBy e s) := by
  rw [hret, hkeep]
  exact List.sublist_append_left _ _

/-- `END_OFF` discards the content of the receive buffer (43_begin_end_baud.md R196). -/
theorem receiveStream_shutDown {s : State} (hwf : ringWf s.cfg.nRx s.rx) : receiveStream (shutDown s) = pending s := by
  have hempty : content s.cfg.nRx { s.rx with tail := s.rx.head } = [] := content_of_empty (ringWf_discard hwf) rfl
  rw [shutDown_eq, receiveStream_eq]
  exact congrArg (· ++ pending s) hempty

theorem Move.receives {e : Event} {s t : State} (h : Move e s t) (hinv : Invariant s) :
    (returnedBy e s t ++ receiveStream t).Sublist (receiveStream s ++ arrivedBy e s) := by
  cases h with
  | skip h => exact receives_of_keep (returnedBy_of_not_enabled s h) rfl
  | refuse hi hw => exact receives_of_keep (returnedBy_of_error s _ hw) rfl
  | available hi hw | availableForWrite hi hw | peekNone hi hw | peekSome hi hw | pollIdle hi hw | pollDrain hi hw
  | pollUnderflow hi hw | acceptBegin hi hw | acceptEnd hi hw | acceptWrite hi hw | acceptFlush hi hw =>
    exact receives_of_keep (returnedBy_of_other s _ hw (by simp)) rfl
  | readNone hi hw =>
    refine receives_of_keep ?_ rfl
    exact (returnedBy_of_read (r := rspWord false 0xFFFF) hi hw rfl).trans (if_pos rspWord_sentinel)
  | @readSome _ o _ c hi hw ho =>
    rw [returnedBy_of_read (r := rspWord false (c.setWidth 16)) hi hw rfl, if_neg (rspWord_byte_ne_sentinel c),
      setWidth_rspWord_byte, receiveStream_eq s, content_eq_cons hinv.rxWf ho]
    exact List.sublist_append_left _ _
  | setGie | writeFast | writeSlow | writeFull | writeRoom | pollPhaseIdle | pollPhaseDrain | pollPhaseUnderflow
  | flushGo | flushWait | flushRespond | flushClose | beginGate | beginConfigure | beginZero | transmitDrain
  | transmitUnderflow | txLoad | txDone => exact receives_of_keep rfl rfl
  | endRespond | endGoOn =>
    have hdiscard : receiveStream (shutDown s) = pending s := receiveStream_shutDown hinv.rxWf
    refine (List.Sublist.trans ?_ (List.sublist_append_left _ _) : List.Sublist (receiveStream (shutDown s)) _)
    rw [hdiscard, receiveStream_eq]
    exact List.sublist_append_right _ _
  | receiveStore ht hn =>
    have hheld : pending s = [s.hwRxdata] := if_pos (hwRxc_of_rxTakeable ht)
    rw [receiveStream_eq s, hheld, ← content_pushed s.hwRxdata hinv.rxWf hn]
    exact List.Sublist.refl _
  | receiveDrop ht =>
    refine (List.Sublist.trans ?_ (List.sublist_append_left _ _) : List.Sublist (content s.cfg.nRx s.rx ++ []) _)
    exact (List.nil_sublist (pending s)).append_left _
  | @rxArrive b x _ h =>
    obtain ⟨hen, hfree⟩ := (enabled_rxArrive_iff b x s).mp h
    have hnone : pending s = [] := by simp [pending, hfree]
    have harrived : arrivedBy (.rxArrive b x) s = [b] := by simp [arrivedBy, hen, hfree]
    rw [receiveStream_eq s, hnone, harrived, List.append_nil]
    exact List.Sublist.refl _
  | rxFlush =>
    refine (List.Sublist.trans ?_ (List.sublist_append_left _ _) : List.Sublist (content s.cfg.nRx s.rx ++ []) _)
    exact (List.nil_sublist (pending s)).append_left _

theorem receiveStream_takeDraw (s : State) : receiveStream (takeDraw s) = receiveStream s := by
  simp [receiveStream_eq, pending]

/-- Settles O56: a step that removes a byte removes it from the front, as `READ` does, or loses it. -/
theorem receiveStreamOnlyLosesBytes : Obligations.ReceiveStreamOnlyLosesBytes := by
  intro s t hinv h
  rw [returned_eq, arrived_eq, ← receiveStream_takeDraw s]
  exact (step_move h).receives hinv.takeDraw

end Sys2Proof.Machine
end

section
/-! PROOFS. The reset state (70_reset_and_hazards.md R310, R311), and what every run keeps: the invariant and both
pipelines (R330 to R336). -/

namespace Sys2Proof.Machine

open Sys2Proof

/-! ### Reset -/

/-- After reset only the host's steps are enabled (70_reset_and_hazards.md R311). -/
theorem enabled_resetWith_iff (p : Params) (d : ResetDraw) (l : List Event) (e : Event) :
    enabled e (State.resetWith p d l) = true ↔ (∃ w, e = .issue w) ∨ ∃ v, e = .setGie v := by
  cases e with
  | issue w => exact ⟨fun _ => .inl ⟨w, rfl⟩, fun _ => rfl⟩
  | setGie v => exact ⟨fun _ => .inr ⟨v, rfl⟩, fun _ => rfl⟩
  | intRx | intTx => simp [enabled, State.rxTakeable, State.txTakeable, State.rxReq, State.txReq, State.resetWith]
  | fg => simp [enabled, State.fgEnabled, State.resetWith]
  | txLoad | txDone | rxArrive | rxFlush => simp [enabled, State.resetWith]

/-- Settles O50, field by field. -/
theorem resetLeavesTheValuesOfTheManual : Obligations.ResetLeavesTheValuesOfTheManual := by
  refine ⟨fun p d l s hs => ?_, Config.params, Config.resetDraw, [], rfl⟩
  subst hs
  exact ⟨rfl, rfl, rfl, rfl, rfl, rfl, rfl, rfl, rfl, rfl, rfl, rfl, rfl, rfl, rfl, rfl, rfl, rfl, rfl, rfl, rfl,
    fun _ => ⟨rfl, rfl⟩, enabled_resetWith_iff p d l⟩

theorem ringWf_reset {n : Nat} (hn : 2 ≤ n) : ringWf n ⟨[], 0, 0⟩ := by
  have hpos : 0 < n := by omega
  have hnone : ringOccupied n ⟨[], 0, 0⟩ = 0 := (head_eq_tail_iff (r := ⟨[], 0, 0⟩) hpos hpos).mp rfl
  exact ⟨rfl, hpos, hpos, fun k hk => absurd hk (by simp [hnone])⟩

/-- Settles O51: both buffers are empty, the transmit path is idle, the foreground is idle and nothing is enabled. -/
theorem resetSatisfiesTheInvariant : Obligations.ResetSatisfiesTheInvariant := by
  intro p d l
  exact {
    rxWf := ringWf_reset p.nRx_lo
    txWf := ringWf_reset p.nTx_lo
    armed := rfl
    unwritten := fun _ => ⟨rfl, rfl, rfl, rfl⟩
    complete := fun hw => by cases hw
    reported := fun hw => by cases hw
    phase := rfl
    flushing := fun hp => by rcases hp with hp | hp <;> cases hp
    closing := fun hp => by cases hp
    setup := fun hp => by cases hp
    enables := ⟨rfl, rfl, rfl⟩
    noUnderflow := fun hf => by cases hf }

theorem transmitStream_reset (p : Params) (d : ResetDraw) (l : List Event) :
    transmitStream (State.resetWith p d l) = [] :=
  content_of_empty (ringWf_reset p.nTx_lo) rfl

theorem receiveStream_reset (p : Params) (d : ResetDraw) (l : List Event) :
    receiveStream (State.resetWith p d l) = [] := by
  rw [receiveStream_eq]
  exact (List.append_nil _).trans (content_of_empty (ringWf_reset p.nRx_lo) rfl)

/-! ### Runs -/

/-- A run from a state of the invariant goes on for every number of steps. -/
theorem Invariant.run_total {s : State} (h : Invariant s) (k : Nat) : ∃ t, Host.Core.run core k s = .next t := by
  induction k generalizing s with
  | zero => exact ⟨s, rfl⟩
  | succ k ih =>
    obtain ⟨t, hstep⟩ := invariantStatesNeverStop s h
    obtain ⟨u, hu⟩ := ih (everyStepKeepsTheInvariant s t h hstep)
    exact ⟨u, (core_run_next hstep k).trans hu⟩

/-- What each step from a state of the invariant adds to, a run from such a state has. -/
theorem Invariant.run_induction {P : Nat → State → State → Prop} (zero : ∀ s, Invariant s → P 0 s s)
    (succ : ∀ k s t u, Invariant s → step s = .next t → P k t u → P (k + 1) s u) {k : Nat} {s u : State}
    (h : Invariant s) (hrun : Host.Core.run core k s = .next u) : P k s u := by
  induction k generalizing s with
  | zero =>
    cases hrun
    exact zero _ h
  | succ k ih =>
    obtain ⟨t, hstep, hrest⟩ := core_run_step hrun
    exact succ k s t u h hstep (ih (everyStepKeepsTheInvariant s t h hstep) hrest)

theorem Invariant.run {k : Nat} {s u : State} (h : Invariant s) (hrun : Host.Core.run core k s = .next u) :
    Invariant u :=
  h.run_induction (P := fun _ _ u => Invariant u) (fun _ hs => hs) (fun _ _ _ _ _ _ hu => hu) hrun

/-- The transmit pipeline along a run: it grows by the bytes of the `WRITE`s that respond. -/
theorem Invariant.run_transmits {k : Nat} {s u : State} (h : Invariant s)
    (hrun : Host.Core.run core k s = .next u) : transmitStream u = transmitStream s ++ gather written k s := by
  refine h.run_induction (P := fun k s u => transmitStream u = transmitStream s ++ gather written k s)
    (fun s _ => (List.append_nil _).symm) (fun k s t u hs hstep hu => ?_) hrun
  rw [gather_next written hstep, hu, transmitStreamGrowsByWrites s t hs hstep, List.append_assoc]

/-- The receive path along a run: what was there and the arrivals, with some bytes removed and none moved. -/
theorem Invariant.run_receives {k : Nat} {s u : State} (h : Invariant s)
    (hrun : Host.Core.run core k s = .next u) :
    (gather returned k s ++ receiveStream u).Sublist (receiveStream s ++ gather arrived k s) := by
  refine h.run_induction
    (P := fun k s u => (gather returned k s ++ receiveStream u).Sublist (receiveStream s ++ gather arrived k s))
    (fun s _ => ?_) (fun k s t u hs hstep hu => ?_) hrun
  · exact List.sublist_append_left _ _
  · have hfirst := receiveStreamOnlyLosesBytes s t hs hstep
    rw [gather_next returned hstep, gather_next arrived hstep, List.append_assoc, ← List.append_assoc (receiveStream s)]
    refine (hu.append_left (returned s t)).trans ?_
    rw [← List.append_assoc]
    exact hfirst.append_right _

/-- Settles O57, by induction over the steps of a run from reset, where both pipelines are empty. -/
theorem everyRunFromResetKeepsBothPipelines : Obligations.EveryRunFromResetKeepsBothPipelines := by
  intro p d l k
  have hreset := resetSatisfiesTheInvariant p d l
  obtain ⟨t, hrun⟩ := hreset.run_total k
  have hinv := hreset.run hrun
  have htx := hreset.run_transmits hrun
  have hrx := hreset.run_receives hrun
  rw [transmitStream_reset, List.nil_append] at htx
  rw [receiveStream_reset, List.nil_append] at hrx
  obtain ⟨-, hhead, -, -⟩ := hinv.rxWf
  exact ⟨t, hrun, hinv, htx.symm, hrx, Nat.le_sub_one_of_lt (ringOccupied_lt hhead)⟩

end Sys2Proof.Machine
end

section
/-! PROOFS. The end of a run of a program (70_reset_and_hazards.md R337, R338), where the flush steps end (R335), what
an `END` leaves (R311), and the loops that a disabled transmitter blocks (R322). -/

namespace Sys2Proof.Machine

open Sys2Proof

/-! ### The end of a run -/

theorem bytesToWrite_append (c d : Program) : bytesToWrite (c ++ d) = bytesToWrite c ++ bytesToWrite d := by
  simp [bytesToWrite]

/-- Where a run is over, an enabled transmitter holds no byte: neither of its two steps is enabled. -/
theorem transmitter_empty_of_runOver {c : Program} {s : State} (hover : runOver c s) (hen : s.txen = true) :
    s.hwDre = true ∧ s.hwShiftBusy = false := by
  obtain ⟨-, -, -, -, hload, hdone⟩ := hover
  have hfree : s.hwShiftBusy = false := by simpa [enabled, hen] using hdone
  exact ⟨by simpa [enabled, hen, hfree] using hload, hfree⟩

/-- Where a run is over with interrupts on, the transmit interrupt is not armed. -/
theorem disarmed_of_runOver {c : Program} {s : State} (hover : runOver c s) (hen : s.txen = true)
    (hgie : s.gie = true) : s.txeIe = false := by
  obtain ⟨hready, -⟩ := transmitter_empty_of_runOver hover hen
  obtain ⟨-, hnone, -, htx, -, -⟩ := hover
  simpa [enabled, State.txTakeable, State.txReq, hgie, hready, hnone] using htx

theorem Invariant.transmitStream_of_runOver {c : Program} {s : State} (h : Invariant s) (hover : runOver c s)
    (hen : s.txen = true) :
    transmitStream s = s.txLine ++ content s.cfg.nTx s.tx ∧ (s.gie = true → transmitStream s = s.txLine) := by
  obtain ⟨hready, hfree⟩ := transmitter_empty_of_runOver hover hen
  have hstream : transmitStream s = s.txLine ++ content s.cfg.nTx s.tx := by
    simp [transmitStream, shifting, waiting, hready, hfree]
  refine ⟨hstream, fun hgie => ?_⟩
  rw [hstream, h.content_tx_of_disarmed (disarmed_of_runOver hover hen hgie), List.append_nil]

/-- Along a run the responses and the command in progress count the words issued. -/
theorem Invariant.run_responds {k : Nat} {s u : State} (h : Invariant s) (hrun : Host.Core.run core k s = .next u) :
    u.rspLog.length + outstanding u = s.rspLog.length + outstanding s + (gather issued k s).length := by
  refine h.run_induction (P := fun k s u =>
    u.rspLog.length + outstanding u = s.rspLog.length + outstanding s + (gather issued k s).length)
    (fun s _ => rfl) (fun k s t u hs hstep hu => ?_) hrun
  obtain ⟨hcount, -⟩ := eachCommandRespondsOnce s t hs hstep
  rw [gather_next issued hstep, List.length_append, hu, hcount, Nat.add_assoc]

/-- Along a run the bytes written, and the byte being written, are the bytes of the words issued. -/
theorem Invariant.run_writes {k : Nat} {s u : State} (h : Invariant s) (hrun : Host.Core.run core k s = .next u) :
    gather written k s ++ writing u = writing s ++ bytesToWrite (gather issued k s) := by
  refine h.run_induction (P := fun k s u =>
    gather written k s ++ writing u = writing s ++ bytesToWrite (gather issued k s))
    (fun s _ => (List.append_nil _).symm) (fun k s t u hs hstep hu => ?_) hrun
  obtain ⟨-, hbytes⟩ := eachCommandRespondsOnce s t hs hstep
  rw [gather_next written hstep, gather_next issued hstep, List.append_assoc, hu, ← List.append_assoc, hbytes,
    List.append_assoc, bytesToWrite_append]

/-- Settles O60: a run that is over has issued as many words as the program has, and they are its first words. -/
theorem runOverMeansSent : Obligations.RunOverMeansSent := by
  refine ⟨fun c s hinv hover hen => hinv.transmitStream_of_runOver hover hen, fun p d l k c t hrun hprog hover => ?_⟩
  have hreset := resetSatisfiesTheInvariant p d l
  have hinv := hreset.run hrun
  have ⟨⟨hidle, hlength⟩, _⟩ := hover
  have hissued : gather issued k (State.resetWith p d l) = c := by
    have hcount := hreset.run_responds hrun
    refine hprog.eq_of_length ?_
    simpa [outstanding, hidle, hlength, State.resetWith] using hcount.symm
  have hwritten : gather written k (State.resetWith p d l) = bytesToWrite c := by
    have hbytes := hreset.run_writes hrun
    rw [writing_of_idle hidle, List.append_nil, hissued] at hbytes
    exact hbytes
  refine ⟨hissued, hwritten, fun hen hgie => ?_⟩
  obtain ⟨-, hsent⟩ := hinv.transmitStream_of_runOver hover hen
  rw [← hsent hgie, hreset.run_transmits hrun, transmitStream_reset, hwritten, List.nil_append]

/-! ### A busy foreground -/

/-- A busy foreground takes a step of its own, or a step leaves its phase and the responses. -/
theorem Move.of_busy {e : Event} {s t : State} (h : Move e s t) (hbusy : s.fgPc ≠ .idle) :
    (e = .fg ∧ Move .fg s t) ∨
    (e ≠ .fg ∧ t.fgPc = s.fgPc ∧ t.rspLog = s.rspLog ∧ t.txen = s.txen) := by
  have hno {p : Prop} (hi : s.canIssue = true) : p := absurd (canIssue_idle hi) hbusy
  by_cases he : e = .fg
  · subst he
    exact .inl ⟨rfl, h⟩
  · refine .inr ⟨he, ?_⟩
    cases h with
    | skip => exact ⟨rfl, rfl, rfl⟩
    | setGie | receiveStore | receiveDrop | transmitDrain | transmitUnderflow | txLoad | txDone | rxArrive
    | rxFlush => exact ⟨rfl, by simp, by simp⟩
    | refuse hi | available hi | availableForWrite hi | peekNone hi | peekSome hi | readNone hi | readSome hi
    | pollIdle hi | pollDrain hi | pollUnderflow hi | acceptBegin hi | acceptEnd hi | acceptWrite hi
    | acceptFlush hi => exact hno hi
    | _ => exact absurd rfl he

theorem Move.eq_of_not_fgEnabled {s t : State} (h : Move .fg s t) (hf : ¬s.fgEnabled = true) : t = s :=
  h.unique (.skip (Bool.eq_false_of_not_eq_true hf))

/-- A phase that polls goes on to the phase after it, with a byte drained or not, or it raises (42_write_flush_poll.md
R164, R172; 44_interrupt_handlers.md R226). -/
theorem Move.pollPhase_cases {s t : State} {p : Phase} (h : Move .fg s t) (hp : PollPhase s.fgPc p)
    (hf : s.fgEnabled = true) :
    t = s.goto p ∨ (∃ c, drains c s ∧ t = (drained c s).goto p) ∨ (underflows s ∧ t = raiseFault .txUnderflow s) := by
  have hrun := (runEvent_pollPhase hf hp rfl).symm.trans h.runEvent_eq
  obtain ⟨-, hpoll⟩ | ⟨c, hd, hpoll⟩ | ⟨hd, hpoll⟩ | ⟨f, hpoll⟩ := pollOnce_cases s <;> rw [hpoll] at hrun <;>
    cases hrun
  · exact .inl rfl
  · exact .inr (.inl ⟨c, hd, rfl⟩)
  · exact .inr (.inr ⟨hd, rfl⟩)

/-! ### Where the flush steps end -/

/-- From `FL_GATE` or `FL_TEST` the flush steps either go on or end. -/
theorem Move.flushEnds_of_leaves {s t : State} (h : Move .fg s t) (hf : s.fgEnabled = true)
    (hp : s.fgPc = .flGate ∨ s.fgPc = .flTest) (ht : t.fgPc = .idle ∨ t.fgPc = .endOff) : FlushEnds s := by
  obtain hp | hp := hp
  · exact (flGate_cases hp).resolve_left fun hw => by simp [h.unique (.flushGo hf hp hw)] at ht
  · exact (flTest_cases hp).resolve_left fun hw => by simp [h.unique (.flushWait hf hp hw)] at ht

/-- Where the flush steps end the foreground responds or goes on to `END_OFF`. -/
theorem Move.eq_of_flushEnds {s t : State} (h : Move .fg s t) (hf : s.fgEnabled = true) (he : FlushEnds s)
    (hfits : phaseFits s = true) : t = s.respond 0 ∨ t = s.goto .endOff := by
  obtain hop | hop | hop := he.fgOp_cases hfits
  · exact .inr (h.unique (.flushClose hf he (.inr hop)))
  · exact .inr (h.unique (.flushClose hf he (.inl hop)))
  · exact .inl (h.unique (.flushRespond hf he hop))

theorem transmitStream_of_transmitIdle {s : State} (hwf : ringWf s.cfg.nTx s.tx) (h : transmitIdle s) :
    transmitStream s = s.txLine := by
  obtain ⟨hempty, -, hready, hfree⟩ := h
  have hnone := content_of_empty hwf ((Ring.isEmpty_iff s.tx).mp hempty)
  simp [transmitStream, shifting, waiting, hready, hfree, hnone]

theorem ringFree_of_empty {n : Nat} {r : Ring} (hr : ringWf n r) (hempty : r.isEmpty = true) :
    ringFree n r = n - 1 := by
  obtain ⟨-, hhead, htail, -⟩ := hr
  rw [ringFree, (head_eq_tail_iff hhead htail).mp ((Ring.isEmpty_iff r).mp hempty), Nat.sub_zero]

theorem Move.flushEnds {e : Event} {s t : State} (h : Move e s t) (hinv : Invariant s)
    (hp : s.fgPc = .flGate ∨ s.fgPc = .flTest) (ht : t.fgPc = .idle ∨ t.fgPc = .endOff) :
    FlushEnds s ∧ (t = s.respond 0 ∨ t = s.goto .endOff) := by
  have hbusy : s.fgPc ≠ .idle := by obtain hp | hp := hp <;> simp [hp]
  have hmoved : t.fgPc ≠ s.fgPc := by obtain hp | hp := hp <;> obtain ht | ht := ht <;> simp [hp, ht]
  obtain ⟨-, hfg⟩ | ⟨-, hpc, -⟩ := h.of_busy hbusy
  · have hf : s.fgEnabled = true := by
      by_contra hoff
      exact hmoved (by rw [hfg.eq_of_not_fgEnabled hoff])
    have he := hfg.flushEnds_of_leaves hf hp ht
    exact ⟨he, hfg.eq_of_flushEnds hf he hinv.phase⟩
  · exact absurd hpc hmoved

/-- Settles O58: where the flush steps end the transmit path is idle, and the step leaves it. -/
theorem flushEndsWithEverythingSent : Obligations.FlushEndsWithEverythingSent := by
  intro s t hinv h hp ht
  have hp' : (takeDraw s).fgPc = .flGate ∨ (takeDraw s).fgPc = .flTest := by simpa using hp
  obtain ⟨he, hnext⟩ := (step_move h).flushEnds hinv.takeDraw hp' ht
  have hidle : transmitIdle s := by simpa [transmitIdle] using hinv.takeDraw.transmitIdle_of_flushEnds he
  have hkeep : t.cfg = s.cfg ∧ t.tx = s.tx ∧ t.txLine = s.txLine := by obtain rfl | rfl := hnext <;> simp
  obtain ⟨hcfg, htx, hline⟩ := hkeep
  refine ⟨hidle, transmitStream_of_transmitIdle hinv.txWf hidle, fun hp => ?_, hline, ?_⟩
  · cases he with
    | gate hgate => simp [hp] at hgate
    | test _ _ hcomplete => simpa using hcomplete
  · rw [hcfg, htx]
    exact ringFree_of_empty hinv.txWf hidle.1

/-! ### After an `END` -/

theorem Move.eq_of_end_responds {e : Event} {s t : State} (h : Move e s t) (hp : s.fgPc = .endOff)
    (ht : t.fgPc = .idle) : s.faulted = none ∧ t = (shutDown s).respond 0 := by
  have hmoved : t.fgPc ≠ s.fgPc := by simp [hp, ht]
  obtain ⟨-, hfg⟩ | ⟨-, hpc, -⟩ := h.of_busy (by simp [hp])
  · have hf : s.fgEnabled = true := by
      by_contra hoff
      exact hmoved (by rw [hfg.eq_of_not_fgEnabled hoff])
    obtain ⟨-, hnone⟩ := (fgEnabled_iff s).mp hf
    by_cases hop : s.fgOp = 2
    · exact ⟨hnone, hfg.unique (.endRespond hf hp hop)⟩
    · simp [hfg.unique (.endGoOn hf hp hop)] at ht
  · exact absurd hpc hmoved

/-- Settles O59: `END_OFF` finds the transmit path idle, and writes every other register that is not in the list. -/
theorem endLeavesTheResetStateBut : Obligations.EndLeavesTheResetStateBut := by
  intro s t hinv h hp ht
  obtain ⟨hempty, -, hready, hfree⟩ := hinv.takeDraw.closing ((takeDraw_fgPc s).trans hp)
  obtain ⟨hnone, rfl⟩ := (step_move h).eq_of_end_responds ((takeDraw_fgPc s).trans hp) ht
  have hemptyTx := (Ring.isEmpty_iff _).mp hempty
  refine ⟨by simp, by simpa using hemptyTx, fun d => ?_⟩
  simp only [shutDown_eq, State.respond, State.resetWith, hready, hfree, hnone]

/-! ### The loops that a disabled transmitter blocks -/

theorem Move.flush_blocked {e : Event} {s t : State} (h : Move e s t) (hoff : s.txen = false)
    (hp : s.fgPc = .flTest ∨ s.fgPc = .flPoll) (hwait : s.hwTxc = false) :
    (t.fgPc = .flTest ∨ t.fgPc = .flPoll) ∧ t.txen = false ∧ t.rspLog = s.rspLog := by
  obtain ⟨-, hfg⟩ | ⟨-, hpc, hrsp, hen⟩ := h.of_busy (by obtain hp | hp := hp <;> simp [hp])
  · by_cases hf : s.fgEnabled = true
    · obtain hp | hp := hp
      · rw [hfg.unique (.flushWait hf hp (.inr hwait))]
        exact ⟨.inr rfl, hoff, rfl⟩
      · obtain rfl | ⟨c, -, rfl⟩ | ⟨-, rfl⟩ := hfg.pollPhase_cases (p := .flTest) (hp ▸ .flush) hf
        · exact ⟨.inl rfl, hoff, rfl⟩
        · exact ⟨.inl rfl, by simpa using hoff, by simp⟩
        · exact ⟨.inr hp, hoff, rfl⟩
    · rw [hfg.eq_of_not_fgEnabled hf]
      exact ⟨hp, hoff, rfl⟩
  · rw [hpc, hrsp, hen]
    exact ⟨hp, hoff, rfl⟩

/-- While the data register holds a byte nothing drains, and a full buffer takes nothing. -/
theorem Move.tx_eq_of_full {e : Event} {s t : State} (h : Move e s t) (hbusy : s.hwDre = false)
    (hfull : s.tx.isFull s.cfg.nTx = true) : t.tx = s.tx := by
  cases h with
  | writeSlow hf hp hs hroom => exact absurd ((Ring.isFull_iff _ _).mp hfull) hroom
  | transmitDrain ht =>
    obtain ⟨-, hready⟩ := (txReq_iff s).mp (txReq_of_txTakeable ht)
    simp [hbusy] at hready
  | pollPhaseDrain hf hp hd | pollDrain hi hw hd => exact absurd (hwDre_of_drains hd) (by simp [hbusy])
  | _ => simp

theorem Move.write_blocked {e : Event} {s t : State} (h : Move e s t) (hoff : s.txen = false)
    (hp : s.fgPc = .wrTry ∨ s.fgPc = .wrPoll ∨ s.fgPc = .wrRoom) (hbusy : s.hwDre = false)
    (hfull : s.tx.isFull s.cfg.nTx = true) :
    (t.fgPc = .wrTry ∨ t.fgPc = .wrPoll ∨ t.fgPc = .wrRoom) ∧ t.txen = false ∧ t.rspLog = s.rspLog := by
  obtain ⟨-, hfg⟩ | ⟨-, hpc, hrsp, hen⟩ := h.of_busy (by obtain hp | hp | hp := hp <;> simp [hp])
  · by_cases hf : s.fgEnabled = true
    · obtain hp | hp | hp := hp
      · rw [hfg.unique (.writeFull hf hp (by simp [hbusy]) ((Ring.isFull_iff _ _).mp hfull))]
        exact ⟨.inr (.inl rfl), hoff, rfl⟩
      · rw [hfg.unique (.pollPhaseIdle (p := .wrRoom) hf (hp ▸ .write) (by simp [State.txReq, hbusy]))]
        exact ⟨.inr (.inr rfl), hoff, rfl⟩
      · rw [hfg.unique (.writeRoom hf hp), if_pos hfull]
        exact ⟨.inr (.inl rfl), hoff, rfl⟩
    · rw [hfg.eq_of_not_fgEnabled hf]
      exact ⟨hp, hoff, rfl⟩
  · rw [hpc, hrsp, hen]
    exact ⟨hp, hoff, rfl⟩

/-- Settles O47: with the transmitter disabled no step raises `hw_txc` or `hw_dre`, which the loops wait for. -/
theorem blockedCommandsNeverEscape : Obligations.BlockedCommandsNeverEscape := by
  intro s t h hoff
  obtain ⟨htx, -⟩ := disabledDirectionDoesNothing s t h
  obtain ⟨-, -, -, hdre, htxc⟩ := htx hoff
  have hmove := step_move h
  refine ⟨fun hp hwait => ?_, fun hp hbusy hfull => ?_⟩
  · obtain ⟨hp', hoff', hrsp⟩ := hmove.flush_blocked (by simpa using hoff) (by simpa using hp) (by simpa using hwait)
    exact ⟨hp', Bool.eq_false_of_not_eq_true fun ht => by simp [htxc ht] at hwait, hoff', by simpa using hrsp⟩
  · obtain ⟨hp', hoff', hrsp⟩ := hmove.write_blocked (by simpa using hoff) (by simpa using hp) (by simpa using hbusy)
      (by simpa using hfull)
    have hring : t.tx = s.tx := by
      simpa using hmove.tx_eq_of_full (by simpa using hbusy) (by simpa using hfull)
    refine ⟨hp', Bool.eq_false_of_not_eq_true fun ht => by simp [hdre ht] at hbusy, ?_, hoff', by simpa using hrsp⟩
    rw [hring, hmove.cfg_eq, takeDraw_cfg, hfull]

end Sys2Proof.Machine
end

section
/-! PROOFS. In a fair run the loops of `FLUSH`, `END`, `BEGIN` and `WRITE` end while the transmitter is enabled
(70_reset_and_hazards.md R322, 45_hardware_interface.md R257).

While a loop goes on nothing is written, so what is still to be sent only shrinks. If the loop went on for ever, from
some moment on the transmit path would stand still; but then fairness takes a step that moves it, or ends the loop. -/

namespace Sys2Proof.Machine

open Sys2Proof

/-! ### What is still to be sent -/

/-- How many steps the bytes in the transmit path still need: three from the buffer to the line, two from the data
register, one from the shift register. -/
def undelivered (s : State) : Nat :=
  3 * ringOccupied s.cfg.nTx s.tx + 2 * (!s.hwDre).toNat + s.hwShiftBusy.toNat

theorem undelivered_drained {s : State} {c : Byte} (hwf : ringWf s.cfg.nTx s.tx) (hd : drains c s) :
    undelivered (drained c s) < undelivered s := by
  obtain ⟨-, hhead, htail, -⟩ := hwf
  obtain ⟨hreq, hbyte, -⟩ := hd
  obtain ⟨-, hready⟩ := (txReq_iff s).mp hreq
  have hpop := ringOccupied_popped hhead htail hbyte
  have hafter : undelivered (drained c s) =
      3 * ringOccupied s.cfg.nTx (popped s.cfg.nTx s.tx) + 2 + s.hwShiftBusy.toNat := rfl
  rw [hafter, undelivered, hready]
  simp only [Bool.not_true, Bool.toNat_false]
  omega

/-- A step that writes no byte brings some byte nearer to the line, or leaves the transmit path. -/
theorem Move.undelivered_cases {e : Event} {s t : State} (h : Move e s t) (hinv : Invariant s)
    (hw : written s t = []) :
    undelivered t < undelivered s ∨ (t.tx = s.tx ∧ t.transmitter = s.transmitter) := by
  cases h with
  | writeFast hf hp | writeSlow hf hp =>
    rw [written_of_wrTry (r := rspWord false 1) hp rfl] at hw
    cases hw
  | transmitDrain ht ho => exact .inl (undelivered_drained hinv.txWf ⟨txReq_of_txTakeable ht, ho⟩)
  | pollPhaseDrain hf hp hd => exact .inl (undelivered_drained hinv.txWf hd)
  | @pollDrain _ o _ c hi hw hd => exact .inl (undelivered_drained (s := s.latch 9 o) hinv.txWf hd)
  | txLoad h =>
    obtain ⟨-, hfull, hfree⟩ := (enabled_txLoad_iff s).mp h
    exact .inl (by simp [undelivered, hfull, hfree])
  | txDone h =>
    obtain ⟨-, hbusy⟩ := (enabled_txDone_iff s).mp h
    exact .inl (by simp [undelivered, hbusy])
  | _ => exact .inr (by simp [State.transmitter, shutDown, begun])

/-- A response leaves the foreground idle, so a step that does not, writes nothing. -/
theorem Move.written_of_busy {e : Event} {s t : State} (h : Move e s t) (hbusy : t.fgPc ≠ .idle) :
    written s t = [] := by
  obtain hrsp | ⟨-, hidle, -⟩ := h.rspLog_cases
  · exact written_of_rspLog_eq hrsp
  · exact absurd hidle hbusy

/-! ### The loops -/

/-- The phases of the flush steps (42_write_flush_poll.md R170 to R172). -/
def flushLoop (p : Phase) : Prop := p = .flGate ∨ p = .flTest ∨ p = .flPoll

/-- The phases of a `WRITE` (42_write_flush_poll.md R162 to R165). -/
def writeLoop (p : Phase) : Prop := p = .wrTry ∨ p = .wrPoll ∨ p = .wrRoom

/-- The phases of a loop are neither `IDLE` nor one in which `END` or `BEGIN` writes the enables. -/
def waitsOnly (loop : Phase → Prop) : Prop := ∀ p, loop p → p ≠ .idle ∧ p ≠ .endOff ∧ p ≠ .bgCfg

theorem waitsOnly_flushLoop : waitsOnly flushLoop := by rintro p (rfl | rfl | rfl) <;> decide

theorem waitsOnly_writeLoop : waitsOnly writeLoop := by rintro p (rfl | rfl | rfl) <;> decide

/-- A command is in a loop, with the transmitter enabled and no fault. -/
structure Waiting (loop : Phase → Prop) (s : State) : Prop where
  inv : Invariant s
  txen : s.txen = true
  running : s.faulted = none
  phase : loop s.fgPc

theorem Waiting.fgEnabled {loop : Phase → Prop} {s : State} (h : Waiting loop s) (hl : waitsOnly loop) :
    s.fgEnabled = true := by
  obtain ⟨hbusy, -⟩ := hl _ h.phase
  exact (fgEnabled_iff s).mpr ⟨hbusy, h.running⟩

/-- Only `BG_CFG` raises a fault (70_reset_and_hazards.md R331, 60_exceptions.md R285). -/
theorem Move.faulted_none {e : Event} {s t : State} (h : Move e s t) (hinv : Invariant s) (hnone : s.faulted = none)
    (hp : s.fgPc ≠ .bgCfg) : t.faulted = none := by
  cases h with
  | pollUnderflow hi hw hd | pollPhaseUnderflow hf hp hd => exact absurd hd hinv.not_underflows
  | transmitUnderflow ht he => exact absurd ⟨txReq_of_txTakeable ht, he⟩ hinv.not_underflows
  | beginZero hf hcfg => exact absurd hcfg hp
  | _ => simpa [drained, shutDown, begun] using hnone

/-- A step that stays in the loop keeps the transmitter enabled and raises no fault. -/
theorem Waiting.of_move {loop : Phase → Prop} {e : Event} {s t : State} (h : Waiting loop s) (hl : waitsOnly loop)
    (hmove : Move e s t) (ht : loop t.fgPc) : Waiting loop t := by
  obtain ⟨-, hoff, hcfg⟩ := hl _ h.phase
  refine ⟨hmove.invariant h.inv, ?_, hmove.faulted_none h.inv h.running hcfg, ht⟩
  obtain ⟨-, hkeep, -⟩ | ⟨-, -, hset, -⟩ | ⟨⟨-, hp⟩, -⟩ := hmove.enables_cases
  · exact hkeep.trans h.txen
  · exact hset
  · exact absurd hp hoff

/-- From the flush steps a step leads to one of them, to `IDLE` or to `END_OFF`. -/
theorem Move.flushLoop_cases {e : Event} {s t : State} (h : Move e s t) (hw : Waiting flushLoop s) :
    flushLoop t.fgPc ∨ t.fgPc = .idle ∨ t.fgPc = .endOff := by
  have hf := hw.fgEnabled waitsOnly_flushLoop
  obtain ⟨-, hfg⟩ | ⟨-, hpc, -⟩ := h.of_busy (busy_of_fgEnabled hf)
  · have ends (he : FlushEnds s) : t.fgPc = .idle ∨ t.fgPc = .endOff :=
      (hfg.eq_of_flushEnds hf he hw.inv.phase).imp (fun ht => by rw [ht]; rfl) (fun ht => by rw [ht]; rfl)
    obtain hp | hp | hp := hw.phase
    · obtain hever | he := flGate_cases hp
      · exact .inl (.inr (.inl (by rw [hfg.unique (.flushGo hf hp hever)]; rfl)))
      · exact .inr (ends he)
    · obtain hwait | he := flTest_cases hp
      · exact .inl (.inr (.inr (by rw [hfg.unique (.flushWait hf hp hwait)]; rfl)))
      · exact .inr (ends he)
    · obtain rfl | ⟨c, -, rfl⟩ | ⟨hd, -⟩ := hfg.pollPhase_cases (p := .flTest) (hp ▸ .flush) hf
      · exact .inl (.inr (.inl rfl))
      · exact .inl (.inr (.inl rfl))
      · exact absurd hd hw.inv.not_underflows
  · exact .inl (hpc ▸ hw.phase)

/-- From the phases of a `WRITE` a step leads to one of them or to `IDLE`. -/
theorem Move.writeLoop_cases {e : Event} {s t : State} (h : Move e s t) (hw : Waiting writeLoop s) :
    writeLoop t.fgPc ∨ t.fgPc = .idle := by
  have hf := hw.fgEnabled waitsOnly_writeLoop
  obtain ⟨-, hfg⟩ | ⟨-, hpc, -⟩ := h.of_busy (busy_of_fgEnabled hf)
  · obtain hp | hp | hp := hw.phase
    · by_cases hfast : s.txeIe = false ∧ s.hwDre = true
      · obtain ⟨hdisarmed, hready⟩ := hfast
        exact .inr (by rw [hfg.unique (.writeFast hf hp hdisarmed hready)]; rfl)
      · obtain ⟨-, hhead, -, -⟩ := hw.inv.txWf
        by_cases hfull : (s.tx.head + 1) % s.cfg.nTx = s.tx.tail
        · exact .inl (.inr (.inl (by rw [hfg.unique (.writeFull hf hp hfast hfull)]; rfl)))
        · exact .inr (by rw [hfg.unique (.writeSlow hf hp hfast hfull hhead)]; rfl)
    · obtain rfl | ⟨c, -, rfl⟩ | ⟨hd, -⟩ := hfg.pollPhase_cases (p := .wrRoom) (hp ▸ .write) hf
      · exact .inl (.inr (.inr rfl))
      · exact .inl (.inr (.inr rfl))
      · exact absurd hd hw.inv.not_underflows
    · rw [hfg.unique (.writeRoom hf hp)]
      refine .inl ?_
      split
      · exact .inr (.inl rfl)
      · exact .inl rfl
  · exact .inl (hpc ▸ hw.phase)

/-! ### A run that stands still -/

section Stalled

variable {loop : Phase → Prop} {ε : Nat → Event} {σ : Nat → State} {n : Nat}

/-- From the moment `n` on a command stays in a loop and the transmit path stands still. -/
structure Stalled (loop : Phase → Prop) (σ : Nat → State) (n : Nat) : Prop where
  waiting : ∀ m, n ≤ m → Waiting loop (σ m)
  cfg : ∀ m, n ≤ m → (σ m).cfg = (σ n).cfg
  tx : ∀ m, n ≤ m → (σ m).tx = (σ n).tx
  transmitter : ∀ m, n ≤ m → (σ m).transmitter = (σ n).transmitter

theorem Waiting.withDraws {s : State} (h : Waiting loop s) (l : List Event) (d : Nat) :
    Waiting loop { s with schedule := l, draws := d } :=
  ⟨h.inv.withDraws l d, h.txen, h.running, h.phase⟩

/-- A step inside a loop brings some byte nearer to the line, or leaves the transmit path. -/
theorem isRun.undelivered_cases (hrun : isRun ε σ) (hl : waitsOnly loop) {m : Nat} (h : Waiting loop (σ m))
    (h' : Waiting loop (σ (m + 1))) :
    undelivered (σ (m + 1)) < undelivered (σ m) ∨
    ((σ (m + 1)).tx = (σ m).tx ∧ (σ (m + 1)).transmitter = (σ m).transmitter) := by
  obtain ⟨l, d, hmove⟩ := isRun_move hrun m
  obtain ⟨hbusy, -⟩ := hl _ h'.phase
  exact hmove.undelivered_cases (h.inv.withDraws l d) (hmove.written_of_busy hbusy)

theorem undelivered_eq {s t : State} (hcfg : t.cfg = s.cfg) (htx : t.tx = s.tx) (hu : t.transmitter = s.transmitter) :
    undelivered t = undelivered s := by
  have hdre : t.hwDre = s.hwDre := congrArg Transmitter.dre hu
  have hbusy : t.hwShiftBusy = s.hwShiftBusy := congrArg Transmitter.busy hu
  rw [undelivered, undelivered, hcfg, htx, hdre, hbusy]

theorem isRun_cfg (hrun : isRun ε σ) (m : Nat) : (σ (m + 1)).cfg = (σ m).cfg := by
  obtain ⟨l, d, hmove⟩ := isRun_move hrun m
  exact hmove.cfg_eq

/-- What is left to be sent cannot shrink for ever, so a loop that never ends comes to stand still. -/
theorem isRun.stalls (hrun : isRun ε σ) (hl : waitsOnly loop) (h : ∀ m, n ≤ m → Waiting loop (σ m)) :
    ∃ k, n ≤ k ∧ Stalled loop σ k := by
  have hstep (m : Nat) (hm : n ≤ m) := hrun.undelivered_cases hl (h m hm) (h (m + 1) (Nat.le_succ_of_le hm))
  have hle (m : Nat) (hm : m ≥ n) : undelivered (σ (m + 1)) ≤ undelivered (σ m) := by
    obtain hlt | ⟨htx, hu⟩ := hstep m hm
    · exact hlt.le
    · exact (undelivered_eq (isRun_cfg hrun m) htx hu).le
  obtain ⟨k, hk⟩ := WellFoundedLT.antitone_chain_condition (antitone_add_nat_of_succ_le (f := fun m => undelivered (σ m)) hle)
  have hstill (m : Nat) (hm : k + n ≤ m) :
      (σ (m + 1)).tx = (σ m).tx ∧ (σ (m + 1)).transmitter = (σ m).transmitter := by
    have hconst : undelivered (σ (m + 1)) = undelivered (σ m) := by
      have hnow := hk (m - n) (by omega)
      have hnext := hk (m + 1 - n) (by omega)
      rw [Nat.sub_add_cancel (by omega)] at hnow hnext
      exact hnext.symm.trans hnow
    exact (hstep m (by omega)).resolve_left (by omega)
  refine ⟨k + n, by omega, fun m hm => h m (by omega), fun m hm => ?_, fun m hm => ?_, fun m hm => ?_⟩
  · induction m, hm using Nat.le_induction with
    | base => rfl
    | succ m hm ih => exact (isRun_cfg hrun m).trans ih
  · induction m, hm using Nat.le_induction with
    | base => rfl
    | succ m hm ih => exact (hstill m hm).1.trans ih
  · induction m, hm using Nat.le_induction with
    | base => rfl
    | succ m hm ih => exact (hstill m hm).2.trans ih

/-- Fairness takes a transmit step that stays enabled, and a transmitter that stands still has none. -/
theorem Stalled.transmitter_idle (h : Stalled loop σ n) (hf : fairRun ε σ) :
    (σ n).hwDre = true ∧ (σ n).hwShiftBusy = false := by
  have hen (m : Nat) (hm : n ≤ m) : (σ m).txen = true := (h.waiting m hm).txen
  have hfree : (σ n).hwShiftBusy = false := by
    by_contra hbusy
    obtain ⟨m, hm, hu⟩ := hf.finishes hen (Bool.of_not_eq_false hbusy) fun hready m hm _ =>
      (congrArg Transmitter.dre (h.transmitter (m + 1) (Nat.le_succ_of_le hm))).trans hready
    exact hbusy (congrArg Transmitter.busy ((h.transmitter m hm).symm.trans hu))
  refine ⟨?_, hfree⟩
  by_contra hfull
  obtain ⟨m, hm, hu⟩ := hf.loads hen (Bool.eq_false_of_not_eq_true hfull) hfree
  exact hfull (congrArg Transmitter.dre ((h.transmitter m hm).symm.trans hu))

theorem not_isEmpty_of_full {N : Nat} {r : Ring} (hN : 2 ≤ N) (hhead : r.head < N) (hfull : (r.head + 1) % N = r.tail) :
    r.isEmpty = false := by
  rw [Ring.isEmpty, beq_eq_false_iff_ne]
  exact fun hempty => succ_mod_ne_self hN hhead (hfull.trans hempty.symm)

/-- The state `s` of a stalled run in which the foreground's step is taken, leading to `t`: both wait, and both have the
transmit path of `u`. -/
structure StalledStep (loop : Phase → Prop) (u s t : State) : Prop where
  move : Move .fg s t
  before : Waiting loop s
  after : Waiting loop t
  cfg : s.cfg = u.cfg
  tx : s.tx = u.tx
  transmitter : s.transmitter = u.transmitter
  transmitter' : t.transmitter = u.transmitter

/-- Where the foreground's step is fair, it is taken in every phase that the loop comes to. -/
theorem Stalled.takes (h : Stalled loop σ n) (hl : waitsOnly loop) (hrun : isRun ε σ) (hfair : weaklyFair .fg ε σ)
    {p : Phase} (hp : ∃ m, n ≤ m ∧ (σ m).fgPc = p) :
    ∃ k s, n ≤ k ∧ s.fgPc = p ∧ StalledStep loop (σ n) s (σ k) := by
  obtain ⟨m, hm, hp⟩ := hp
  obtain ⟨k, hk, hpk, he⟩ := hfair.taken (P := fun k => (σ k).fgPc = p) hp
    (fun k hk _ => (h.waiting k (hm.trans hk)).fgEnabled hl) fun k hk hpk hne => by
      obtain ⟨l, d, hmove⟩ := isRun_move hrun k
      obtain ⟨hbusy, -⟩ := hl _ (h.waiting k (hm.trans hk)).phase
      obtain ⟨he, -⟩ | ⟨-, hpc, -⟩ := hmove.of_busy hbusy
      · exact absurd he hne
      · exact hpc.trans hpk
  have hnk := hm.trans hk
  obtain ⟨l, d, hmove⟩ := isRun_move hrun k
  rw [he] at hmove
  exact ⟨k + 1, { σ k with schedule := l, draws := d }, Nat.le_succ_of_le hnk, hpk, hmove, (h.waiting k hnk).withDraws l d,
    h.waiting _ (Nat.le_succ_of_le hnk), h.cfg k hnk, h.tx k hnk, h.transmitter k hnk,
    h.transmitter _ (Nat.le_succ_of_le hnk)⟩

/-- From a phase that polls the loop goes on to the phase after it. -/
theorem Stalled.goes_on (h : Stalled loop σ n) (hl : waitsOnly loop) (hrun : isRun ε σ) (hfair : weaklyFair .fg ε σ)
    {p q : Phase} (hpq : PollPhase p q) (hp : ∃ m, n ≤ m ∧ (σ m).fgPc = p) : ∃ m, n ≤ m ∧ (σ m).fgPc = q := by
  obtain ⟨k, s, hk, rfl, hs⟩ := h.takes hl hrun hfair hp
  obtain ht | ⟨c, -, ht⟩ | ⟨hd, -⟩ := hs.move.pollPhase_cases hpq (hs.before.fgEnabled hl)
  · exact ⟨k, hk, by rw [ht]; rfl⟩
  · exact ⟨k, hk, by rw [ht]; rfl⟩
  · exact absurd hd hs.before.inv.not_underflows

/-- A phase that polls would drain a byte that the buffer holds, so a stalled run is in none with a byte buffered. -/
theorem Stalled.not_polling (h : Stalled loop σ n) (hl : waitsOnly loop) (hf : fairRun ε σ)
    (hfair : weaklyFair .fg ε σ) (harmed : (σ n).tx.isEmpty = false) {p q : Phase} (hpq : PollPhase p q)
    (hp : ∃ m, n ≤ m ∧ (σ m).fgPc = p) : False := by
  obtain ⟨hready, -⟩ := h.transmitter_idle hf
  obtain ⟨k, s, -, rfl, hs⟩ := h.takes hl hf.1 hfair hp
  have hreq : s.txReq = true := by
    rw [txReq_iff, hs.before.inv.armed, hs.tx, harmed]
    exact ⟨rfl, (congrArg Transmitter.dre hs.transmitter).trans hready⟩
  obtain ⟨c, hc⟩ := hs.before.inv.exists_oldest_of_txReq hreq
  have hdrained := hs.move.unique (.pollPhaseDrain (hs.before.fgEnabled hl) hpq hc)
  have hbusy : (σ k).hwDre = false := by rw [hdrained]; rfl
  have hsame : (σ k).hwDre = (σ n).hwDre := congrArg Transmitter.dre hs.transmitter'
  simp [hsame, hready] at hbusy

/-- The flush steps do not stall: with a byte buffered they come to `FL_POLL`, with none to an `FL_TEST` that ends
them. -/
theorem Stalled.not_flushLoop (h : Stalled flushLoop σ n) (hf : fairRun ε σ) (hfair : weaklyFair .fg ε σ) : False := by
  have ⟨hrun, _⟩ := hf
  have hl := waitsOnly_flushLoop
  obtain ⟨hready, hfree⟩ := h.transmitter_idle hf
  have not_ended {s t : State} (hs : StalledStep flushLoop (σ n) s t) (he : FlushEnds s) : False := by
    obtain ⟨hidle, hoff, -⟩ := hl _ hs.after.phase
    obtain ht | ht := hs.move.eq_of_flushEnds (hs.before.fgEnabled hl) he hs.before.inv.phase
    · exact hidle (by rw [ht]; rfl)
    · exact hoff (by rw [ht]; rfl)
  have hgate (hp : ∃ m, n ≤ m ∧ (σ m).fgPc = .flGate) : ∃ m, n ≤ m ∧ (σ m).fgPc = .flTest := by
    obtain ⟨k, s, hk, hp, hs⟩ := h.takes hl hrun hfair hp
    obtain hever | he := flGate_cases hp
    · exact ⟨k, hk, by rw [hs.move.unique (.flushGo (hs.before.fgEnabled hl) hp hever)]; rfl⟩
    · exact (not_ended hs he).elim
  have htest : ¬∃ m, n ≤ m ∧ (σ m).fgPc = .flTest := by
    intro hp
    obtain ⟨k, s, hk, hp, hs⟩ := h.takes hl hrun hfair hp
    cases hempty : (σ n).tx.isEmpty with
    | false =>
      have harmed : s.txeIe = true := by rw [hs.before.inv.armed, hs.tx, hempty]; rfl
      have ht := hs.move.unique (.flushWait (hs.before.fgEnabled hl) hp (.inl harmed))
      exact h.not_polling hl hf hfair hempty .flush ⟨k, hk, by rw [ht]; rfl⟩
    | true =>
      have hdisarmed : s.txeIe = false := by rw [hs.before.inv.armed, hs.tx, hempty]; rfl
      have hcomplete : s.hwTxc = true :=
        hs.before.inv.reported (hs.before.inv.flushing (.inl hp)) ((congrArg Transmitter.dre hs.transmitter).trans hready)
          ((congrArg Transmitter.busy hs.transmitter).trans hfree)
      exact not_ended hs (.test hp hdisarmed hcomplete)
  obtain hp | hp | hp := (h.waiting n le_rfl).phase
  · exact htest (hgate ⟨n, le_rfl, hp⟩)
  · exact htest ⟨n, le_rfl, hp⟩
  · exact htest (h.goes_on hl hrun hfair .flush ⟨n, le_rfl, hp⟩)

/-- A `WRITE` does not stall: with a full buffer it comes to `WR_POLL`, with room to a `WR_TRY` that ends it. -/
theorem Stalled.not_writeLoop (h : Stalled writeLoop σ n) (hf : fairRun ε σ) (hfair : weaklyFair .fg ε σ) : False := by
  have ⟨hrun, _⟩ := hf
  have hl := waitsOnly_writeLoop
  have htry : ¬∃ m, n ≤ m ∧ (σ m).fgPc = .wrTry := by
    intro hp
    obtain ⟨k, s, hk, hp, hs⟩ := h.takes hl hrun hfair hp
    have hfg := hs.before.fgEnabled hl
    obtain ⟨hidle, -⟩ := hl _ hs.after.phase
    obtain ⟨-, hhead, -, -⟩ := hs.before.inv.txWf
    by_cases hfast : s.txeIe = false ∧ s.hwDre = true
    · obtain ⟨hdisarmed, hready⟩ := hfast
      exact hidle (by rw [hs.move.unique (.writeFast hfg hp hdisarmed hready)]; rfl)
    · by_cases hfull : (s.tx.head + 1) % s.cfg.nTx = s.tx.tail
      · have hbyte : (σ n).tx.isEmpty = false := hs.tx ▸ not_isEmpty_of_full s.cfg.nTx_lo hhead hfull
        have ht := hs.move.unique (.writeFull hfg hp hfast hfull)
        exact h.not_polling hl hf hfair hbyte .write ⟨k, hk, by rw [ht]; rfl⟩
      · exact hidle (by rw [hs.move.unique (.writeSlow hfg hp hfast hfull hhead)]; rfl)
  have hroom : ¬∃ m, n ≤ m ∧ (σ m).fgPc = .wrRoom := by
    intro hp
    obtain ⟨k, s, hk, hp, hs⟩ := h.takes hl hrun hfair hp
    have ht := hs.move.unique (.writeRoom (hs.before.fgEnabled hl) hp)
    obtain ⟨-, hhead, -, -⟩ := hs.before.inv.txWf
    by_cases hfull : s.tx.isFull s.cfg.nTx = true
    · have hbyte : (σ n).tx.isEmpty = false :=
        hs.tx ▸ not_isEmpty_of_full s.cfg.nTx_lo hhead ((Ring.isFull_iff _ _).mp hfull)
      exact h.not_polling hl hf hfair hbyte .write ⟨k, hk, by rw [ht, if_pos hfull]; rfl⟩
    · exact htry ⟨k, hk, by rw [ht, if_neg hfull]; rfl⟩
  obtain hp | hp | hp := (h.waiting n le_rfl).phase
  · exact htry ⟨n, le_rfl, hp⟩
  · exact hroom (h.goes_on hl hrun hfair .write ⟨n, le_rfl, hp⟩)
  · exact hroom ⟨n, le_rfl, hp⟩

/-- A run that never leaves a loop waits in it for ever. -/
theorem isRun.waits (hrun : isRun ε σ) (hl : waitsOnly loop) (h : Waiting loop (σ n))
    (hstay : ∀ m, n ≤ m → Waiting loop (σ m) → loop (σ (m + 1)).fgPc) (m : Nat) (hm : n ≤ m) : Waiting loop (σ m) := by
  induction m, hm using Nat.le_induction with
  | base => exact h
  | succ m hm ih =>
    obtain ⟨l, d, hmove⟩ := isRun_move hrun m
    exact (ih.withDraws l d).of_move hl hmove (hstay m hm ih)

theorem fairRun.flush_ends (hf : fairRun ε σ) (hfair : weaklyFair .fg ε σ) (h : Waiting flushLoop (σ n)) :
    ∃ m, n ≤ m ∧ ((σ m).fgPc = .idle ∨ (σ m).fgPc = .endOff) := by
  by_contra hnever
  have hwaits := hf.1.waits waitsOnly_flushLoop h fun m hm hw => by
    obtain ⟨l, d, hmove⟩ := isRun_move hf.1 m
    exact (hmove.flushLoop_cases (hw.withDraws l d)).resolve_right fun hend => hnever ⟨m + 1, by omega, hend⟩
  obtain ⟨k, -, hstalled⟩ := hf.1.stalls waitsOnly_flushLoop hwaits
  exact hstalled.not_flushLoop hf hfair

theorem fairRun.write_ends (hf : fairRun ε σ) (hfair : weaklyFair .fg ε σ) (h : Waiting writeLoop (σ n)) :
    ∃ m, n ≤ m ∧ (σ m).fgPc = .idle := by
  by_contra hnever
  have hwaits := hf.1.waits waitsOnly_writeLoop h fun m hm hw => by
    obtain ⟨l, d, hmove⟩ := isRun_move hf.1 m
    exact (hmove.writeLoop_cases (hw.withDraws l d)).resolve_right fun hend => hnever ⟨m + 1, by omega, hend⟩
  obtain ⟨k, -, hstalled⟩ := hf.1.stalls waitsOnly_writeLoop hwaits
  exact hstalled.not_writeLoop hf hfair

end Stalled

/-- Settles O37: a loop that never ended would stall, and neither loop can. -/
theorem fairRunEndsBlockingCommands : Obligations.FairRunEndsBlockingCommands := by
  intro ε σ n hf hfair hinv hen hnone
  exact ⟨fun hp => hf.flush_ends hfair ⟨hinv, hen, hnone, hp⟩, fun hp => hf.write_ends hfair ⟨hinv, hen, hnone, hp⟩⟩

end Sys2Proof.Machine
end
